-- ==== Sys2Proof/Word.lean ====
section
/-!
DEFINITION. The plain value types of the controller: bytes, halfwords, words, bus offsets and colours.
Numbering and widths: spec/00_scope.md R9, R14, R16.
-/

namespace Sys2Proof

/-- A byte: 8 bits (00_scope R9). -/
abbrev Byte := BitVec 8

/-- A halfword: 2 bytes (00_scope R9). -/
abbrev Half := BitVec 16

/-- A word: 4 bytes (00_scope R9). -/
abbrev Word := BitVec 32

/-- A byte offset from `BASE`, 0 to 0xFFFF (00_scope R16). -/
abbrev Offset := BitVec 16

/-- A colour: the triple (r, g, b) of bytes (00_scope R14). -/
structure RGB where
  r : Byte
  g : Byte
  b : Byte
  deriving DecidableEq, Repr, Inhabited

/-- Black, the colour (0, 0, 0) (41_palette R172: `DEFAULT_BG`). -/
def RGB.black : RGB := ⟨0, 0, 0⟩

end Sys2Proof
end

