-- ==== Sys2Proof/Config.lean ====
section
/-!
DEFINITION. What an implementation fixes and the spec leaves open (spec/00_scope.md R8), and the free values.
Each `opaque` constant has no body: no proof can see its value, so a theorem holds for every value it may have.
-/

namespace Sys2Proof

/-- `BASE` is this number times 0x10000. 00_scope R8 (a), 92_eei_decisions D1: `BASE` is a multiple of 0x10000 and
otherwise open. The spec gives a bus address no width: addresses and `BASE` are natural numbers, which leaves the width
open. DESIGN CHOICE (logs 6, 23): safe. -/
opaque Config.basePage : Nat

/-- `BASE`, the bus address of offset 0 (00_scope R8 (a)). -/
def Config.base : Nat := Config.basePage * 0x10000

/-- `ENH_THRESHOLD` is 2 to the power of this number plus 2. 92_eei_decisions D3 leaves it open among the single bits
2^2 to 2^31. DESIGN CHOICE (log 6): safe. -/
opaque Config.enhBitIndex : Fin 30

/-- `ENH_THRESHOLD`: a power of two greater than 3 (00_scope R8 (b)). -/
def Config.enhThreshold : Word := 1#32 <<< (Config.enhBitIndex.val + 2)

/-- How many offsets the Classic dead zone holds: 0 to 0xEFF8 (00_scope R8 (d), 92_eei_decisions D23).
DESIGN CHOICE (log 6): safe. -/
opaque Config.deadZoneSize : Fin 0xEFF9

/-- `CLASSIC_DEAD_END`, the exclusive end of the Classic dead zone, 0x1008 to 0x10000 (00_scope R8 (d)). -/
def Config.classicDeadEnd : Nat := 0x1008 + Config.deadZoneSize.val

/-- `CLASSIC_COLORS`, the sixteen fixed colours of Classic mode (00_scope R8 (c), 92_eei_decisions D24).
DESIGN CHOICE (log 6): safe. -/
opaque Config.classicColors : BitVec 4 → RGB

/-- How many bus masters the platform has beside the first. DESIGN CHOICE (logs 6, 8): safe. -/
opaque Config.otherMasters : Nat

/-- `N_MASTERS`, the number of bus masters that can issue transactions (00_scope R8 (f)): 1 on the platform of
92_eei_decisions D34; "a platform with more states it". -/
def Config.nMasters : Nat := Config.otherMasters + 1

/-- A bus master: one of `N_MASTERS` (60_exceptions R353). -/
abbrev Master := Fin Config.nMasters

/-- The first master, the only one of a platform with one. -/
def Master.first : Master := ⟨0, Nat.succ_pos _⟩

/-- The free part of `msPerFrame` after the RESET event: 70_reset_and_hazards R370, "any value in [10,100]".
DESIGN CHOICE (log 3): safe. -/
opaque Config.freeMsPerFrame : Nat → Fin 91

/-- A free layer pixel: the layers after the RESET event are "unspecified" (70_reset_and_hazards R370). The first
argument is the draw's number, the second the pixel's index. DESIGN CHOICE (log 4): safe. -/
opaque Config.freeLayerPixel : Nat → Nat → Option RGB

end Sys2Proof
end

