-- ==== Sys2Proof/Syntax.lean ====
section
/-!
DEFINITION. The transactions and events of the controller: one constructor of `Instr` for each row of
spec/opcode_table.json (spec/30_encoding.md R104). An operand is what the row's rule names: the offset, the width and
the value of a transaction; the row's own name fixes the mode, the direction and, for a word-only register, the offset.
-/

namespace Sys2Proof

/-- The two operating modes (10_state R23). -/
inductive Mode where
  | classic
  | enhanced
  deriving DecidableEq, Repr

/-- The access widths 1, 2 and 4 bytes; no other exists (20_memory R63). -/
inductive Width where
  | one
  | two
  | four
  deriving DecidableEq, Repr

/-- A value together with its width: what a write presents and what a read returns (20_memory R60 (1)). -/
inductive WVal where
  | b1 (v : Byte)
  | b2 (v : Half)
  | b4 (v : Word)
  deriving DecidableEq, Repr

/-- A transaction as the bus port presents it: direction, offset, width and, for a write, the value. The mode is not
part of it: "state, not supplied by the master" (30_encoding R100). -/
inductive BusReq where
  | read (off : Offset) (w : Width)
  | write (off : Offset) (d : WVal)
  deriving DecidableEq, Repr

/-- The input collaborator's three key functions (46_input_mirror R320). -/
inductive KeyTable where
  | held
  | pressed
  | released
  deriving DecidableEq, Repr

/-- One value the input collaborator changes (46_input_mirror R320, R321). -/
inductive InputChange where
  | key (table : KeyTable) (id : Word) (down : Bool)
  | mouseX (v : Word)
  | mouseY (v : Word)
  | mouseHeld (v : Word)
  | mousePressed (v : Word)
  | mouseReleased (v : Word)
  | classicKeys (v : Word)
  deriving DecidableEq, Repr

/-- The operations of the controller, one constructor for each row of spec/opcode_table.json, in the table's order. -/
inductive Instr where
  | cCtrlW (v : Word)
  | cCtrlR
  | cKeysW (v : Word)
  | cKeysR
  | cBackW (off : Offset) (d : WVal)
  | cBackR (off : Offset) (w : Width)
  | cDeadW (off : Offset) (d : WVal)
  | cDeadR (off : Offset) (w : Width)
  | cBeyondW (off : Offset) (d : WVal)
  | cBeyondR (off : Offset) (w : Width)
  | eCtrlW (v : Word)
  | eCtrlR
  | eOrderW (v : Word)
  | eOrderR
  | eSyncW (v : Word)
  | eSyncR
  | eFbClearW (v : Word)
  | eFbClearR
  | ePalResetW (v : Word)
  | ePalResetR
  | eTmScxW (v : Word)
  | eTmScxR
  | eTmScyW (v : Word)
  | eTmScyR
  | eKeyHeldW (v : Word)
  | eKeyHeldR
  | eKeyPressedW (v : Word)
  | eKeyPressedR
  | eKeyReleasedW (v : Word)
  | eKeyReleasedR
  | eMouseXW (v : Word)
  | eMouseXR
  | eMouseYW (v : Word)
  | eMouseYR
  | eMouseHeldW (v : Word)
  | eMouseHeldR
  | eMousePressedW (v : Word)
  | eMousePressedR
  | eMouseReleasedW (v : Word)
  | eMouseReleasedR
  | ePalW (off : Offset) (d : WVal)
  | ePalR (off : Offset) (w : Width)
  | eFbW (off : Offset) (d : WVal)
  | eFbR (off : Offset) (w : Width)
  | eTmtW (off : Offset) (d : WVal)
  | eTmtR (off : Offset) (w : Width)
  | eSptW (off : Offset) (d : WVal)
  | eSptR (off : Offset) (w : Width)
  | eTmgW (off : Offset) (d : WVal)
  | eTmgR (off : Offset) (w : Width)
  | eSpgW (off : Offset) (d : WVal)
  | eSpgR (off : Offset) (w : Width)
  | eUnusedW (off : Offset) (d : WVal)
  | eUnusedR (off : Offset) (w : Width)
  | narrowW (m : Mode) (off : Offset) (d : WVal)
  | narrowR (m : Mode) (off : Offset) (w : Width)
  | misalignedW (m : Mode) (off : Offset) (d : WVal)
  | misalignedR (m : Mode) (off : Offset) (w : Width)
  | reset
  | sample
  | input (changes : List InputChange)
  deriving DecidableEq, Repr

end Sys2Proof
end

