-- ==== Sys2Proof/Machine/Bits.lean ====
section
/-!
DEFINITION. Widths, bytes and bit fields: the little-endian view of a value (spec/20_memory.md R62, spec/00_scope.md R9)
and the arithmetic helpers of spec/00_scope.md R10.
-/

namespace Sys2Proof

/-- The number of bytes of a width (20_memory R63). -/
def Width.bytes : Width → Nat
  | .one => 1
  | .two => 2
  | .four => 4

/-- The width a value was presented with. -/
def WVal.width : WVal → Width
  | .b1 _ => .one
  | .b2 _ => .two
  | .b4 _ => .four

/-- Byte `j` of a value, `v[8j+7:8j]` (20_memory R62). -/
def byteOf {n : Nat} (v : BitVec n) (j : Nat) : Byte := v.extractLsb' (8 * j) 8

/-- The bytes of a value in the order they lie in memory, low byte first (20_memory R62). -/
def WVal.bytes : WVal → List Byte
  | .b1 v => [v]
  | .b2 v => [byteOf v 0, byteOf v 1]
  | .b4 v => [byteOf v 0, byteOf v 1, byteOf v 2, byteOf v 3]

/-- The value of width `w` whose byte `j` is `f j`: `f (w-1) ‖ … ‖ f 0` (20_memory R62). -/
def WVal.ofBytes (w : Width) (f : Nat → Byte) : WVal :=
  match w with
  | .one => .b1 (f 0)
  | .two => .b2 (f 1 ++ f 0)
  | .four => .b4 (f 3 ++ f 2 ++ f 1 ++ f 0)

/-- Zero at a width: what a read without a value returns (20_memory R64, R65, R72, R73). -/
def WVal.zero : Width → WVal
  | .one => .b1 0
  | .two => .b2 0
  | .four => .b4 0

/-- The value as a number zero-extended to 32 bits (`zext`, 00_scope R10). -/
def WVal.toWord : WVal → Word
  | .b1 v => v.setWidth 32
  | .b2 v => v.setWidth 32
  | .b4 v => v

/-- `clamp(x, lo, hi)` (00_scope R10). -/
def clamp (x lo hi : Nat) : Nat := if x < lo then lo else if hi < x then hi else x

/-- A Boolean as a 32-bit word, 1 for true and 0 for false (30_encoding R114). -/
def wordOfBool (b : Bool) : Word := if b then 1 else 0

/-- `off mod w = 0`: the natural alignment of 20_memory R65. -/
def aligned (off : Offset) (w : Width) : Bool := off.toNat % w.bytes == 0

end Sys2Proof
end

