-- ==== Sys2Proof/WellFormed.lean ====
section
/-!
DEFINITION. Which operands each row of spec/opcode_table.json admits: its offset range, its widths and its alignment
(spec/30_encoding.md R101 to R104, R125 to R130). The ranges are written here as the table gives them; the decoder
finds the region by its own procedure (Decode.lean).
-/

namespace Sys2Proof

/-- The offset lies in `lo`..`hi` (inclusive) and is aligned to the width. -/
def inRange (lo hi : Nat) (off : Offset) (w : Width) : Bool :=
  decide (lo ≤ off.toNat) && (decide (off.toNat ≤ hi) && aligned off w)

/-- The offset lies inside a word-only register of the mode's map (20_memory R63, R66, R67). -/
def inWordOnly (m : Mode) (off : Offset) : Bool :=
  match m with
  | .classic => decide (off.toNat ≤ 0x0007)
  | .enhanced =>
    decide (off.toNat ≤ 0x0013) || (decide (0x0020 ≤ off.toNat) && decide (off.toNat ≤ 0x0027)) ||
      (decide (0x0040 ≤ off.toNat) && decide (off.toNat ≤ 0x005F))

/-- The offset is unused in the Enhanced map (30_encoding R102). -/
def inUnused (off : Offset) : Bool :=
  (decide (0x0014 ≤ off.toNat) && decide (off.toNat ≤ 0x001F)) ||
    (decide (0x0028 ≤ off.toNat) && decide (off.toNat ≤ 0x003F)) ||
    (decide (0x0060 ≤ off.toNat) && decide (off.toNat ≤ 0x0BFF)) || decide (0xE000 ≤ off.toNat)

/-- The offset and width fit the Classic dead zone, 0x1008 to `CLASSIC_DEAD_END` - 1 (30_encoding R103). -/
def inDeadZone (off : Offset) (w : Width) : Bool :=
  decide (0x1008 ≤ off.toNat) && (decide (off.toNat < Config.classicDeadEnd) && aligned off w)

/-- The offset and width fit the range beyond the Classic dead zone (30_encoding R103). -/
def beyondDeadZone (off : Offset) (w : Width) : Bool :=
  decide (Config.classicDeadEnd ≤ off.toNat) && aligned off w

/-- A narrow transaction: aligned, width 1 or 2, inside a word-only register (30_encoding R127, R128). -/
def narrowAt (m : Mode) (off : Offset) (w : Width) : Bool :=
  inWordOnly m off && (decide (w ≠ .four) && aligned off w)

/-- The operands are ones the row of the instruction admits (30_encoding R104). -/
def Instr.wf : Instr → Bool
  | .cCtrlW _ | .cCtrlR | .cKeysW _ | .cKeysR => true
  | .cBackW off d => inRange 0x0008 0x1007 off d.width
  | .cBackR off w => inRange 0x0008 0x1007 off w
  | .cDeadW off d => inDeadZone off d.width
  | .cDeadR off w => inDeadZone off w
  | .cBeyondW off d => beyondDeadZone off d.width
  | .cBeyondR off w => beyondDeadZone off w
  | .eCtrlW _ | .eCtrlR | .eOrderW _ | .eOrderR | .eSyncW _ | .eSyncR => true
  | .eFbClearW _ | .eFbClearR | .ePalResetW _ | .ePalResetR => true
  | .eTmScxW _ | .eTmScxR | .eTmScyW _ | .eTmScyR => true
  | .eKeyHeldW _ | .eKeyHeldR | .eKeyPressedW _ | .eKeyPressedR | .eKeyReleasedW _ | .eKeyReleasedR => true
  | .eMouseXW _ | .eMouseXR | .eMouseYW _ | .eMouseYR | .eMouseHeldW _ | .eMouseHeldR => true
  | .eMousePressedW _ | .eMousePressedR | .eMouseReleasedW _ | .eMouseReleasedR => true
  | .ePalW off d => inRange 0x0C00 0x0FFF off d.width
  | .ePalR off w => inRange 0x0C00 0x0FFF off w
  | .eFbW off d => inRange 0x1000 0x4FFF off d.width
  | .eFbR off w => inRange 0x1000 0x4FFF off w
  | .eTmtW off d => inRange 0x5000 0x57FF off d.width
  | .eTmtR off w => inRange 0x5000 0x57FF off w
  | .eSptW off d => inRange 0x5800 0x5FFF off d.width
  | .eSptR off w => inRange 0x5800 0x5FFF off w
  | .eTmgW off d => inRange 0x6000 0x9FFF off d.width
  | .eTmgR off w => inRange 0x6000 0x9FFF off w
  | .eSpgW off d => inRange 0xA000 0xDFFF off d.width
  | .eSpgR off w => inRange 0xA000 0xDFFF off w
  | .eUnusedW off d => inUnused off && aligned off d.width
  | .eUnusedR off w => inUnused off && aligned off w
  | .narrowW m off d => narrowAt m off d.width
  | .narrowR m off w => narrowAt m off w
  | .misalignedW _ off d => !aligned off d.width
  | .misalignedR _ off w => !aligned off w
  | .reset | .sample | .input _ => true

end Sys2Proof
end

