-- ==== Sys2Proof/Decode.lean ====
section
/-!
DEFINITION. The decoder and the encoder.

1. `route` is the decode procedure of spec/30_encoding.md R101 over the two region tables R102 and R103.
2. A transaction and an event also have a form as 32-bit little-endian words, so that a decoder can be asked about bits.
   Word 0 holds the decode key K = m ‖ op ‖ off of R100 in bits 17:0; the spec gives the width, the value and the events
   no bits, so the rest is the model's (DESIGN CHOICE, log 2): bits 19:18 the width (0 = 4 bytes, 1 = 1 byte, 2 = 2 bytes),
   bits 23:20 the kind (0 bus transaction, 1 RESET, 2 SAMPLE, 3 INPUT), bits 31:24 zero. Word 1 of a write is its value.
   INPUT continues with three words for each change (which value, from 1 on; key identifier; new value) and ends with a
   word 0, so that any number of changes has an encoding.
-/

namespace Sys2Proof

/-! ## The region tables -/

/-- The targets of the Classic map (30_encoding R103). -/
inductive ClassicRegion where
  | ctrl | keys | back | dead | beyond
  deriving DecidableEq, Repr

/-- The targets of the Enhanced map (30_encoding R102). -/
inductive EnhancedRegion where
  | ctrl | order | sync | fbClear | palReset | tmScx | tmScy
  | keyHeld | keyPressed | keyReleased | mouseX | mouseY | mouseHeld | mousePressed | mouseReleased
  | unused | pal | fb | tmTable | sprTable | tmGfx | sprGfx
  deriving DecidableEq, Repr

/-- 30_encoding R103: in Classic mode the page selector is not used (20_memory R69). -/
def classicRegion (off : Offset) : ClassicRegion :=
  if off.toNat < 0x0004 then .ctrl
  else if off.toNat < 0x0008 then .keys
  else if off.toNat < 0x1008 then .back
  else if off.toNat < Config.classicDeadEnd then .dead
  else .beyond

/-- Page 0 by the within-page offset: global registers below 0x060, palette RAM from 0xC00 (20_memory R69). -/
def page0Region (within : Nat) : EnhancedRegion :=
  if within < 0x060 then
    match within / 4 with
    | 0x00 => .ctrl
    | 0x01 => .order
    | 0x02 => .sync
    | 0x03 => .fbClear
    | 0x04 => .palReset
    | 0x08 => .tmScx
    | 0x09 => .tmScy
    | 0x10 => .keyHeld
    | 0x11 => .keyPressed
    | 0x12 => .keyReleased
    | 0x13 => .mouseX
    | 0x14 => .mouseY
    | 0x15 => .mouseHeld
    | 0x16 => .mousePressed
    | 0x17 => .mouseReleased
    | _ => .unused
  else if within < 0xC00 then .unused
  else .pal

/-- The page decode of 20_memory R69 and 30_encoding R102: `page = off[15:12]`, `within = off[11:0]`. -/
def enhancedRegion (off : Offset) : EnhancedRegion :=
  match off.toNat / 0x1000 with
  | 0x0 => page0Region (off.toNat % 0x1000)
  | 0x1 | 0x2 | 0x3 | 0x4 => .fb
  | 0x5 => if off.toNat % 0x1000 < 0x800 then .tmTable else .sprTable
  | 0x6 | 0x7 | 0x8 | 0x9 => .tmGfx
  | 0xA | 0xB | 0xC | 0xD => .sprGfx
  | _ => .unused

/-! ## Routing a transaction (30_encoding R101) -/

/-- R101 (4) for a write: a word-only register takes a word; anything narrower is NARROW. -/
def wordOnlyWrite (m : Mode) (off : Offset) (d : WVal) (target : Word → Instr) : Instr :=
  match d with
  | .b4 v => target v
  | .b1 _ | .b2 _ => .narrowW m off d

/-- R101 (4) for a read. -/
def wordOnlyRead (m : Mode) (off : Offset) (w : Width) (target : Instr) : Instr :=
  match w with
  | .four => target
  | .one | .two => .narrowR m off w

/-- An aligned Classic write (R103). -/
def routeClassicWrite (off : Offset) (d : WVal) : Instr :=
  match classicRegion off with
  | .ctrl => wordOnlyWrite .classic off d .cCtrlW
  | .keys => wordOnlyWrite .classic off d .cKeysW
  | .back => .cBackW off d
  | .dead => .cDeadW off d
  | .beyond => .cBeyondW off d

/-- An aligned Classic read (R103). -/
def routeClassicRead (off : Offset) (w : Width) : Instr :=
  match classicRegion off with
  | .ctrl => wordOnlyRead .classic off w .cCtrlR
  | .keys => wordOnlyRead .classic off w .cKeysR
  | .back => .cBackR off w
  | .dead => .cDeadR off w
  | .beyond => .cBeyondR off w

/-- An aligned Enhanced write (R102). -/
def routeEnhancedWrite (off : Offset) (d : WVal) : Instr :=
  match enhancedRegion off with
  | .ctrl => wordOnlyWrite .enhanced off d .eCtrlW
  | .order => wordOnlyWrite .enhanced off d .eOrderW
  | .sync => wordOnlyWrite .enhanced off d .eSyncW
  | .fbClear => wordOnlyWrite .enhanced off d .eFbClearW
  | .palReset => wordOnlyWrite .enhanced off d .ePalResetW
  | .tmScx => wordOnlyWrite .enhanced off d .eTmScxW
  | .tmScy => wordOnlyWrite .enhanced off d .eTmScyW
  | .keyHeld => wordOnlyWrite .enhanced off d .eKeyHeldW
  | .keyPressed => wordOnlyWrite .enhanced off d .eKeyPressedW
  | .keyReleased => wordOnlyWrite .enhanced off d .eKeyReleasedW
  | .mouseX => wordOnlyWrite .enhanced off d .eMouseXW
  | .mouseY => wordOnlyWrite .enhanced off d .eMouseYW
  | .mouseHeld => wordOnlyWrite .enhanced off d .eMouseHeldW
  | .mousePressed => wordOnlyWrite .enhanced off d .eMousePressedW
  | .mouseReleased => wordOnlyWrite .enhanced off d .eMouseReleasedW
  | .unused => .eUnusedW off d
  | .pal => .ePalW off d
  | .fb => .eFbW off d
  | .tmTable => .eTmtW off d
  | .sprTable => .eSptW off d
  | .tmGfx => .eTmgW off d
  | .sprGfx => .eSpgW off d

/-- An aligned Enhanced read (R102). -/
def routeEnhancedRead (off : Offset) (w : Width) : Instr :=
  match enhancedRegion off with
  | .ctrl => wordOnlyRead .enhanced off w .eCtrlR
  | .order => wordOnlyRead .enhanced off w .eOrderR
  | .sync => wordOnlyRead .enhanced off w .eSyncR
  | .fbClear => wordOnlyRead .enhanced off w .eFbClearR
  | .palReset => wordOnlyRead .enhanced off w .ePalResetR
  | .tmScx => wordOnlyRead .enhanced off w .eTmScxR
  | .tmScy => wordOnlyRead .enhanced off w .eTmScyR
  | .keyHeld => wordOnlyRead .enhanced off w .eKeyHeldR
  | .keyPressed => wordOnlyRead .enhanced off w .eKeyPressedR
  | .keyReleased => wordOnlyRead .enhanced off w .eKeyReleasedR
  | .mouseX => wordOnlyRead .enhanced off w .eMouseXR
  | .mouseY => wordOnlyRead .enhanced off w .eMouseYR
  | .mouseHeld => wordOnlyRead .enhanced off w .eMouseHeldR
  | .mousePressed => wordOnlyRead .enhanced off w .eMousePressedR
  | .mouseReleased => wordOnlyRead .enhanced off w .eMouseReleasedR
  | .unused => .eUnusedR off w
  | .pal => .ePalR off w
  | .fb => .eFbR off w
  | .tmTable => .eTmtR off w
  | .sprTable => .eSptR off w
  | .tmGfx => .eTmgR off w
  | .sprGfx => .eSpgR off w

/-- The decode procedure, in its order: misalignment, the mode's map, the region, the width (30_encoding R101). -/
def route (m : Mode) (r : BusReq) : Instr :=
  match r with
  | .write off d =>
    if aligned off d.width then
      match m with
      | .classic => routeClassicWrite off d
      | .enhanced => routeEnhancedWrite off d
    else .misalignedW m off d
  | .read off w =>
    if aligned off w then
      match m with
      | .classic => routeClassicRead off w
      | .enhanced => routeEnhancedRead off w
    else .misalignedR m off w

/-! ## Packets and their words -/

/-- What one decode looks at: a transaction in a mode, or an event. -/
inductive Packet where
  | bus (m : Mode) (r : BusReq)
  | reset
  | sample
  | input (changes : List InputChange)
  deriving DecidableEq, Repr

/-- The instruction a packet stands for. -/
def Packet.instr : Packet → Instr
  | .bus m r => route m r
  | .reset => .reset
  | .sample => .sample
  | .input cs => .input cs

/-- Why bytes are no packet. -/
inductive DecodeError where
  /-- fewer bytes than the packet needs -/
  | truncated
  /-- a bit that the layout keeps zero is one -/
  | reservedBits
  /-- a kind above 3 -/
  | reservedKind
  /-- the width code 3 -/
  | reservedWidth
  /-- a value with bits above its width -/
  | valueTooWide
  /-- a change of the inputs that names no value -/
  | badInputChange
  deriving DecidableEq, Repr

/-- The mode bit `m` of the key (30_encoding R100). -/
def Mode.bit : Mode → BitVec 1
  | .classic => 0
  | .enhanced => 1

/-- The mode of a key's bit 17. -/
def Mode.ofBit (b : Bool) : Mode := if b then .enhanced else .classic

/-- The decode key `K = m ‖ op ‖ off`, 18 bits (30_encoding R100): op is 1 for a write. -/
def decodeKey (m : Mode) (isWrite : Bool) (off : Offset) : BitVec 18 :=
  m.bit ++ BitVec.ofBool isWrite ++ off

/-- The model's width code (log 2). -/
def Width.code : Width → BitVec 2
  | .four => 0
  | .one => 1
  | .two => 2

/-- Word 0 of a packet. -/
def headerWord (kind : BitVec 4) (width : BitVec 2) (key : BitVec 18) : Word := 0#8 ++ kind ++ width ++ key

/-- The three words of one change of the inputs; the first is never zero (log 2). -/
def InputChange.words : InputChange → List Word
  | .key .held id down => [1, id, wordOfBool down]
  | .key .pressed id down => [2, id, wordOfBool down]
  | .key .released id down => [3, id, wordOfBool down]
  | .mouseX v => [4, 0, v]
  | .mouseY v => [5, 0, v]
  | .mouseHeld v => [6, 0, v]
  | .mousePressed v => [7, 0, v]
  | .mouseReleased v => [8, 0, v]
  | .classicKeys v => [9, 0, v]

/-- The words of a packet. -/
def Packet.words : Packet → List Word
  | .bus m (.read off w) => [headerWord 0 w.code (decodeKey m false off)]
  | .bus m (.write off d) => [headerWord 0 d.width.code (decodeKey m true off), d.toWord]
  | .reset => [headerWord 1 0 0]
  | .sample => [headerWord 2 0 0]
  | .input cs => headerWord 3 0 0 :: (cs.flatMap InputChange.words ++ [0])

/-- A word's four bytes, low byte first. -/
def wordBytes (w : Word) : List Byte := (WVal.b4 w).bytes

/-- The bytes of a packet. -/
def Packet.bytes (p : Packet) : List Byte := p.words.flatMap wordBytes

/-- The first word of a row of bytes and the bytes after it. -/
def takeWord : List Byte → Option (Word × List Byte)
  | b0 :: b1 :: b2 :: b3 :: rest => some (b3 ++ b2 ++ b1 ++ b0, rest)
  | _ => none

/-! ## The decoder -/

/-- The width of a width code; 3 is reserved (log 2). -/
def Width.ofCode (c : BitVec 2) : Option Width :=
  match c.toNat with
  | 0 => some .four
  | 1 => some .one
  | 2 => some .two
  | _ => none

/-- The value of width `w` a value word holds; bits above the width must be zero. -/
def WVal.ofWord (w : Width) (v : Word) : Option WVal :=
  match w with
  | .one => if v.extractLsb' 8 24 = 0 then some (.b1 (v.extractLsb' 0 8)) else none
  | .two => if v.extractLsb' 16 16 = 0 then some (.b2 (v.extractLsb' 0 16)) else none
  | .four => some (.b4 v)

/-- A word that is 0 or 1, as a Boolean. -/
def boolOfWord (v : Word) : Option Bool := if v = 0 then some false else if v = 1 then some true else none

/-- A change without a key identifier: its second word is zero. -/
def withoutId (id : Word) (c : InputChange) : Option InputChange := if id = 0 then some c else none

/-- One change of the inputs from its three words. -/
def InputChange.ofWords (which id value : Word) : Option InputChange :=
  match which.toNat with
  | 1 => (boolOfWord value).map (.key .held id)
  | 2 => (boolOfWord value).map (.key .pressed id)
  | 3 => (boolOfWord value).map (.key .released id)
  | 4 => withoutId id (.mouseX value)
  | 5 => withoutId id (.mouseY value)
  | 6 => withoutId id (.mouseHeld value)
  | 7 => withoutId id (.mousePressed value)
  | 8 => withoutId id (.mouseReleased value)
  | 9 => withoutId id (.classicKeys value)
  | _ => none

/-- The changes of the inputs at the front of a row of bytes, up to the word 0 that ends them; at most `fuel` words are
looked at as the first of a change or as the end. -/
def decodeChanges : (fuel : Nat) → List Byte → Except DecodeError (List InputChange × List Byte)
  | 0, _ => .error .truncated
  | fuel + 1, bs =>
    match takeWord bs with
    | none => .error .truncated
    | some (which, bs1) =>
      if which = 0 then .ok ([], bs1)
      else
        match takeWord bs1 with
        | none => .error .truncated
        | some (id, bs2) =>
          match takeWord bs2 with
          | none => .error .truncated
          | some (value, bs3) =>
            match InputChange.ofWords which id value with
            | none => .error .badInputChange
            | some c =>
              match decodeChanges fuel bs3 with
              | .error e => .error e
              | .ok (cs, rest) => .ok (c :: cs, rest)

/-- The offset field of a header, K[15:0] (30_encoding R100). -/
def headerOff (h : Word) : Offset := h.extractLsb' 0 16

/-- The mode field of a header, K[17] (30_encoding R100). -/
def headerMode (h : Word) : Mode := Mode.ofBit (h.getLsbD 17)

/-- A bus transaction whose header is `h`. -/
def decodeBus (h : Word) (rest : List Byte) : Except DecodeError (Packet × List Byte) :=
  match Width.ofCode (h.extractLsb' 18 2) with
  | none => .error .reservedWidth
  | some w =>
    if h.getLsbD 16 then
      match takeWord rest with
      | none => .error .truncated
      | some (v, rest') =>
        match WVal.ofWord w v with
        | none => .error .valueTooWide
        | some d => .ok (.bus (headerMode h) (.write (headerOff h) d), rest')
    else .ok (.bus (headerMode h) (.read (headerOff h) w), rest)

/-- An INPUT event whose header has been read. -/
def decodeInput (rest : List Byte) : Except DecodeError (Packet × List Byte) :=
  match decodeChanges rest.length rest with
  | .error e => .error e
  | .ok (cs, rest') => .ok (.input cs, rest')

/-- The packet at the front of a row of bytes, and the bytes after it. -/
def decodePacket (bs : List Byte) : Except DecodeError (Packet × List Byte) :=
  match takeWord bs with
  | none => .error .truncated
  | some (h, rest) =>
    if h.extractLsb' 24 8 ≠ 0 then .error .reservedBits
    else if h.extractLsb' 20 4 = 0 then decodeBus h rest
    else if h.extractLsb' 0 20 ≠ 0 then .error .reservedBits
    else
      match (h.extractLsb' 20 4).toNat with
      | 1 => .ok (.reset, rest)
      | 2 => .ok (.sample, rest)
      | 3 => decodeInput rest
      | _ => .error .reservedKind

/-- The instruction at the front of a row of bytes, and the bytes after it. Total: bytes that are no packet are
rejected by name. -/
def decode (bs : List Byte) : Except DecodeError (Instr × List Byte) :=
  match decodePacket bs with
  | .ok (p, rest) => .ok (p.instr, rest)
  | .error e => .error e

/-! ## The encoder -/

/-- The packet of an instruction, from the offsets of 30_encoding R104. -/
def Instr.packet : Instr → Packet
  | .cCtrlW v => .bus .classic (.write 0x0000 (.b4 v))
  | .cCtrlR => .bus .classic (.read 0x0000 .four)
  | .cKeysW v => .bus .classic (.write 0x0004 (.b4 v))
  | .cKeysR => .bus .classic (.read 0x0004 .four)
  | .cBackW off d | .cDeadW off d | .cBeyondW off d => .bus .classic (.write off d)
  | .cBackR off w | .cDeadR off w | .cBeyondR off w => .bus .classic (.read off w)
  | .eCtrlW v => .bus .enhanced (.write 0x0000 (.b4 v))
  | .eCtrlR => .bus .enhanced (.read 0x0000 .four)
  | .eOrderW v => .bus .enhanced (.write 0x0004 (.b4 v))
  | .eOrderR => .bus .enhanced (.read 0x0004 .four)
  | .eSyncW v => .bus .enhanced (.write 0x0008 (.b4 v))
  | .eSyncR => .bus .enhanced (.read 0x0008 .four)
  | .eFbClearW v => .bus .enhanced (.write 0x000C (.b4 v))
  | .eFbClearR => .bus .enhanced (.read 0x000C .four)
  | .ePalResetW v => .bus .enhanced (.write 0x0010 (.b4 v))
  | .ePalResetR => .bus .enhanced (.read 0x0010 .four)
  | .eTmScxW v => .bus .enhanced (.write 0x0020 (.b4 v))
  | .eTmScxR => .bus .enhanced (.read 0x0020 .four)
  | .eTmScyW v => .bus .enhanced (.write 0x0024 (.b4 v))
  | .eTmScyR => .bus .enhanced (.read 0x0024 .four)
  | .eKeyHeldW v => .bus .enhanced (.write 0x0040 (.b4 v))
  | .eKeyHeldR => .bus .enhanced (.read 0x0040 .four)
  | .eKeyPressedW v => .bus .enhanced (.write 0x0044 (.b4 v))
  | .eKeyPressedR => .bus .enhanced (.read 0x0044 .four)
  | .eKeyReleasedW v => .bus .enhanced (.write 0x0048 (.b4 v))
  | .eKeyReleasedR => .bus .enhanced (.read 0x0048 .four)
  | .eMouseXW v => .bus .enhanced (.write 0x004C (.b4 v))
  | .eMouseXR => .bus .enhanced (.read 0x004C .four)
  | .eMouseYW v => .bus .enhanced (.write 0x0050 (.b4 v))
  | .eMouseYR => .bus .enhanced (.read 0x0050 .four)
  | .eMouseHeldW v => .bus .enhanced (.write 0x0054 (.b4 v))
  | .eMouseHeldR => .bus .enhanced (.read 0x0054 .four)
  | .eMousePressedW v => .bus .enhanced (.write 0x0058 (.b4 v))
  | .eMousePressedR => .bus .enhanced (.read 0x0058 .four)
  | .eMouseReleasedW v => .bus .enhanced (.write 0x005C (.b4 v))
  | .eMouseReleasedR => .bus .enhanced (.read 0x005C .four)
  | .ePalW off d | .eFbW off d | .eTmtW off d | .eSptW off d => .bus .enhanced (.write off d)
  | .eTmgW off d | .eSpgW off d | .eUnusedW off d => .bus .enhanced (.write off d)
  | .ePalR off w | .eFbR off w | .eTmtR off w | .eSptR off w => .bus .enhanced (.read off w)
  | .eTmgR off w | .eSpgR off w | .eUnusedR off w => .bus .enhanced (.read off w)
  | .narrowW m off d | .misalignedW m off d => .bus m (.write off d)
  | .narrowR m off w | .misalignedR m off w => .bus m (.read off w)
  | .reset => .reset
  | .sample => .sample
  | .input cs => .input cs

/-- The words of an instruction. -/
def encodeWords (i : Instr) : List Word := i.packet.words

/-- The bytes of an instruction, each word in little-endian order. -/
def encode (i : Instr) : List Byte := i.packet.bytes

/-! ## Words numbered as spec/opcode_table.json numbers them -/

/-- The bytes of an instruction whose first `nbits` bits are `w` and whose other bits are zero: two words, the longest a
row with given bits needs. -/
def tableBytes (nbits w : Nat) : List Byte :=
  wordBytes (BitVec.ofNat 32 (w % 2 ^ nbits)) ++ wordBytes (BitVec.ofNat 32 (w % 2 ^ nbits / 2 ^ 32))

/-- The instruction the decoder reads from the bits `w`, bit 0 the least significant bit of the first word. -/
def decodeTableWord (nbits w : Nat) : Option Instr :=
  match decode (tableBytes nbits w) with
  | .ok (i, _) => some i
  | .error _ => none

end Sys2Proof
end

