-- ==== Sys2Proof/Machine/Image.lean ====
section
/-!
DEFINITION. Images: finite rows of pixels in row-major order, x fastest (spec/00_scope.md R14, spec/30_encoding.md R119).
-/

namespace Sys2Proof

/-- The row of `n` values `f 0, f 1, …`. -/
def tabulate {α : Type} (n : Nat) (f : Nat → α) : Vector α n :=
  ⟨⟨(List.range' 0 n).map f⟩, by simp⟩

/-- A cached layer of the 128×128 picture: `none` is a transparent pixel, `T` (00_scope R14). -/
abbrev Layer := Vector (Option RGB) 16384

/-- A finished 128×128 picture of opaque colours (10_state R44). -/
abbrev Frame := Vector RGB 16384

/-- The 64×64 picture of Classic mode (42_framebuffer R206). -/
abbrev ClassicImage := Vector RGB 4096

/-- The 128×128 layer whose pixel (x, y) is `f x y`. -/
def Layer.build (f : Nat → Nat → Option RGB) : Layer := tabulate 16384 (fun i => f (i % 128) (i / 128))

/-- The 128×128 picture whose pixel (x, y) is `f x y`. -/
def Frame.build (f : Nat → Nat → RGB) : Frame := tabulate 16384 (fun i => f (i % 128) (i / 128))

/-- The 64×64 picture whose pixel (x, y) is `f x y`. -/
def ClassicImage.build (f : Nat → Nat → RGB) : ClassicImage := tabulate 4096 (fun i => f (i % 64) (i / 64))

/-- Pixel (x, y) of a layer, for 0 ≤ x, y ≤ 127. -/
def Layer.pixel (l : Layer) (x y : Nat) : Option RGB := l[128 * y + x]?.getD none

/-- Pixel (x, y) of a picture, for 0 ≤ x, y ≤ 127; `none` past its last row. -/
def Frame.pixel (p : Frame) (x y : Nat) : Option RGB := p[128 * y + x]?

/-- Pixel (x, y) of a Classic picture, for 0 ≤ x, y ≤ 63; `none` past its last row. -/
def ClassicImage.pixel (p : ClassicImage) (x y : Nat) : Option RGB := p[64 * y + x]?

end Sys2Proof
end

