-- ==== Sys2Proof/Machine/DefaultPalette.lean ====
section
/-!
DEFINITION. The palette's storage, its lookup and its default contents (spec/41_palette.md R170 to R172).
-/

namespace Sys2Proof

/-- `pal[1..255]`: entry e is element e - 1, because index 0 has no storage (10_state R29, R30). -/
abbrev Palette := Vector RGB 255

/-- `pal[e]` for 1 ≤ e ≤ 255. -/
def Palette.get (p : Palette) (e : Byte) : RGB := p[e.toNat - 1]'(by have := e.isLt; omega)

/-- `pal[e] <- c` for 1 ≤ e ≤ 255. -/
def Palette.put (p : Palette) (e : Byte) (c : RGB) : Palette :=
  p.set (e.toNat - 1) c (by have := e.isLt; omega)

/-- `lookup(c)`: transparent for index 0, else the opaque colour `pal[c]` (41_palette R171). -/
def Palette.lookup (p : Palette) (c : Byte) : Option RGB := if c = 0 then none else some (p.get c)

/-- The intensity table `I = [0, 63, 127, 255]` (41_palette R172). -/
def intensity (i : BitVec 2) : Byte :=
  match i.toNat with
  | 0 => 0
  | 1 => 63
  | 2 => 127
  | _ => 255

/-- `DEFAULT_PAL[i]` for 1 ≤ i ≤ 255 (41_palette R172). -/
def defaultColor (i : Nat) : RGB :=
  let b := BitVec.ofNat 8 i
  if i ≤ 63 then
    ⟨intensity (b.extractLsb' 4 2), intensity (b.extractLsb' 2 2), intensity (b.extractLsb' 0 2)⟩
  else if i ≤ 79 then Config.classicColors (BitVec.ofNat 4 (i - 64))
  else if i ≤ 127 then RGB.black
  else ⟨BitVec.ofNat 8 ((i - 128) * 2), BitVec.ofNat 8 ((i - 128) * 2), BitVec.ofNat 8 ((i - 128) * 2)⟩

/-- `DEFAULT_PAL[1..255]` (41_palette R172). -/
def defaultPalette : Palette := tabulate 255 (fun k => defaultColor (k + 1))

/-- `DEFAULT_BG` (41_palette R172). -/
def defaultBg : RGB := RGB.black

end Sys2Proof
end

