-- ==== Sys2Proof/Machine/Memory.lean ====
section
/-!
DEFINITION. One RAM region as sparse data: a list of (index, byte) pairs with strictly rising indices and no pair whose
byte is 0, because an unlisted byte reads as 0, the reset contents of all RAM (spec/10_state.md R32 to R37,
spec/70_reset_and_hazards.md R370). Byte order is decided here once: little-endian (spec/20_memory.md R62).
-/

namespace Sys2Proof

/-- The contents of a RAM region. -/
abbrev Memory := List Host.Cell

/-- What an unlisted index reads as: "all RAM regions are zero-initialized" (70_reset_and_hazards R370). -/
def Memory.unlisted : Byte := 0

/-- The byte at an index. -/
def Memory.read : Memory → Nat → Byte
  | [], _ => Memory.unlisted
  | (k, v) :: m, a => if k = a then v else Memory.read m a

/-- Store one byte, keeping the canonical form: the value an unlisted index reads as is not listed. -/
def Memory.write : Memory → Nat → Byte → Memory
  | [], a, b => if b = Memory.unlisted then [] else [(a, b)]
  | (k, v) :: m, a, b =>
    if a < k then (if b = Memory.unlisted then (k, v) :: m else (a, b) :: (k, v) :: m)
    else if a = k then (if b = Memory.unlisted then m else (a, b) :: m)
    else (k, v) :: Memory.write m a b

/-- Store bytes at consecutive indices, the first at index `i`. -/
def Memory.writeBytes : Memory → Nat → List Byte → Memory
  | m, _, [] => m
  | m, i, b :: bs => Memory.writeBytes (m.write i b) (i + 1) bs

/-- `R[i + j] <- v[8j+7:8j]` for j = 0 .. w-1 (20_memory R62). -/
def Memory.store (m : Memory) (i : Nat) (d : WVal) : Memory := m.writeBytes i d.bytes

/-- `R[i + w - 1] ‖ … ‖ R[i]` (20_memory R62). -/
def Memory.load (m : Memory) (i : Nat) (w : Width) : WVal := WVal.ofBytes w (fun j => m.read (i + j))

/-- The canonical form: indices strictly rising, no entry equal to what an unlisted index reads as. -/
abbrev Memory.wf (m : Memory) : Prop :=
  m.Pairwise (fun c d => c.1 < d.1) ∧ ∀ c ∈ m, c.2 ≠ Memory.unlisted

/-- Every listed index lies inside a region of `n` bytes. -/
abbrev Memory.within (n : Nat) (m : Memory) : Prop := ∀ c ∈ m, c.1 < n

end Sys2Proof
end

