-- ==== Sys2Proof/Machine/State.lean ====
section
/-!
DEFINITION. The state of the controller (spec/10_state.md R20 to R47), what the agents outside hold (the inputs, the
schedule, the held masters), what the controller drives out, and the state after reset (R52).
-/

namespace Sys2Proof.Machine

/-- A set of key identifiers: strictly rising, so that equal sets are equal data. A function from identifiers to
Booleans (46_input_mirror R320) as plain data. -/
abbrev KeySet := List Nat

/-- The input collaborator's values: "inputs of the step relation and not state of the controller"
(46_input_mirror R320). -/
structure Inputs where
  /-- the keys for which `held` is true -/
  held : KeySet
  /-- the keys for which `pressed` is true -/
  pressed : KeySet
  /-- the keys for which `released` is true -/
  released : KeySet
  /-- `mouseX`, a signed 32-bit number -/
  mouseX : Word
  /-- `mouseY`, a signed 32-bit number -/
  mouseY : Word
  mouseHeld : Word
  mousePressed : Word
  mouseReleased : Word
  /-- the Classic key-state word -/
  classicKeys : Word
  deriving DecidableEq, Repr

/-- No key, the cursor not over the display (-1), no button. DESIGN CHOICE (log 11). -/
def Inputs.initial : Inputs :=
  { held := [], pressed := [], released := [], mouseX := 0xFFFFFFFF, mouseY := 0xFFFFFFFF,
    mouseHeld := 0, mousePressed := 0, mouseReleased := 0, classicKeys := 0 }

/-- One entry of the schedule of what the agents present (20_memory R60, R77; 60_exceptions R353). -/
inductive Pending where
  /-- bus master `master` issues a transaction -/
  | bus (master : Master) (r : BusReq)
  /-- the held Classic sync read of `master` completes (40_mode_control R151, "complete") -/
  | complete (master : Master)
  /-- the environment resets the controller -/
  | reset
  /-- the reader samples the image -/
  | sample
  /-- the input collaborator changes values, all at once -/
  | input (changes : List InputChange)
  deriving DecidableEq, Repr

/-- What a SAMPLE returns: the mode, the size and the image of one instant (45_compositor R301). -/
inductive Sample where
  /-- (Classic, 64, 64, the image of 42_framebuffer R206) -/
  | classic (image : ClassicImage)
  /-- (Enhanced, 128, 128, `outImage`), which may be none -/
  | enhanced (image : Option Frame)
  deriving DecidableEq, Repr

/-- The complete state. -/
structure State where
  /-- 10_state R23 -/
  mode : Mode
  /-- 10_state R24 -/
  fbEnabled : Bool
  /-- 10_state R24 -/
  tmEnabled : Bool
  /-- 10_state R25: an integer in [10, 100] -/
  msPerFrame : Nat
  /-- 10_state R26 -/
  fbInFront : Bool
  /-- 10_state R27: signed -/
  scx : Word
  /-- 10_state R27: signed -/
  scy : Word
  /-- 10_state R29 -/
  pal : Palette
  /-- 10_state R31 -/
  bg : RGB
  /-- 10_state R32 -/
  back : Memory
  /-- 10_state R32 -/
  front : Memory
  /-- 10_state R33 -/
  fb : Memory
  /-- 10_state R34 -/
  tmTable : Memory
  /-- 10_state R35 -/
  tmGfx : Memory
  /-- 10_state R36 -/
  sprTable : Memory
  /-- 10_state R37 -/
  sprGfx : Memory
  /-- 10_state R39 -/
  palDirty : Bool
  /-- 10_state R39 -/
  fbDirty : Bool
  /-- 10_state R39 -/
  tmDirty : Bool
  /-- 10_state R39 -/
  sprDirty : Bool
  /-- 10_state R41 -/
  fbLayer : Layer
  /-- 10_state R42 -/
  tmLo : Layer
  /-- 10_state R42 -/
  tmHi : Layer
  /-- 10_state R43 -/
  sprLayer : Layer
  /-- 10_state R44 -/
  outImage : Option Frame
  /-- 10_state R45: keySel[0], the latch of KEY_HELD -/
  keySel0 : Word
  /-- 10_state R45: keySel[1], the latch of KEY_PRESSED -/
  keySel1 : Word
  /-- 10_state R45: keySel[2], the latch of KEY_RELEASED -/
  keySel2 : Word
  /-- 10_state R46 -/
  anomaly : Bool
  /-- 10_state R47 -/
  waiter : Bool
  /-- the input collaborator's values (46_input_mirror R320); log 11 -/
  inputs : Inputs
  /-- what the agents present, oldest first; log 1 -/
  pending : List Pending
  /-- the masters whose Classic sync read is outstanding (40_mode_control R151); log 8 -/
  heldMasters : List Master
  /-- the master this step serves; log 8 -/
  busMaster : Master
  /-- the value this step returned to `busMaster` (20_memory R60 (1)); log 10 -/
  readData : Option WVal
  /-- what this step's SAMPLE returned (20_memory R60 (4)); log 10 -/
  sampled : Option Sample
  /-- the frame-ready pulse (20_memory R60 (5), 40_mode_control R152); log 10 -/
  frameReady : Bool
  /-- the MODEL's own: how many free values have been drawn; log 13 -/
  freeCount : Nat
  deriving DecidableEq, Repr

/-- No behaviour of this hardware is a fault: "No operation in this subsystem is permitted to raise a fatal error"
(60_exceptions R340). The type has no constructor, so no step can fault. -/
inductive Fault where
  deriving DecidableEq, Repr

/-- Why the model gives no meaning. -/
inductive Refusal where
  /-- An instruction whose arm of `exec` gives it no meaning yet; raised by `exec`. Safe. -/
  | notModelled (mnemonic : String)
  /-- The bytes of a fetched packet do not decode; raised by `step`. No entry of the schedule reaches it. Safe. -/
  | undecodable (e : DecodeError)
  deriving DecidableEq, Repr

/-- A layer without an opaque pixel. -/
def blankLayer : Layer := tabulate 16384 (fun _ => none)

/-- The machine right after reset: 10_state R52. `msPerFrame` (log 3) and the layers (log 4) are DESIGN CHOICE; so are
the initial inputs (log 11) and the model's own fields (logs 1, 8, 10, 13). -/
def State.reset : State where
  mode := .classic
  fbEnabled := true
  tmEnabled := false
  msPerFrame := 10
  fbInFront := false
  scx := 0
  scy := 0
  pal := defaultPalette
  bg := defaultBg
  back := []
  front := []
  fb := []
  tmTable := []
  tmGfx := []
  sprTable := []
  sprGfx := []
  palDirty := true
  fbDirty := true
  tmDirty := true
  sprDirty := true
  fbLayer := blankLayer
  tmLo := blankLayer
  tmHi := blankLayer
  sprLayer := blankLayer
  outImage := none
  keySel0 := 0
  keySel1 := 0
  keySel2 := 0
  anomaly := false
  waiter := false
  inputs := Inputs.initial
  pending := []
  heldMasters := []
  busMaster := Master.first
  readData := none
  sampled := none
  frameReady := false
  freeCount := 0

end Sys2Proof.Machine
end

