-- ==== Sys2Proof/Machine/Operands.lean ====
section
/-!
DEFINITION. The operand forms: RAM indices, palette entry and lane, the fields of tilemap and sprite entries
(spec/30_encoding.md R115 to R120). "Nothing scaled or shifted beyond what is written here" (R120).
-/

namespace Sys2Proof.Machine

/-! ## RAM indices: the offset less the region's base (30_encoding R120 (4)) -/

/-- 42_framebuffer R200: `i = off − 0x0008`. -/
def backIndex (off : Offset) : Nat := off.toNat - 0x0008

/-- 42_framebuffer R210: `i = off − 0x1000`. -/
def fbIndex (off : Offset) : Nat := off.toNat - 0x1000

/-- 43_tilemap R230: `i = off − 0x5000`. -/
def tmTableIndex (off : Offset) : Nat := off.toNat - 0x5000

/-- 44_sprite R260: `i = off − 0x5800`, inside the 1024 bytes of `sprTable` (10_state R36). The region has 2048 offsets
(20_memory R66); its second half reaches the same bytes, as 95_test_vectors V-DEC-2 has `WR4 0x5FFC` store
`sprTable[1020..1023]`. DEDUCED (log 5): unsafe. -/
def sprTableIndex (off : Offset) : Nat := (off.toNat - 0x5800) % 0x400

/-- 43_tilemap R232: `i = off − 0x6000`. -/
def tmGfxIndex (off : Offset) : Nat := off.toNat - 0x6000

/-- 44_sprite R262: `i = off − 0xA000`. -/
def sprGfxIndex (off : Offset) : Nat := off.toNat - 0xA000

/-! ## Palette entries (30_encoding R115, R120 (3)) -/

/-- `e = (off − 0x0C00) div 4`. -/
def palEntry (off : Offset) : Byte := BitVec.ofNat 8 ((off.toNat - 0x0C00) / 4)

/-- `k = (off − 0x0C00) mod 4`. -/
def palLane (off : Offset) : Nat := (off.toNat - 0x0C00) % 4

/-- Byte lane `k` of a stored colour: [B, G, R, 0] (30_encoding R115). -/
def laneOf (c : RGB) (k : Nat) : Byte :=
  match k with
  | 0 => c.b
  | 1 => c.g
  | 2 => c.r
  | _ => 0

/-- A palette write of one entry from lane `k` on (41_palette R174, R175, R176). -/
def withLanes (c : RGB) (k : Nat) (d : WVal) : RGB :=
  match d with
  | .b1 v =>
    match k with
    | 0 => { c with b := v }
    | 1 => { c with g := v }
    | 2 => { c with r := v }
    | _ => c
  | .b2 v => if k = 0 then { c with g := byteOf v 1, b := byteOf v 0 } else { c with r := byteOf v 0 }
  | .b4 v => { r := byteOf v 2, g := byteOf v 1, b := byteOf v 0 }

/-- The one ignored palette write: a byte at lane 3 (41_palette R174). -/
def palIgnored (k : Nat) (d : WVal) : Bool := decide (k = 3) && decide (d.width = .one)

/-! ## CTRL and ORDER fields (30_encoding R110, R112) -/

/-- CTRL[1:0]. -/
def ctrlMode (v : Word) : BitVec 2 := v.extractLsb' 0 2

/-- CTRL[23:16]. -/
def ctrlMs (v : Word) : Byte := v.extractLsb' 16 8

/-- ORDER[0]. -/
def orderBit (v : Word) : Bool := v.getLsbD 0

/-! ## Tilemap entries (30_encoding R116) -/

/-- The fields of a tilemap entry. -/
structure TileEntry where
  tile : Byte
  hFlip : Bool
  vFlip : Bool
  priority : Bool
  deriving DecidableEq, Repr

/-- Entry `n`: byte 2n is `tileIndex`, byte 2n + 1 the flags (30_encoding R116, 92_eei_decisions D17; log 14). -/
def tileEntry (table : Memory) (n : Nat) : TileEntry :=
  let f := table.read (2 * n + 1)
  { tile := table.read (2 * n), hFlip := f.getLsbD 0, vFlip := f.getLsbD 1, priority := f.getLsbD 2 }

/-- Pixel (tx, ty) of graphic `t` of a bank: byte `64t + 8ty + tx` (30_encoding R118). -/
def graphicPixel (gfx : Memory) (t tx ty : Nat) : Byte := gfx.read (64 * t + 8 * ty + tx)

/-- The effective scroll, `signed32(v) mod 256` (30_encoding R120 (6)). -/
def effectiveScroll (v : Word) : Nat := (v.toInt % 256).toNat

/-! ## Sprite entries (30_encoding R117) -/

/-- The fields of a sprite entry. -/
structure SpriteEntry where
  /-- signed -/
  x : Int
  /-- signed -/
  y : Int
  tile : Byte
  enable : Bool
  hFlip : Bool
  vFlip : Bool
  /-- the `size` bit: 16×16 -/
  big : Bool
  paletteRow : BitVec 4
  deriving DecidableEq, Repr

/-- Entry `n`: bytes x, y, `tileIndex`, flags (30_encoding R117, 92_eei_decisions D18; log 14). -/
def spriteEntry (table : Memory) (n : Nat) : SpriteEntry :=
  let f := table.read (4 * n + 3)
  { x := (table.read (4 * n)).toInt, y := (table.read (4 * n + 1)).toInt, tile := table.read (4 * n + 2),
    enable := f.getLsbD 0, hFlip := f.getLsbD 1, vFlip := f.getLsbD 2, big := f.getLsbD 3,
    paletteRow := f.extractLsb' 4 4 }

/-- The side of a sprite in pixels (44_sprite R264). -/
def SpriteEntry.side (e : SpriteEntry) : Nat := if e.big then 16 else 8

end Sys2Proof.Machine
end

