-- ==== Sys2Proof/Machine/Flags.lean ====
section
/-!
DEFINITION. The controller's flags (spec/10_state.md R38): the sub-flags a CTRL write derives (spec/40_mode_control.md
R141, R144) and the dirty flags a write sets (spec/45_compositor.md R290). There are no condition codes.
-/

namespace Sys2Proof.Machine

/-- `fbEnabled <- (v[1:0] = 0) or (v[0] = 1)` (40_mode_control R144). -/
def fbEnabledOf (v : Word) : Bool := decide (ctrlMode v = 0) || v.getLsbD 0

/-- `tmEnabled <- (v[1] = 1)` (40_mode_control R144). -/
def tmEnabledOf (v : Word) : Bool := v.getLsbD 1

/-- `msPerFrame <- clamp(v[23:16], 10, 100)` (40_mode_control R144). -/
def msPerFrameOf (v : Word) : Nat := clamp (ctrlMs v).toNat 10 100

/-- The sub-flags every CTRL write that leaves the mode Enhanced re-derives (40_mode_control R141, R144). -/
def State.setSubFlags (s : State) (v : Word) : State :=
  { s with fbEnabled := fbEnabledOf v, tmEnabled := tmEnabledOf v, msPerFrame := msPerFrameOf v }

/-- `palDirty <- true` (45_compositor R290). -/
def State.markPal (s : State) : State := { s with palDirty := true }

/-- `fbDirty <- true` (45_compositor R290). -/
def State.markFb (s : State) : State := { s with fbDirty := true }

/-- `tmDirty <- true` (45_compositor R290). -/
def State.markTm (s : State) : State := { s with tmDirty := true }

/-- `sprDirty <- true` (45_compositor R290). -/
def State.markSpr (s : State) : State := { s with sprDirty := true }

/-- Propagation, the first step of every composite (45_compositor R291): a dirty palette marks every plane, enabled
or not, and is then clean. -/
def State.propagate (s : State) : State :=
  if s.palDirty then { s with fbDirty := true, tmDirty := true, sprDirty := true, palDirty := false } else s

end Sys2Proof.Machine
end

