-- ==== Sys2Proof/Machine/Ops.lean ====
section
/-!
DEFINITION. The shared operations over State that are not a plane's own: replies to the bus, the held Classic sync read
and its release (spec/40_mode_control.md R151), the bus port's window (spec/20_memory.md R61), the free values.
Taking an exception and returning from one do not exist on this hardware: "There is no trap entry"
(spec/60_exceptions.md R345, R346), so there is no such operation.
-/

namespace Sys2Proof.Machine

/-- No output: what each step starts from (log 10). -/
def State.quiet (s : State) : State := { s with readData := none, sampled := none, frameReady := false }

/-- Return a value to the bus master (20_memory R60 (1)). -/
def State.reply (s : State) (d : WVal) : State := { s with readData := some d }

/-- The read that returns 0 at its width and changes nothing (20_memory R64, R65, R72, R73). -/
def State.replyZero (s : State) (w : Width) : State := s.reply (WVal.zero w)

/-- Issue of the Classic sync read: `waiter <- true`, the issuing master is held (40_mode_control R151). -/
def State.hold (s : State) : State :=
  { s with waiter := true, heldMasters := s.heldMasters ++ [s.busMaster] }

/-- What every sync write does beside its picture: `waiter <- false`, pulse frame-ready (40_mode_control R142, R152;
45_compositor R295). -/
def State.signalFrame (s : State) : State := { s with waiter := false, frameReady := true }

/-- Completion of a held Classic sync read: it returns 0x00000000 to its master (40_mode_control R151). -/
def State.completeRead (s : State) (master : Master) : State :=
  { s with heldMasters := s.heldMasters.erase master, busMaster := master, readData := some (WVal.zero .four) }

/-- A transaction with its bus address (20_memory R60 (1)). The spec gives the address no width; a natural number fixes
none. DESIGN CHOICE (log 23): safe. -/
inductive BusAccess where
  | read (addr : Nat) (w : Width)
  | write (addr : Nat) (d : WVal)
  deriving DecidableEq, Repr

/-- The window test and the offset: `BASE ≤ address < BASE + 0x10000`, `off = address − BASE` (20_memory R61, R76). -/
def windowOffset (addr : Nat) : Option Offset :=
  if Config.base ≤ addr ∧ addr < Config.base + 0x10000 then some (BitVec.ofNat 16 (addr - Config.base))
  else none

/-- The request the controller sees of an access; none outside the window (20_memory R61). -/
def BusAccess.seen : BusAccess → Option BusReq
  | .read addr w => (windowOffset addr).map (fun off => .read off w)
  | .write addr d => (windowOffset addr).map (fun off => .write off d)

/-- A master presents an access at the bus port: inside the window it joins the schedule; outside it is "not seen by
the controller" (20_memory R61). -/
def State.present (s : State) (master : Master) (a : BusAccess) : State :=
  match a.seen with
  | some r => { s with pending := s.pending ++ [.bus master r] }
  | none => s

/-- A free number in [10, 100] (70_reset_and_hazards R370), draw number `k`. -/
def freeMs (k : Nat) : Nat := 10 + (Config.freeMsPerFrame k).val

/-- A free layer (70_reset_and_hazards R370), draw number `k`. -/
def freeLayer (k : Nat) : Layer := tabulate 16384 (Config.freeLayerPixel k)

end Sys2Proof.Machine
end

