-- ==== Sys2Proof/Machine/Framebuffer.lean ====
section
/-!
DEFINITION. The Framebuffer Plane: the Classic double buffer and the Enhanced framebuffer (spec/42_framebuffer.md).
-/

namespace Sys2Proof.Machine

/-- The Classic image of a front buffer: the low four bits of each byte select a colour (42_framebuffer R206). -/
def classicImage (front : Memory) : ClassicImage :=
  ClassicImage.build (fun x y => Config.classicColors ((front.read (64 * y + x)).extractLsb' 0 4))

/-- The framebuffer layer build (42_framebuffer R212). -/
def fbLayerOf (pal : Palette) (fb : Memory) : Layer := Layer.build (fun x y => pal.lookup (fb.read (128 * y + x)))

/-- C.BACK.W (42_framebuffer R200). -/
def execCBackW (off : Offset) (d : WVal) (s : State) : Host.Outcome State Fault Refusal :=
  .next { s with back := s.back.store (backIndex off) d }

/-- C.BACK.R (42_framebuffer R201). -/
def execCBackR (off : Offset) (w : Width) (s : State) : Host.Outcome State Fault Refusal :=
  .next (s.reply (s.back.load (backIndex off) w))

/-- C.DEAD.W (42_framebuffer R202): ignored. -/
def execCDeadW (_off : Offset) (_d : WVal) (s : State) : Host.Outcome State Fault Refusal := .next s

/-- C.DEAD.R (42_framebuffer R204). -/
def execCDeadR (_off : Offset) (w : Width) (s : State) : Host.Outcome State Fault Refusal := .next (s.replyZero w)

/-- C.BEYOND.W (42_framebuffer R203): `anomaly <- true`, nothing else. -/
def execCBeyondW (_off : Offset) (_d : WVal) (s : State) : Host.Outcome State Fault Refusal :=
  .next { s with anomaly := true }

/-- C.BEYOND.R (42_framebuffer R204). -/
def execCBeyondR (_off : Offset) (w : Width) (s : State) : Host.Outcome State Fault Refusal := .next (s.replyZero w)

/-- E.FB.W (42_framebuffer R210). -/
def execEFbW (off : Offset) (d : WVal) (s : State) : Host.Outcome State Fault Refusal :=
  .next { s with fb := s.fb.store (fbIndex off) d }.markFb

/-- E.FB.R (42_framebuffer R211). -/
def execEFbR (off : Offset) (w : Width) (s : State) : Host.Outcome State Fault Refusal :=
  .next (s.reply (s.fb.load (fbIndex off) w))

/-- E.FB_CLEAR.W (42_framebuffer R213): any value. -/
def execEFbClearW (_v : Word) (s : State) : Host.Outcome State Fault Refusal := .next { s with fb := [] }.markFb

/-- E.FB_CLEAR.R (42_framebuffer R214). -/
def execEFbClearR (s : State) : Host.Outcome State Fault Refusal := .next (s.replyZero .four)

end Sys2Proof.Machine
end

