-- ==== Sys2Proof/Machine/SpritePlane.lean ====
section
/-!
DEFINITION. The Sprite Plane: its RAM and its layer build (spec/44_sprite.md).
-/

namespace Sys2Proof.Machine

/-- The layer pixel that graphic pixel (px, py) of a sprite gives, flips applied to the whole picture
(44_sprite R264 to R266). -/
def SpriteEntry.color (e : SpriteEntry) (pal : Palette) (gfx : Memory) (px py : Nat) : Option RGB :=
  let sx := if e.hFlip then e.side - 1 - px else px
  let sy := if e.vFlip then e.side - 1 - py else py
  let q := 2 * (sy / 8) + sx / 8
  let c := graphicPixel gfx ((e.tile.toNat + q) % 256) (sx % 8) (sy % 8)
  if c = 0 then none else pal.lookup (BitVec.ofNat 8 (c.toNat + 16 * e.paletteRow.toNat))

/-- What one enabled sprite shows at screen pixel (x, y): nothing outside its square (44_sprite R264, R267). -/
def SpriteEntry.at (e : SpriteEntry) (pal : Palette) (gfx : Memory) (x y : Nat) : Option RGB :=
  let px := (x : Int) - e.x
  let py := (y : Int) - e.y
  if 0 ≤ px ∧ px < e.side ∧ 0 ≤ py ∧ py < e.side then e.color pal gfx px.toNat py.toNat else none

/-- The enabled sprites in index order: "Disabled sprites (enable flag clear) are skipped entirely"
(44_sprite R264, R269). -/
def enabledSprites (table : Memory) : List SpriteEntry :=
  ((List.range' 0 256).map (spriteEntry table)).filter (·.enable)

/-- The sprite layer's pixel (x, y): drawn from index 255 down to 0, a later opaque pixel over an earlier one, so that
sprite 0 is on top (44_sprite R264, R268). -/
def spritePixel (sprites : List SpriteEntry) (pal : Palette) (gfx : Memory) (x y : Nat) : Option RGB :=
  sprites.foldr (fun e below => (e.at pal gfx x y).or below) none

/-- The sprite layer build (44_sprite R264). -/
def sprLayerOf (pal : Palette) (table gfx : Memory) : Layer :=
  Layer.build (fun x y => spritePixel (enabledSprites table) pal gfx x y)

/-- E.SPT.W (44_sprite R260). -/
def execESptW (off : Offset) (d : WVal) (s : State) : Host.Outcome State Fault Refusal :=
  .next { s with sprTable := s.sprTable.store (sprTableIndex off) d }.markSpr

/-- E.SPT.R (44_sprite R261). -/
def execESptR (off : Offset) (w : Width) (s : State) : Host.Outcome State Fault Refusal :=
  .next (s.reply (s.sprTable.load (sprTableIndex off) w))

/-- E.SPG.W (44_sprite R262). -/
def execESpgW (off : Offset) (d : WVal) (s : State) : Host.Outcome State Fault Refusal :=
  .next { s with sprGfx := s.sprGfx.store (sprGfxIndex off) d }.markSpr

/-- E.SPG.R (44_sprite R263). -/
def execESpgR (off : Offset) (w : Width) (s : State) : Host.Outcome State Fault Refusal :=
  .next (s.reply (s.sprGfx.load (sprGfxIndex off) w))

/-! ## The build as the loop R264 writes it -/

/-- One step of R264's inner loop: draw graphic pixel (px, py) if it is on the screen and opaque. -/
def SpriteEntry.drawPixel (e : SpriteEntry) (pal : Palette) (gfx : Memory) (l : Layer) (px py : Nat) : Layer :=
  let x := e.x + px
  let y := e.y + py
  if 0 ≤ x ∧ x ≤ 127 ∧ 0 ≤ y ∧ y ≤ 127 then
    match e.color pal gfx px py with
    | some c => l.setIfInBounds (128 * y.toNat + x.toNat) (some c)
    | none => l
  else l

/-- R264's two inner loops: `for py in 0..n-1, px in 0..n-1`. -/
def SpriteEntry.draw (e : SpriteEntry) (pal : Palette) (gfx : Memory) (l : Layer) : Layer :=
  (List.range' 0 e.side).foldl
    (fun l py => (List.range' 0 e.side).foldl (fun l px => e.drawPixel pal gfx l px py) l) l

/-- R264's outer loop, `for s = 255 down to 0`, over a layer first made transparent. A reading aid: the model builds the
layer by `sprLayerOf`. -/
def paintSprites (pal : Palette) (table gfx : Memory) : Layer :=
  (List.range' 0 256).reverse.foldl
    (fun l n => let e := spriteEntry table n; if e.enable then e.draw pal gfx l else l) blankLayer

end Sys2Proof.Machine
end

