-- ==== Sys2Proof/Machine/Tilemap.lean ====
section
/-!
DEFINITION. The Tilemap Plane: its RAM, its scroll registers and its layer build (spec/43_tilemap.md).
-/

namespace Sys2Proof.Machine

/-- The tilemap entry that output pixel (x, y) samples: `32*row + col` (43_tilemap R240). -/
def tileNumberAt (scx scy : Word) (x y : Nat) : Nat :=
  let col := ((x + effectiveScroll scx) / 8) % 32
  let row := ((y + effectiveScroll scy) / 8) % 32
  32 * row + col

/-- The layer pixel that output pixel (x, y) samples, whatever its priority (43_tilemap R240). -/
def tilePixel (pal : Palette) (table gfx : Memory) (scx scy : Word) (x y : Nat) : Option RGB :=
  let e := tileEntry table (tileNumberAt scx scy x y)
  let tx := (x + effectiveScroll scx) % 8
  let ty := (y + effectiveScroll scy) % 8
  let tx := if e.hFlip then 7 - tx else tx
  let ty := if e.vFlip then 7 - ty else ty
  pal.lookup (graphicPixel gfx e.tile.toNat tx ty)

/-- `tmLo`: the pixels of tiles without priority (43_tilemap R240). -/
def tmLoOf (pal : Palette) (table gfx : Memory) (scx scy : Word) : Layer :=
  Layer.build (fun x y =>
    if (tileEntry table (tileNumberAt scx scy x y)).priority then none else tilePixel pal table gfx scx scy x y)

/-- `tmHi`: the pixels of tiles with priority (43_tilemap R240). -/
def tmHiOf (pal : Palette) (table gfx : Memory) (scx scy : Word) : Layer :=
  Layer.build (fun x y =>
    if (tileEntry table (tileNumberAt scx scy x y)).priority then tilePixel pal table gfx scx scy x y else none)

/-- E.TMT.W (43_tilemap R230). -/
def execETmtW (off : Offset) (d : WVal) (s : State) : Host.Outcome State Fault Refusal :=
  .next { s with tmTable := s.tmTable.store (tmTableIndex off) d }.markTm

/-- E.TMT.R (43_tilemap R231). -/
def execETmtR (off : Offset) (w : Width) (s : State) : Host.Outcome State Fault Refusal :=
  .next (s.reply (s.tmTable.load (tmTableIndex off) w))

/-- E.TMG.W (43_tilemap R232). -/
def execETmgW (off : Offset) (d : WVal) (s : State) : Host.Outcome State Fault Refusal :=
  .next { s with tmGfx := s.tmGfx.store (tmGfxIndex off) d }.markTm

/-- E.TMG.R (43_tilemap R233). -/
def execETmgR (off : Offset) (w : Width) (s : State) : Host.Outcome State Fault Refusal :=
  .next (s.reply (s.tmGfx.load (tmGfxIndex off) w))

/-- E.TM_SCX.W (43_tilemap R236). -/
def execETmScxW (v : Word) (s : State) : Host.Outcome State Fault Refusal := .next { s with scx := v }.markTm

/-- E.TM_SCX.R (43_tilemap R238). -/
def execETmScxR (s : State) : Host.Outcome State Fault Refusal := .next (s.replyZero .four)

/-- E.TM_SCY.W (43_tilemap R237). -/
def execETmScyW (v : Word) (s : State) : Host.Outcome State Fault Refusal := .next { s with scy := v }.markTm

/-- E.TM_SCY.R (43_tilemap R238). -/
def execETmScyR (s : State) : Host.Outcome State Fault Refusal := .next (s.replyZero .four)

end Sys2Proof.Machine
end

