-- ==== Sys2Proof/Machine/Compositor.lean ====
section
/-!
DEFINITION. The Compositor: the rebuilds, the merge, SYNC and SAMPLE (spec/45_compositor.md).
-/

namespace Sys2Proof.Machine

/-- `if fbEnabled and fbDirty` rebuild the framebuffer layer (45_compositor R292, 42_framebuffer R212). -/
def State.rebuildFb (s : State) : State :=
  if s.fbEnabled && s.fbDirty then { s with fbLayer := fbLayerOf s.pal s.fb, fbDirty := false } else s

/-- `if tmEnabled and tmDirty` rebuild the two tilemap layers (45_compositor R293, 43_tilemap R240). -/
def State.rebuildTm (s : State) : State :=
  if s.tmEnabled && s.tmDirty then
    { s with tmLo := tmLoOf s.pal s.tmTable s.tmGfx s.scx s.scy, tmHi := tmHiOf s.pal s.tmTable s.tmGfx s.scx s.scy,
             tmDirty := false }
  else s

/-- `if sprDirty` rebuild the sprite layer: the plane is always enabled (45_compositor R294, 44_sprite R264). -/
def State.rebuildSpr (s : State) : State :=
  if s.sprDirty then { s with sprLayer := sprLayerOf s.pal s.sprTable s.sprGfx, sprDirty := false } else s

/-- `over(p, L)` at one pixel (45_compositor R296). -/
def overlay (p : RGB) (l : Option RGB) : RGB := l.getD p

/-- `if on: p = over(p, L)` (45_compositor R296). -/
def overlayIf (on : Bool) (p : RGB) (l : Option RGB) : RGB := if on then overlay p l else p

/-- One pixel of the merge, from the background and the pixels of the framebuffer, `tmLo`, sprite and `tmHi` layers
(45_compositor R296). -/
def mergePixel (fbEnabled tmEnabled fbInFront : Bool) (bg : RGB) (f lo sp hi : Option RGB) : RGB :=
  if fbInFront then overlayIf fbEnabled (overlayIf tmEnabled (overlay (overlayIf tmEnabled bg lo) sp) hi) f
  else overlayIf tmEnabled (overlay (overlayIf tmEnabled (overlayIf fbEnabled bg f) lo) sp) hi

/-- The merge of four layers (45_compositor R296). -/
def State.mergeOf (s : State) (f lo sp hi : Layer) : Frame :=
  Frame.build (fun x y =>
    mergePixel s.fbEnabled s.tmEnabled s.fbInFront s.bg (f.pixel x y) (lo.pixel x y) (sp.pixel x y) (hi.pixel x y))

/-- `merge()` of the cached layers (45_compositor R296). -/
def State.merge (s : State) : Frame := s.mergeOf s.fbLayer s.tmLo s.sprLayer s.tmHi

/-- `Image(state)`: the merge of freshly built layers (45_compositor R298). -/
def State.image (s : State) : Frame :=
  s.mergeOf (fbLayerOf s.pal s.fb) (tmLoOf s.pal s.tmTable s.tmGfx s.scx s.scy)
    (sprLayerOf s.pal s.sprTable s.sprGfx) (tmHiOf s.pal s.tmTable s.tmGfx s.scx s.scy)

/-- Propagation and the rebuilds, in their order (45_compositor R291 to R294). -/
def State.rebuild (s : State) : State := s.propagate.rebuildFb.rebuildTm.rebuildSpr

/-- `outImage <- merge()` (45_compositor R295). -/
def State.publish (s : State) : State := { s with outImage := some s.merge }

/-- What SAMPLE returns in a state (45_compositor R301). -/
def State.sampleNow (s : State) : Sample :=
  match s.mode with
  | .classic => .classic (classicImage s.front)
  | .enhanced => .enhanced s.outImage

/-- E.SYNC.W (45_compositor R295): any value; one atomic step. -/
def execESyncW (_v : Word) (s : State) : Host.Outcome State Fault Refusal := .next s.rebuild.publish.signalFrame

/-- E.SYNC.R (45_compositor R300). -/
def execESyncR (s : State) : Host.Outcome State Fault Refusal := .next (s.replyZero .four)

/-- SAMPLE (45_compositor R301): it changes no state of the controller. -/
def execSample (s : State) : Host.Outcome State Fault Refusal := .next { s with sampled := some s.sampleNow }

end Sys2Proof.Machine
end

