-- ==== Sys2Proof/Machine/InputMirror.lean ====
section
/-!
DEFINITION. The Input Mirror: key latches, key and mouse reads, the Classic key word, INPUT (spec/46_input_mirror.md).
-/

namespace Sys2Proof.Machine

/-- A key function with its value at one identifier set, keeping the identifiers strictly rising. -/
def KeySet.put : KeySet → Nat → Bool → KeySet
  | [], a, b => if b then [a] else []
  | k :: ks, a, b =>
    if a < k then (if b then a :: k :: ks else k :: ks)
    else if a = k then (if b then k :: ks else ks)
    else k :: KeySet.put ks a b

/-- The value of a key function at an identifier. -/
def KeySet.has (ks : KeySet) (id : Word) : Bool := ks.contains id.toNat

/-- One change of the collaborator's values (46_input_mirror R321). -/
def Inputs.change (v : Inputs) (c : InputChange) : Inputs :=
  match c with
  | .key .held id down => { v with held := KeySet.put v.held id.toNat down }
  | .key .pressed id down => { v with pressed := KeySet.put v.pressed id.toNat down }
  | .key .released id down => { v with released := KeySet.put v.released id.toNat down }
  | .mouseX w => { v with mouseX := w }
  | .mouseY w => { v with mouseY := w }
  | .mouseHeld w => { v with mouseHeld := w }
  | .mousePressed w => { v with mousePressed := w }
  | .mouseReleased w => { v with mouseReleased := w }
  | .classicKeys w => { v with classicKeys := w }

/-- Several changes, in order. -/
def Inputs.changes (v : Inputs) (cs : List InputChange) : Inputs := cs.foldl Inputs.change v

/-- C.KEYS.W (46_input_mirror R328): ignored. -/
def execCKeysW (_v : Word) (s : State) : Host.Outcome State Fault Refusal := .next s

/-- C.KEYS.R (46_input_mirror R327). -/
def execCKeysR (s : State) : Host.Outcome State Fault Refusal := .next (s.reply (.b4 s.inputs.classicKeys))

/-- E.KEY_HELD.W (46_input_mirror R322). -/
def execEKeyHeldW (v : Word) (s : State) : Host.Outcome State Fault Refusal := .next { s with keySel0 := v }

/-- E.KEY_HELD.R (46_input_mirror R323). -/
def execEKeyHeldR (s : State) : Host.Outcome State Fault Refusal :=
  .next (s.reply (.b4 (wordOfBool (KeySet.has s.inputs.held s.keySel0))))

/-- E.KEY_PRESSED.W (46_input_mirror R322). -/
def execEKeyPressedW (v : Word) (s : State) : Host.Outcome State Fault Refusal := .next { s with keySel1 := v }

/-- E.KEY_PRESSED.R (46_input_mirror R323). -/
def execEKeyPressedR (s : State) : Host.Outcome State Fault Refusal :=
  .next (s.reply (.b4 (wordOfBool (KeySet.has s.inputs.pressed s.keySel1))))

/-- E.KEY_RELEASED.W (46_input_mirror R322). -/
def execEKeyReleasedW (v : Word) (s : State) : Host.Outcome State Fault Refusal := .next { s with keySel2 := v }

/-- E.KEY_RELEASED.R (46_input_mirror R323). -/
def execEKeyReleasedR (s : State) : Host.Outcome State Fault Refusal :=
  .next (s.reply (.b4 (wordOfBool (KeySet.has s.inputs.released s.keySel2))))

/-- E.MOUSE_X.W (46_input_mirror R326): ignored, the register is read-only. -/
def execEMouseXW (_v : Word) (s : State) : Host.Outcome State Fault Refusal := .next s

/-- E.MOUSE_X.R (46_input_mirror R324). -/
def execEMouseXR (s : State) : Host.Outcome State Fault Refusal := .next (s.reply (.b4 s.inputs.mouseX))

/-- E.MOUSE_Y.W (46_input_mirror R326): ignored. -/
def execEMouseYW (_v : Word) (s : State) : Host.Outcome State Fault Refusal := .next s

/-- E.MOUSE_Y.R (46_input_mirror R324). -/
def execEMouseYR (s : State) : Host.Outcome State Fault Refusal := .next (s.reply (.b4 s.inputs.mouseY))

/-- E.MOUSE_HELD.W (46_input_mirror R326): ignored. -/
def execEMouseHeldW (_v : Word) (s : State) : Host.Outcome State Fault Refusal := .next s

/-- E.MOUSE_HELD.R (46_input_mirror R325). -/
def execEMouseHeldR (s : State) : Host.Outcome State Fault Refusal := .next (s.reply (.b4 s.inputs.mouseHeld))

/-- E.MOUSE_PRESSED.W (46_input_mirror R326): ignored. -/
def execEMousePressedW (_v : Word) (s : State) : Host.Outcome State Fault Refusal := .next s

/-- E.MOUSE_PRESSED.R (46_input_mirror R325). -/
def execEMousePressedR (s : State) : Host.Outcome State Fault Refusal :=
  .next (s.reply (.b4 s.inputs.mousePressed))

/-- E.MOUSE_RELEASED.W (46_input_mirror R326): ignored. -/
def execEMouseReleasedW (_v : Word) (s : State) : Host.Outcome State Fault Refusal := .next s

/-- E.MOUSE_RELEASED.R (46_input_mirror R325). -/
def execEMouseReleasedR (s : State) : Host.Outcome State Fault Refusal :=
  .next (s.reply (.b4 s.inputs.mouseReleased))

/-- INPUT (46_input_mirror R321): it changes the collaborator's values and no state element of the controller. -/
def execInput (changes : List InputChange) (s : State) : Host.Outcome State Fault Refusal :=
  .next { s with inputs := s.inputs.changes changes }

end Sys2Proof.Machine
end

