-- ==== Sys2Proof/Machine/ModeControl.lean ====
section
/-!
DEFINITION. The Mode Controller: CTRL in both modes, ORDER, the Classic sync read (spec/40_mode_control.md).
The decoder has tested the mode (spec/30_encoding.md R101); a meaning does not test it again (log 19).
-/

namespace Sys2Proof.Machine

/-- The Classic sync write: `front <- back`, then `back <- 0` for a nonzero value; release; pulse
(40_mode_control R142). -/
def State.classicSync (s : State) (v : Word) : State :=
  { s with front := s.back, back := if v = 0 then s.back else [] }.signalFrame

/-- The switch to Enhanced: sub-flags from the value, nothing else (40_mode_control R141). -/
def State.switchEnhanced (s : State) (v : Word) : State := { s.setSubFlags v with mode := .enhanced }

/-- C.CTRL.W (40_mode_control R140): the threshold test comes first, unsigned. -/
def execCCtrlW (v : Word) (s : State) : Host.Outcome State Fault Refusal :=
  .next (if Config.enhThreshold ≤ v then s.switchEnhanced v else s.classicSync v)

/-- C.CTRL.R (40_mode_control R151): the issue of the Classic sync read. -/
def execCCtrlR (s : State) : Host.Outcome State Fault Refusal := .next s.hold

/-- E.CTRL.W (40_mode_control R144). -/
def execECtrlW (v : Word) (s : State) : Host.Outcome State Fault Refusal := .next (s.setSubFlags v)

/-- E.CTRL.R (40_mode_control R145). -/
def execECtrlR (s : State) : Host.Outcome State Fault Refusal := .next (s.replyZero .four)

/-- E.ORDER.W (40_mode_control R146). -/
def execEOrderW (v : Word) (s : State) : Host.Outcome State Fault Refusal :=
  .next { s with fbInFront := orderBit v }

/-- E.ORDER.R (40_mode_control R147). -/
def execEOrderR (s : State) : Host.Outcome State Fault Refusal := .next (s.replyZero .four)

end Sys2Proof.Machine
end

