-- ==== Sys2Proof/Machine/PaletteStore.lean ====
section
/-!
DEFINITION. The Palette Store: palette RAM and PAL_RESET (spec/41_palette.md).
-/

namespace Sys2Proof.Machine

/-- The colour a palette access reaches: `bg` for entry 0, else `pal[e]` (41_palette R170, R173, R178). -/
def State.palTarget (s : State) (e : Byte) : RGB := if e = 0 then s.bg else s.pal.get e

/-- Store a colour in an entry: entry 0 redirects to `bg` and sets no flag; any other sets `palDirty`
(41_palette R173). -/
def State.putColor (s : State) (e : Byte) (c : RGB) : State :=
  if e = 0 then { s with bg := c } else { s with pal := s.pal.put e c }.markPal

/-- A palette write (41_palette R173 to R176). -/
def State.palWrite (s : State) (off : Offset) (d : WVal) : State :=
  if palIgnored (palLane off) d then s
  else s.putColor (palEntry off) (withLanes (s.palTarget (palEntry off)) (palLane off) d)

/-- A palette read: `lane[k+w−1] ‖ … ‖ lane[k]` (41_palette R178). -/
def State.palRead (s : State) (off : Offset) (w : Width) : WVal :=
  WVal.ofBytes w (fun j => laneOf (s.palTarget (palEntry off)) (palLane off + j))

/-- E.PAL.W (41_palette R173). -/
def execEPalW (off : Offset) (d : WVal) (s : State) : Host.Outcome State Fault Refusal := .next (s.palWrite off d)

/-- E.PAL.R (41_palette R178). -/
def execEPalR (off : Offset) (w : Width) (s : State) : Host.Outcome State Fault Refusal :=
  .next (s.reply (s.palRead off w))

/-- E.PAL_RESET.W (41_palette R177): any value; palette and `bg` to their defaults. -/
def execEPalResetW (_v : Word) (s : State) : Host.Outcome State Fault Refusal :=
  .next { s with pal := defaultPalette, bg := defaultBg }.markPal

/-- E.PAL_RESET.R (41_palette R180). -/
def execEPalResetR (s : State) : Host.Outcome State Fault Refusal := .next (s.replyZero .four)

end Sys2Proof.Machine
end

