-- ==== Sys2Proof/Machine/ResetEvent.lean ====
section
/-!
DEFINITION. The RESET event (spec/70_reset_and_hazards.md R370).
-/

namespace Sys2Proof.Machine

/-- RESET (70_reset_and_hazards R370): every state element of the controller takes its value of 10_state R52.
`msPerFrame` is any value in [10, 100] and the layers are unspecified: free values (logs 3, 4). What the agents outside
hold stays: the inputs, the schedule, the held masters, whose reads can complete because `waiter` is false (log 12). -/
def State.resetEvent (s : State) : State :=
  { State.reset with
    msPerFrame := freeMs s.freeCount
    fbLayer := freeLayer s.freeCount
    tmLo := freeLayer (s.freeCount + 1)
    tmHi := freeLayer (s.freeCount + 2)
    sprLayer := freeLayer (s.freeCount + 3)
    freeCount := s.freeCount + 4
    inputs := s.inputs
    pending := s.pending
    heldMasters := s.heldMasters
    busMaster := s.busMaster
    readData := s.readData
    sampled := s.sampled
    frameReady := s.frameReady }

/-- RESET (70_reset_and_hazards R370). -/
def execReset (s : State) : Host.Outcome State Fault Refusal := .next s.resetEvent

end Sys2Proof.Machine
end

