-- ==== Sys2Proof/Machine/Unmapped.lean ====
section
/-!
DEFINITION. The transactions without a function: unused offsets, narrow and misaligned transactions
(spec/30_encoding.md R122, R125 to R130). A write changes nothing; a read returns 0 and changes nothing.
-/

namespace Sys2Proof.Machine

/-- E.UNUSED.W (30_encoding R125). -/
def execEUnusedW (_off : Offset) (_d : WVal) (s : State) : Host.Outcome State Fault Refusal := .next s

/-- E.UNUSED.R (30_encoding R126). -/
def execEUnusedR (_off : Offset) (w : Width) (s : State) : Host.Outcome State Fault Refusal :=
  .next (s.replyZero w)

/-- NARROW.W (30_encoding R127). -/
def execNarrowW (_m : Mode) (_off : Offset) (_d : WVal) (s : State) : Host.Outcome State Fault Refusal := .next s

/-- NARROW.R (30_encoding R128): it does not hold. -/
def execNarrowR (_m : Mode) (_off : Offset) (w : Width) (s : State) : Host.Outcome State Fault Refusal :=
  .next (s.replyZero w)

/-- MISALIGNED.W (30_encoding R129). -/
def execMisalignedW (_m : Mode) (_off : Offset) (_d : WVal) (s : State) : Host.Outcome State Fault Refusal :=
  .next s

/-- MISALIGNED.R (30_encoding R130). -/
def execMisalignedR (_m : Mode) (_off : Offset) (w : Width) (s : State) : Host.Outcome State Fault Refusal :=
  .next (s.replyZero w)

end Sys2Proof.Machine
end

