-- ==== Sys2Proof/Machine/Dispatch.lean ====
section
/-!
DEFINITION. The dispatch: one arm for each row of spec/opcode_table.json.
-/

namespace Sys2Proof.Machine

def exec (i : Instr) (s : State) : Host.Outcome State Fault Refusal :=
  match i with
  | .cCtrlW v => Sys2Proof.Machine.execCCtrlW v s
  | .cCtrlR => Sys2Proof.Machine.execCCtrlR s
  | .cKeysW v => Sys2Proof.Machine.execCKeysW v s
  | .cKeysR => Sys2Proof.Machine.execCKeysR s
  | .cBackW off d => Sys2Proof.Machine.execCBackW off d s
  | .cBackR off w => Sys2Proof.Machine.execCBackR off w s
  | .cDeadW off d => Sys2Proof.Machine.execCDeadW off d s
  | .cDeadR off w => Sys2Proof.Machine.execCDeadR off w s
  | .cBeyondW off d => Sys2Proof.Machine.execCBeyondW off d s
  | .cBeyondR off w => Sys2Proof.Machine.execCBeyondR off w s
  | .eCtrlW v => Sys2Proof.Machine.execECtrlW v s
  | .eCtrlR => Sys2Proof.Machine.execECtrlR s
  | .eOrderW v => Sys2Proof.Machine.execEOrderW v s
  | .eOrderR => Sys2Proof.Machine.execEOrderR s
  | .eSyncW v => Sys2Proof.Machine.execESyncW v s
  | .eSyncR => Sys2Proof.Machine.execESyncR s
  | .eFbClearW v => Sys2Proof.Machine.execEFbClearW v s
  | .eFbClearR => Sys2Proof.Machine.execEFbClearR s
  | .ePalResetW v => Sys2Proof.Machine.execEPalResetW v s
  | .ePalResetR => Sys2Proof.Machine.execEPalResetR s
  | .eTmScxW v => Sys2Proof.Machine.execETmScxW v s
  | .eTmScxR => Sys2Proof.Machine.execETmScxR s
  | .eTmScyW v => Sys2Proof.Machine.execETmScyW v s
  | .eTmScyR => Sys2Proof.Machine.execETmScyR s
  | .eKeyHeldW v => Sys2Proof.Machine.execEKeyHeldW v s
  | .eKeyHeldR => Sys2Proof.Machine.execEKeyHeldR s
  | .eKeyPressedW v => Sys2Proof.Machine.execEKeyPressedW v s
  | .eKeyPressedR => Sys2Proof.Machine.execEKeyPressedR s
  | .eKeyReleasedW v => Sys2Proof.Machine.execEKeyReleasedW v s
  | .eKeyReleasedR => Sys2Proof.Machine.execEKeyReleasedR s
  | .eMouseXW v => Sys2Proof.Machine.execEMouseXW v s
  | .eMouseXR => Sys2Proof.Machine.execEMouseXR s
  | .eMouseYW v => Sys2Proof.Machine.execEMouseYW v s
  | .eMouseYR => Sys2Proof.Machine.execEMouseYR s
  | .eMouseHeldW v => Sys2Proof.Machine.execEMouseHeldW v s
  | .eMouseHeldR => Sys2Proof.Machine.execEMouseHeldR s
  | .eMousePressedW v => Sys2Proof.Machine.execEMousePressedW v s
  | .eMousePressedR => Sys2Proof.Machine.execEMousePressedR s
  | .eMouseReleasedW v => Sys2Proof.Machine.execEMouseReleasedW v s
  | .eMouseReleasedR => Sys2Proof.Machine.execEMouseReleasedR s
  | .ePalW off d => Sys2Proof.Machine.execEPalW off d s
  | .ePalR off w => Sys2Proof.Machine.execEPalR off w s
  | .eFbW off d => Sys2Proof.Machine.execEFbW off d s
  | .eFbR off w => Sys2Proof.Machine.execEFbR off w s
  | .eTmtW off d => Sys2Proof.Machine.execETmtW off d s
  | .eTmtR off w => Sys2Proof.Machine.execETmtR off w s
  | .eSptW off d => Sys2Proof.Machine.execESptW off d s
  | .eSptR off w => Sys2Proof.Machine.execESptR off w s
  | .eTmgW off d => Sys2Proof.Machine.execETmgW off d s
  | .eTmgR off w => Sys2Proof.Machine.execETmgR off w s
  | .eSpgW off d => Sys2Proof.Machine.execESpgW off d s
  | .eSpgR off w => Sys2Proof.Machine.execESpgR off w s
  | .eUnusedW off d => Sys2Proof.Machine.execEUnusedW off d s
  | .eUnusedR off w => Sys2Proof.Machine.execEUnusedR off w s
  | .narrowW m off d => Sys2Proof.Machine.execNarrowW m off d s
  | .narrowR m off w => Sys2Proof.Machine.execNarrowR m off w s
  | .misalignedW m off d => Sys2Proof.Machine.execMisalignedW m off d s
  | .misalignedR m off w => Sys2Proof.Machine.execMisalignedR m off w s
  | .reset => Sys2Proof.Machine.execReset s
  | .sample => Sys2Proof.Machine.execSample s
  | .input changes => Sys2Proof.Machine.execInput changes s

end Sys2Proof.Machine
end

