-- ==== Sys2Proof/Machine/Fetch.lean ====
section
/-!
DEFINITION. Which entry of the schedule runs next, and its bytes. The controller fetches no instruction stream
(spec/10_state.md R22); what a step runs is what an agent presents. Entries run in order (spec/20_memory.md R81); an
entry of a held master waits ("it can issue nothing else", spec/40_mode_control.md R151) and later entries of other
agents pass it (log 8).
-/

namespace Sys2Proof.Machine

/-- May the entry run in this state? A held master issues nothing; a held read completes "only when waiter = false"
(40_mode_control R151); RESET, SAMPLE and INPUT can always happen (93_implementation_defined U15). -/
def State.canRun (s : State) : Pending → Bool
  | .bus master _ => !s.heldMasters.contains master
  | .complete master => s.heldMasters.contains master && !s.waiter
  | .reset | .sample | .input _ => true

/-- The first element that passes a test, and the list without it. -/
def takeFirst {α : Type} (p : α → Bool) : List α → Option (α × List α)
  | [] => none
  | a :: as =>
    if p a then some (a, as)
    else
      match takeFirst p as with
      | none => none
      | some (b, bs) => some (b, a :: bs)

/-- What one step does. -/
inductive Choice where
  /-- decode and run the packet that `master` (the first one for an event) presents; `rest` is the schedule without it -/
  | run (master : Master) (packet : Packet) (rest : List Pending)
  /-- the held read of `master` completes -/
  | complete (master : Master) (rest : List Pending)
  /-- nothing can run -/
  | idle
  deriving DecidableEq, Repr

/-- The choice an entry stands for: the key's mode bit is the current mode (30_encoding R100). -/
def Pending.choice (m : Mode) (rest : List Pending) : Pending → Choice
  | .bus master r => .run master (.bus m r) rest
  | .complete master => .complete master rest
  | .reset => .run Master.first .reset rest
  | .sample => .run Master.first .sample rest
  | .input cs => .run Master.first (.input cs) rest

/-- The next step: the first entry that can run; else the oldest held read if it can complete; else nothing, for the
controller "does nothing between steps" (60_exceptions R353; log 9). -/
def State.choose (s : State) : Choice :=
  match takeFirst s.canRun s.pending with
  | some (e, rest) => e.choice s.mode rest
  | none =>
    match s.heldMasters with
    | [] => .idle
    | master :: _ => if s.waiter then .idle else .complete master s.pending

/-- The state in which a chosen entry runs: no output yet, the entry gone from the schedule, its master noted. -/
def State.begin (s : State) (master : Master) (rest : List Pending) : State :=
  { s.quiet with pending := rest, busMaster := master }

/-- `s` with a packet as the next thing to run: in front of the schedule, in the mode of its key, its master (the first
one) free to issue. This is how a program's next transaction is presented (log 1). -/
def State.withPacket (s : State) (p : Packet) : State :=
  match p with
  | .bus m r =>
    { s with mode := m, pending := .bus Master.first r :: s.pending,
             heldMasters := s.heldMasters.filter (· ≠ Master.first) }
  | .reset => { s with pending := .reset :: s.pending }
  | .sample => { s with pending := .sample :: s.pending }
  | .input cs => { s with pending := .input cs :: s.pending }

/-- `s` with the packet of the bits `w` as the next thing to run; `s` itself where they are no packet. -/
def State.withTableWord (s : State) (nbits w : Nat) : State :=
  match decodePacket (tableBytes nbits w) with
  | .ok (p, _) => s.withPacket p
  | .error _ => s

end Sys2Proof.Machine
end

