-- ==== Sys2Proof/Machine/Step.lean ====
section
/-!
DEFINITION. One step of the machine: one whole transaction or event (spec/20_memory.md R79, R81), the completion of a
held read (spec/40_mode_control.md R151), or nothing where nothing can run.
-/

namespace Sys2Proof.Machine

/-- One step. -/
def step (s : State) : Host.Outcome State Fault Refusal :=
  match s.choose with
  | .run master packet rest =>
    match decode packet.bytes with
    | .ok (i, _) => exec i (s.begin master rest)
    | .error e => .refused (.undecodable e)
  | .complete master rest => .next ((s.begin master rest).completeRead master)
  | .idle => .next s.quiet

/-- `s` with the instruction whose first `nbits` bits are `w` as the very next thing to run (log 1). -/
def State.withFetchWord (s : State) (nbits w : Nat) : State := s.withTableWord nbits w

end Sys2Proof.Machine
end

