-- ==== Sys2Proof/Safety.lean ====
section
/-!
DEFINITION. What a good state is, in the terms the statements use: the invariants of spec/10_state.md R24, R25, R40 and
spec/40_mode_control.md R141, the canonical form of the plain data, and the one-master platform of
spec/70_reset_and_hazards.md R381.
-/

namespace Sys2Proof.Machine

/-- A RAM region of `n` bytes in canonical form. -/
abbrev Memory.good (n : Nat) (m : Memory) : Prop := m.wf ∧ m.within n

/-- Every RAM region is in canonical form and inside its size (10_state R32 to R37). -/
structure State.MemoriesGood (s : State) : Prop where
  back : Memory.good 4096 s.back
  front : Memory.good 4096 s.front
  fb : Memory.good 16384 s.fb
  tmTable : Memory.good 2048 s.tmTable
  tmGfx : Memory.good 16384 s.tmGfx
  sprTable : Memory.good 1024 s.sprTable
  sprGfx : Memory.good 16384 s.sprGfx

/-- The Mode Controller's invariants: in Enhanced mode never both planes off (10_state R24); `msPerFrame` in [10, 100]
(10_state R25). -/
structure State.SubFlagsGood (s : State) : Prop where
  planes : s.mode = .enhanced → s.fbEnabled = true ∨ s.tmEnabled = true
  msLow : 10 ≤ s.msPerFrame
  msHigh : s.msPerFrame ≤ 100

/-- 10_state R40: a plane whose dirty flag and `palDirty` are false has its cached layers equal to what the build rule
computes from the current state. -/
structure State.LayersCoherent (s : State) : Prop where
  fb : s.palDirty = false → s.fbDirty = false → s.fbLayer = fbLayerOf s.pal s.fb
  tmLo : s.palDirty = false → s.tmDirty = false → s.tmLo = tmLoOf s.pal s.tmTable s.tmGfx s.scx s.scy
  tmHi : s.palDirty = false → s.tmDirty = false → s.tmHi = tmHiOf s.pal s.tmTable s.tmGfx s.scx s.scy
  spr : s.palDirty = false → s.sprDirty = false → s.sprLayer = sprLayerOf s.pal s.sprTable s.sprGfx

/-- What no Classic transaction can write still has its reset value (40_mode_control R141, corner cases). -/
structure State.EnhancedUntouched (s : State) : Prop where
  fb : s.fb = []
  tmTable : s.tmTable = []
  tmGfx : s.tmGfx = []
  sprTable : s.sprTable = []
  sprGfx : s.sprGfx = []
  scx : s.scx = 0
  scy : s.scy = 0
  fbInFront : s.fbInFront = false
  bg : s.bg = defaultBg
  pal : s.pal = defaultPalette
  outImage : s.outImage = none

/-- While the mode is Classic, the Enhanced state is as after reset (40_mode_control R141). -/
def State.ClassicPristine (s : State) : Prop := s.mode = .classic → s.EnhancedUntouched

/-- The second state is the first but for the dirty flags and the cached layers (10_state R39, R41 to R43). -/
def State.SameButCaches (s t : State) : Prop :=
  t = { s with
    palDirty := t.palDirty, fbDirty := t.fbDirty, tmDirty := t.tmDirty, sprDirty := t.sprDirty, fbLayer := t.fbLayer,
    tmLo := t.tmLo, tmHi := t.tmHi, sprLayer := t.sprLayer }

/-- A key function as plain data in its one form: identifiers of 32 bits, strictly rising (log 11). -/
abbrev KeySet.good (ks : KeySet) : Prop := ks.Pairwise (· < ·) ∧ ∀ id ∈ ks, id < 2 ^ 32

/-- The three key functions of the input collaborator are in their one form (46_input_mirror R320; log 11). -/
structure State.KeySetsGood (s : State) : Prop where
  held : KeySet.good s.inputs.held
  pressed : KeySet.good s.inputs.pressed
  released : KeySet.good s.inputs.released

/-- The entry cannot run in this state: it is a transaction of a held master, which "can issue nothing else", or a
completion that 40_mode_control R151 does not enable. -/
def State.Waits (s : State) (e : Pending) : Prop :=
  (∃ k r, e = .bus k r ∧ k ∈ s.heldMasters) ∨ ∃ k, e = .complete k ∧ (k ∉ s.heldMasters ∨ s.waiter = true)

/-- The schedule holds no RESET and every transaction in it is `master`'s: a platform with one bus master
(`N_MASTERS` = 1, 92_eei_decisions D34) between two resets. -/
def State.OnlyMaster (master : Master) (s : State) : Prop :=
  ∀ e ∈ s.pending, e ≠ .reset ∧ ∀ m r, e = .bus m r → m = master

end Sys2Proof.Machine
end

