-- ==== Sys2Proof/Certificates/Slice0/Obligations.lean ====
section
/-!
DEFINITION. The statements for the provers. Each docstring names the rules of spec/ it formalises. A frame is written
`t = { s with … }`: every field of State that is not named keeps its value.
-/

namespace Sys2Proof.Stated

open Sys2Proof.Machine

/-- A RAM store over all its operands: it completes; byte `j` of the value lands at `index off + j`; every other byte of the
region reads as before; `frame` says everything else. -/
def StoresAt (instr : Offset → WVal → Instr) (lo hi : Nat) (index : Offset → Nat) (ram : State → Memory)
    (frame : State → State → Prop) : Prop :=
  ∀ (s : State) (off : Offset) (d : WVal), lo ≤ off.toNat → off.toNat ≤ hi → off.toNat % d.width.bytes = 0 →
    (ram s).wf → ∃ t, exec (instr off d) s = .next t ∧ frame s t ∧
      (∀ j, j < d.width.bytes → (ram t).read (index off + j) = byteOf d.toWord j) ∧
      ∀ a, a < index off ∨ index off + d.width.bytes ≤ a → (ram t).read a = (ram s).read a

/-- A RAM read over all its operands: it completes and returns the value of the width whose byte `j` is the byte at
`index off + j`, and changes nothing else. -/
def LoadsFrom (instr : Offset → Width → Instr) (lo hi : Nat) (index : Offset → Nat) (ram : State → Memory) : Prop :=
  ∀ (s : State) (off : Offset) (w : Width), lo ≤ off.toNat → off.toNat ≤ hi → off.toNat % w.bytes = 0 →
    ∃ v : WVal, exec (instr off w) s = .next { s with readData := some v } ∧ v.width = w ∧
      ∀ j, j < w.bytes → byteOf v.toWord j = (ram s).read (index off + j)

/-- Aligned writes at offsets `lo` to `hi` of a mode's map decode to a row. -/
def WritesDecodeTo (m : Mode) (lo hi : Nat) (row : Offset → WVal → Instr) : Prop :=
  ∀ (off : Offset) (d : WVal), lo ≤ off.toNat → off.toNat ≤ hi → off.toNat % d.width.bytes = 0 →
    decode (Packet.bus m (.write off d)).bytes = .ok (row off d, [])

/-- Aligned reads at offsets `lo` to `hi` of a mode's map decode to a row. -/
def ReadsDecodeTo (m : Mode) (lo hi : Nat) (row : Offset → Width → Instr) : Prop :=
  ∀ (off : Offset) (w : Width), lo ≤ off.toNat → off.toNat ≤ hi → off.toNat % w.bytes = 0 →
    decode (Packet.bus m (.read off w)).bytes = .ok (row off w, [])

/-- The four offsets from `lo` are a word-only register: a word takes its rows, a narrower access is NARROW. -/
def WordRegister (m : Mode) (lo : Nat) (w : Word → Instr) (r : Instr) : Prop :=
  WritesDecodeTo m lo (lo + 3) (fun off d => match d with | .b4 v => w v | _ => .narrowW m off d) ∧
    ReadsDecodeTo m lo (lo + 3) (fun off k => match k with | .four => r | _ => .narrowR m off k)

/-- Offsets `lo` to `hi` belong to a region that takes every width. -/
def WideRegion (m : Mode) (lo hi : Nat) (w : Offset → WVal → Instr) (r : Offset → Width → Instr) : Prop :=
  WritesDecodeTo m lo hi w ∧ ReadsDecodeTo m lo hi r

/-- The read rows of the table but for C.CTRL.R, the one read with an effect (20_memory R70, R75). -/
def plainRead : Instr → Bool
  | .cKeysR | .cBackR _ _ | .cDeadR _ _ | .cBeyondR _ _ => true
  | .eCtrlR | .eOrderR | .eSyncR | .eFbClearR | .ePalResetR | .eTmScxR | .eTmScyR => true
  | .eKeyHeldR | .eKeyPressedR | .eKeyReleasedR | .eMouseXR | .eMouseYR => true
  | .eMouseHeldR | .eMousePressedR | .eMouseReleasedR => true
  | .ePalR _ _ | .eFbR _ _ | .eTmtR _ _ | .eSptR _ _ | .eTmgR _ _ | .eSpgR _ _ | .eUnusedR _ _ => true
  | .narrowR _ _ _ | .misalignedR _ _ _ => true
  | _ => false

/-- The instruction is a Classic sync write: C.CTRL.W below the threshold (40_mode_control R142). -/
def classicSyncWrite : Instr → Prop
  | .cCtrlW v => v.toNat < Config.enhThreshold.toNat
  | _ => False

/-- The instruction is an Enhanced sync write (45_compositor R295). -/
def enhancedSyncWrite : Instr → Prop
  | .eSyncW _ => True
  | _ => False

/-- A change of one key function sets it at the identifier as asked, at no other, and changes nothing else: `get` reads the
function of the inputs, `put` replaces it. -/
def KeyChangeSets (table : KeyTable) (get : Inputs → KeySet) (put : Inputs → KeySet → Inputs) : Prop :=
  ∀ (s : State) (id : Word) (down : Bool), (get s.inputs).good → ∃ ks : KeySet,
    exec (.input [.key table id down]) s = .next { s with inputs := put s.inputs ks } ∧ ks.good ∧
      (id.toNat ∈ ks ↔ down = true) ∧ ∀ a, a ≠ id.toNat → (a ∈ ks ↔ a ∈ get s.inputs)

/-- A change of one word of the inputs puts that word there and changes nothing else. -/
def WordChangeSets (change : Word → InputChange) (put : Inputs → Word → Inputs) : Prop :=
  ∀ (s : State) (v : Word), exec (.input [change v]) s = .next { s with inputs := put s.inputs v }

/-- Is the entry a bus transaction? -/
def isBus : Pending → Bool
  | .bus _ _ => true
  | _ => false

/-- The default palette's colour `i`, 1 ≤ i ≤ 255, as 41_palette R172 lists it: `I = [0, 63, 127, 255]`. -/
def rampColor (i : Nat) : RGB :=
  let level := fun k : Nat => if k = 0 then 0#8 else if k = 1 then 63#8 else if k = 2 then 127#8 else 255#8
  if i ≤ 63 then ⟨level (i / 16 % 4), level (i / 4 % 4), level (i % 4)⟩
  else if i ≤ 79 then Config.classicColors (BitVec.ofNat 4 (i - 64))
  else if i ≤ 127 then ⟨0, 0, 0⟩
  else ⟨BitVec.ofNat 8 ((i - 128) * 2), BitVec.ofNat 8 ((i - 128) * 2), BitVec.ofNat 8 ((i - 128) * 2)⟩

end Sys2Proof.Stated

open Sys2Proof Sys2Proof.Machine Sys2Proof.Stated

/-! ## Decoding -/

/-- Every well-formed instruction of the table decodes from its own encoding, whatever follows. The packet layout beyond
the key K of 30_encoding R100 is the model's choice (log 2). -/
def Obligations.DecodeInvertsEncode : Prop :=
  ∀ (i : Instr) (rest : List Byte), i.wf = true → decode (encode i ++ rest) = .ok (i, rest)

/-- 30_encoding R101, R104, R122: every transaction in either mode is one row of the table with operands the row
admits, and that row's encoding is the transaction. The packet layout is the model's choice (log 2). -/
def Obligations.EveryTransactionIsOneRow : Prop :=
  ∀ (m : Mode) (r : BusReq), ∃ i : Instr, decode (Packet.bus m r).bytes = .ok (i, []) ∧ i.wf = true ∧
    encode i = (Packet.bus m r).bytes ∧ ∀ j : Instr, j.wf = true → encode j = (Packet.bus m r).bytes → j = i

/-- 30_encoding R101 (1): misalignment is tested before everything else, in both modes. The transaction reaches the decoder
as the bytes of its packet, whose layout is the model's (log 2). -/
def Obligations.MisalignmentDecodesFirst : Prop :=
  (∀ (m : Mode) (off : Offset) (d : WVal), off.toNat % d.width.bytes ≠ 0 →
      decode (Packet.bus m (.write off d)).bytes = .ok (.misalignedW m off d, [])) ∧
    ∀ (m : Mode) (off : Offset) (w : Width), off.toNat % w.bytes ≠ 0 →
      decode (Packet.bus m (.read off w)).bytes = .ok (.misalignedR m off w, [])

/-- 30_encoding R102: the Enhanced region table, every row. (A transaction reaches the decoder as the bytes of its packet; the
statement says nothing about their layout.) -/
def Obligations.EnhancedMapDecodes : Prop :=
  WordRegister .enhanced 0x0000 .eCtrlW .eCtrlR ∧ WordRegister .enhanced 0x0004 .eOrderW .eOrderR ∧
  WordRegister .enhanced 0x0008 .eSyncW .eSyncR ∧ WordRegister .enhanced 0x000C .eFbClearW .eFbClearR ∧
  WordRegister .enhanced 0x0010 .ePalResetW .ePalResetR ∧ WordRegister .enhanced 0x0020 .eTmScxW .eTmScxR ∧
  WordRegister .enhanced 0x0024 .eTmScyW .eTmScyR ∧ WordRegister .enhanced 0x0040 .eKeyHeldW .eKeyHeldR ∧
  WordRegister .enhanced 0x0044 .eKeyPressedW .eKeyPressedR ∧
  WordRegister .enhanced 0x0048 .eKeyReleasedW .eKeyReleasedR ∧
  WordRegister .enhanced 0x004C .eMouseXW .eMouseXR ∧ WordRegister .enhanced 0x0050 .eMouseYW .eMouseYR ∧
  WordRegister .enhanced 0x0054 .eMouseHeldW .eMouseHeldR ∧
  WordRegister .enhanced 0x0058 .eMousePressedW .eMousePressedR ∧
  WordRegister .enhanced 0x005C .eMouseReleasedW .eMouseReleasedR ∧
  WideRegion .enhanced 0x0014 0x001F .eUnusedW .eUnusedR ∧ WideRegion .enhanced 0x0028 0x003F .eUnusedW .eUnusedR ∧
  WideRegion .enhanced 0x0060 0x0BFF .eUnusedW .eUnusedR ∧ WideRegion .enhanced 0x0C00 0x0FFF .ePalW .ePalR ∧
  WideRegion .enhanced 0x1000 0x4FFF .eFbW .eFbR ∧ WideRegion .enhanced 0x5000 0x57FF .eTmtW .eTmtR ∧
  WideRegion .enhanced 0x5800 0x5FFF .eSptW .eSptR ∧ WideRegion .enhanced 0x6000 0x9FFF .eTmgW .eTmgR ∧
  WideRegion .enhanced 0xA000 0xDFFF .eSpgW .eSpgR ∧ WideRegion .enhanced 0xE000 0xFFFF .eUnusedW .eUnusedR

/-- 30_encoding R103: the Classic region table, every row, for whatever `CLASSIC_DEAD_END` is. (A transaction reaches the
decoder as the bytes of its packet; the statement says nothing about their layout.) -/
def Obligations.ClassicMapDecodes : Prop :=
  WordRegister .classic 0x0000 .cCtrlW .cCtrlR ∧ WordRegister .classic 0x0004 .cKeysW .cKeysR ∧
  WideRegion .classic 0x0008 0x1007 .cBackW .cBackR ∧
  WideRegion .classic 0x1008 (Config.classicDeadEnd - 1) .cDeadW .cDeadR ∧
  WideRegion .classic Config.classicDeadEnd 0xFFFF .cBeyondW .cBeyondR

/-- Seven words decode to their instructions. Bits 17:0 of each are a decode key K of 30_encoding R100 that
95_test_vectors V-DEC-1 lists; that the bits above are a width field, zero for a word access, and that the value word of
a write is zero here is the model's own packet layout (log 2, DESIGN CHOICE), for R100 gives width and value no bits. -/
def Obligations.DecodeKeysOfTheVectors : Prop :=
  decodeTableWord 24 0x00000 = some .cCtrlR ∧ decodeTableWord 24 0x10000 = some (.cCtrlW 0) ∧
  decodeTableWord 24 0x20000 = some .eCtrlR ∧ decodeTableWord 24 0x30008 = some (.eSyncW 0) ∧
  decodeTableWord 24 0x35800 = some (.eSptW 0x5800 (.b4 0)) ∧ decodeTableWord 24 0x3DFFC = some (.eSpgW 0xDFFC (.b4 0)) ∧
  decodeTableWord 24 0x3E000 = some (.eUnusedW 0xE000 (.b4 0))

/-- 20_memory R61: an access inside the window joins the schedule at its offset; any other is not seen. The schedule is the
model's choice (log 1), and so is that an address is a natural number, of no fixed width (log 23). -/
def Obligations.AccessesOutsideTheWindowAreNotSeen : Prop :=
  (∀ (s : State) (k : Master) (d : WVal) (off : Offset),
      s.present k (.write (Config.base + off.toNat) d) = { s with pending := s.pending ++ [.bus k (.write off d)] }) ∧
  (∀ (s : State) (k : Master) (w : Width) (off : Offset),
      s.present k (.read (Config.base + off.toNat) w) = { s with pending := s.pending ++ [.bus k (.read off w)] }) ∧
  ∀ (s : State) (k : Master) (addr : Nat), addr < Config.base ∨ Config.base + 0x10000 ≤ addr →
    (∀ d : WVal, s.present k (.write addr d) = s) ∧ ∀ w : Width, s.present k (.read addr w) = s

/-! ## The step -/

/-- A step runs the transaction at the head of the schedule when its master is not held: the key's mode is the current
mode (30_encoding R100), and before `exec` the entry leaves the schedule, its master is noted and the outputs are
cleared. The schedule and the outputs are the model's choice (logs 1, 10). -/
def Obligations.StepRunsTheDecodedTransaction : Prop :=
  ∀ (s : State) (k : Master) (r : BusReq) (rest : List Pending) (i : Instr) (tail : List Byte),
    s.pending = .bus k r :: rest → k ∉ s.heldMasters → decode (Packet.bus s.mode r).bytes = .ok (i, tail) →
    step s = exec i { s with pending := rest, busMaster := k, readData := none, sampled := none, frameReady := false }

/-- The events of the environment and the reader run from the head of the schedule in the same way, whoever is held
(93_implementation_defined U15). The schedule is the model's choice (log 1), INPUT's form too (log 11). -/
def Obligations.StepRunsTheEvents : Prop :=
  ∀ (s : State) (rest : List Pending),
    (s.pending = .reset :: rest → step s = exec .reset (s.begin Master.first rest)) ∧
    (s.pending = .sample :: rest → step s = exec .sample (s.begin Master.first rest)) ∧
    ∀ cs : List InputChange, s.pending = .input cs :: rest → step s = exec (.input cs) (s.begin Master.first rest)

/-- 40_mode_control R151: a held master "can issue nothing else". Where every entry of the schedule waits (a transaction of a
held master, a completion that is not enabled) and no held read can complete, a step changes nothing. Otherwise the first
entry that does not wait runs, past any number of entries that do: another master's transaction, and RESET, SAMPLE and
INPUT (93_implementation_defined U15). That the schedule is searched in order is the model's choice (log 8). -/
def Obligations.HeldMasterIssuesNothing : Prop :=
  (∀ s : State, s.waiter = true ∨ s.heldMasters = [] → (∀ e ∈ s.pending, s.Waits e) →
      step s = .next { s with readData := none, sampled := none, frameReady := false }) ∧
  (∀ (s : State) (k : Master) (r : BusReq) (before after : List Pending) (i : Instr) (tail : List Byte),
      s.pending = before ++ .bus k r :: after → (∀ e ∈ before, s.Waits e) → k ∉ s.heldMasters →
      decode (Packet.bus s.mode r).bytes = .ok (i, tail) → step s = exec i (s.begin k (before ++ after))) ∧
  ∀ (s : State) (before after : List Pending), (∀ e ∈ before, s.Waits e) →
    (s.pending = before ++ .reset :: after → step s = exec .reset (s.begin Master.first (before ++ after))) ∧
    (s.pending = before ++ .sample :: after → step s = exec .sample (s.begin Master.first (before ++ after))) ∧
    ∀ cs : List InputChange, s.pending = before ++ .input cs :: after →
      step s = exec (.input cs) (s.begin Master.first (before ++ after))

/-- 60_exceptions R340: no step faults and none is refused; every step, from every state, answers a next state. -/
def Obligations.EveryStepAnswersNext : Prop :=
  ∀ s : State, ∃ t, step s = .next t

/-! ## Invariants that every step keeps -/

/-- Every RAM region keeps its size (10_state R32 to R37) and its canonical form, which is the model's (log 22). -/
def Obligations.StepKeepsMemoriesGood : Prop :=
  ∀ s t : State, s.MemoriesGood → step s = .next t → t.MemoriesGood

/-- 10_state R40: the cached layers of a plane that is not dirty equal what its build rule computes. The statement asks
it in both modes; R40 in Enhanced mode. -/
def Obligations.StepKeepsLayersCoherent : Prop :=
  ∀ s t : State, s.LayersCoherent → step s = .next t → t.LayersCoherent

/-- 10_state R24, R25: in Enhanced mode never both planes off; `msPerFrame` stays in [10, 100]. -/
def Obligations.StepKeepsSubFlagsGood : Prop :=
  ∀ s t : State, s.SubFlagsGood → step s = .next t → t.SubFlagsGood

/-- 40_mode_control R141 (corner cases): while the mode is Classic, the Enhanced RAM, palette, scroll, order and image
have their reset values, because no Classic transaction can write them. -/
def Obligations.StepKeepsClassicPristine : Prop :=
  ∀ s t : State, s.ClassicPristine → step s = .next t → t.ClassicPristine

/-- 46_input_mirror R320: every step keeps the three key functions in their one form as plain data (log 11). -/
def Obligations.StepKeepsKeySetsGood : Prop :=
  ∀ s t : State, s.KeySetsGood → step s = .next t → t.KeySetsGood

/-- 60_exceptions R353: the controller presents nothing itself. Whatever a step does, the schedule after it is the schedule
before it with some entries taken away. The schedule is the model's choice (log 1). -/
def Obligations.StepOnlyConsumesTheSchedule : Prop :=
  ∀ s t : State, step s = .next t → t.pending.Sublist s.pending

/-- The five invariants hold after reset. -/
def Obligations.ResetMeetsTheInvariants : Prop :=
  State.reset.MemoriesGood ∧ State.reset.LayersCoherent ∧ State.reset.SubFlagsGood ∧ State.reset.ClassicPristine ∧
    State.reset.KeySetsGood

/-- The state after reset has the values 10_state R52 lists (`msPerFrame` and the layers, which R52 leaves open, are not
in the statement but for the range). -/
def Obligations.ResetValues : Prop :=
  let s := State.reset
  s.mode = .classic ∧ s.fbEnabled = true ∧ s.tmEnabled = false ∧ 10 ≤ s.msPerFrame ∧ s.msPerFrame ≤ 100 ∧
  s.fbInFront = false ∧ s.scx = 0 ∧ s.scy = 0 ∧ s.bg = ⟨0, 0, 0⟩ ∧
  (∀ e : Byte, e ≠ 0 → s.pal.get e = rampColor e.toNat) ∧
  (∀ a, s.back.read a = 0 ∧ s.front.read a = 0 ∧ s.fb.read a = 0 ∧ s.tmTable.read a = 0 ∧ s.tmGfx.read a = 0 ∧
    s.sprTable.read a = 0 ∧ s.sprGfx.read a = 0) ∧
  s.palDirty = true ∧ s.fbDirty = true ∧ s.tmDirty = true ∧ s.sprDirty = true ∧ s.outImage = none ∧
  s.keySel0 = 0 ∧ s.keySel1 = 0 ∧ s.keySel2 = 0 ∧ s.anomaly = false ∧ s.waiter = false

/-! ## Rules about the whole machine -/

/-- 40_mode_control R148: the mode state machine, over every instruction. -/
def Obligations.ModeStateMachine : Prop :=
  ∀ (i : Instr) (s t : State), exec i s = .next t →
    (∀ v, i = .cCtrlW v → v.toNat < Config.enhThreshold.toNat → t.mode = s.mode) ∧
    (∀ v, i = .cCtrlW v → Config.enhThreshold.toNat ≤ v.toNat → t.mode = .enhanced) ∧
    (i = .reset → t.mode = .classic) ∧
    ((∀ v, i ≠ .cCtrlW v) → i ≠ .reset → t.mode = s.mode)

/-- 10_state R23, 70_reset_and_hazards R371: between two RESETs Enhanced mode is never left, over runs of any length. -/
def Obligations.EnhancedModeIsNeverLeft : Prop :=
  ∀ (n : Nat) (s t : State), s.mode = .enhanced → Pending.reset ∉ s.pending →
    Host.Core.run Sys2Proof.core n s = .next t → t.mode = .enhanced

/-- 20_memory R84, 40_mode_control R141, 45_compositor R301: for every instruction but RESET, `outImage` changes only at a SYNC
write and `front` only at a Classic sync write; what SAMPLE returns changes only at these and at the C.CTRL.W that switches
to Enhanced mode. -/
def Obligations.OutImageAndFrontChangeOnlyAtTheirSync : Prop :=
  ∀ (i : Instr) (s t : State), exec i s = .next t → i ≠ .reset →
    (¬ enhancedSyncWrite i → t.outImage = s.outImage) ∧ (¬ classicSyncWrite i → t.front = s.front) ∧
    (¬ enhancedSyncWrite i → (∀ v, i ≠ .cCtrlW v) → t.sampleNow = s.sampleNow)

/-- 10_state R46, R47: only C.BEYOND.W sets `anomaly` and only RESET clears it; only C.CTRL.R sets `waiter` and only a sync
write or RESET clears it. -/
def Obligations.StickyFlags : Prop :=
  ∀ (i : Instr) (s t : State), exec i s = .next t → i ≠ .reset →
    (s.anomaly = true → t.anomaly = true) ∧
    (s.anomaly = false → t.anomaly = true → ∃ off d, i = .cBeyondW off d) ∧
    (s.waiter = true → t.waiter = false → classicSyncWrite i ∨ enhancedSyncWrite i) ∧
    (s.waiter = false → t.waiter = true → i = .cCtrlR)

/-- 70_reset_and_hazards R381: on a platform with one master, once its Classic sync read is held nothing releases it: in
runs of any length it stays held and none of its transactions runs, while the run itself goes on. The schedule and the
completion entries in it are the model's choice (logs 1, 8). -/
def Obligations.LoneMasterHangs : Prop :=
  ∀ (n : Nat) (s : State) (k : Master), s.waiter = true → k ∈ s.heldMasters → s.OnlyMaster k →
    ∃ t, Host.Core.run Sys2Proof.core n s = .next t ∧ t.waiter = true ∧ k ∈ t.heldMasters ∧
      t.pending.filter isBus = s.pending.filter isBus

/-- 20_memory R70: no read but the Classic sync read changes anything; it only returns a value (the output field is the
model's, log 10). -/
def Obligations.ReadsChangeNothing : Prop :=
  ∀ (i : Instr) (s : State), plainRead i = true → ∃ v : WVal, exec i s = .next { s with readData := some v }

/-- 45_compositor R290: the complete list of which step sets which dirty flag. -/
def Obligations.DirtyFlagTable : Prop :=
  ∀ (i : Instr) (s t : State), exec i s = .next t →
    match i with
    | .reset => t.palDirty = true ∧ t.fbDirty = true ∧ t.tmDirty = true ∧ t.sprDirty = true
    | .ePalW off d =>
      t.palDirty = (s.palDirty || (!(palEntry off == 0) && !(palLane off == 3 && d.width == .one))) ∧
        t.fbDirty = s.fbDirty ∧ t.tmDirty = s.tmDirty ∧ t.sprDirty = s.sprDirty
    | .ePalResetW _ => t.palDirty = true ∧ t.fbDirty = s.fbDirty ∧ t.tmDirty = s.tmDirty ∧ t.sprDirty = s.sprDirty
    | .eFbW _ _ | .eFbClearW _ =>
      t.palDirty = s.palDirty ∧ t.fbDirty = true ∧ t.tmDirty = s.tmDirty ∧ t.sprDirty = s.sprDirty
    | .eTmtW _ _ | .eTmgW _ _ | .eTmScxW _ | .eTmScyW _ =>
      t.palDirty = s.palDirty ∧ t.fbDirty = s.fbDirty ∧ t.tmDirty = true ∧ t.sprDirty = s.sprDirty
    | .eSptW _ _ | .eSpgW _ _ =>
      t.palDirty = s.palDirty ∧ t.fbDirty = s.fbDirty ∧ t.tmDirty = s.tmDirty ∧ t.sprDirty = true
    | .eSyncW _ =>
      t.palDirty = false ∧ t.fbDirty = ((s.fbDirty || s.palDirty) && !s.fbEnabled) ∧
        t.tmDirty = ((s.tmDirty || s.palDirty) && !s.tmEnabled) ∧ t.sprDirty = false
    | _ => t.palDirty = s.palDirty ∧ t.fbDirty = s.fbDirty ∧ t.tmDirty = s.tmDirty ∧ t.sprDirty = s.sprDirty

/-! ## The Mode Controller -/

/-- 40_mode_control R140 to R143: C.CTRL.W below the threshold is the Classic sync write, at or above it the switch. -/
def Obligations.ClassicControlWrite : Prop :=
  (∀ (s : State) (v : Word), v.toNat < Config.enhThreshold.toNat →
      ∃ t, exec (.cCtrlW v) s = .next t ∧
        t = { s with front := s.back, back := t.back, waiter := false, frameReady := true } ∧
        (v = 0 → t.back = s.back) ∧ (v ≠ 0 → ∀ a, t.back.read a = 0)) ∧
  ∀ (s : State) (v : Word), Config.enhThreshold.toNat ≤ v.toNat →
    exec (.cCtrlW v) s = .next { s with
      mode := .enhanced, fbEnabled := (v.extractLsb' 0 2 == 0#2) || v.getLsbD 0, tmEnabled := v.getLsbD 1,
      msPerFrame := min 100 (max 10 (v.toNat / 65536 % 256)) }

/-- 40_mode_control R144: E.CTRL.W re-derives the sub-flags from any value, with the table of the mode field. -/
def Obligations.EnhancedControlWrite : Prop :=
  ∀ (s : State) (v : Word), ∃ t, exec (.eCtrlW v) s = .next t ∧
    t = { s with fbEnabled := t.fbEnabled, tmEnabled := t.tmEnabled, msPerFrame := t.msPerFrame } ∧
    (t.fbEnabled = true ↔ v.toNat % 4 ≠ 2) ∧ (t.tmEnabled = true ↔ v.toNat % 4 ≥ 2) ∧
    t.msPerFrame = min 100 (max 10 (v.toNat / 65536 % 256))

/-- 40_mode_control R146: only bit 0 of ORDER counts, and no other field changes. -/
def Obligations.OrderWrite : Prop :=
  ∀ (s : State) (v : Word), exec (.eOrderW v) s = .next { s with fbInFront := decide (v.toNat % 2 = 1) }

/-- 40_mode_control R151: the Classic sync read sets `waiter` and its master is held; while `waiter` is false the held read
completes: it returns 0x00000000 to its master and frees it, at a completion entry that is the first not to wait, or, where
every entry waits, in the next step. 70_reset_and_hazards R370: so does a read held at the time of RESET, in the step after
it. That the completion is an entry of the schedule or the step of an idle schedule, and whose read completes first there,
is the model's choice (log 8). -/
def Obligations.ClassicSyncReadHoldsAndCompletes : Prop :=
  (∀ s : State, exec .cCtrlR s = .next { s with waiter := true, heldMasters := s.heldMasters ++ [s.busMaster] }) ∧
  (∀ (s : State) (k : Master) (before after : List Pending), s.pending = before ++ .complete k :: after →
    (∀ e ∈ before, s.Waits e) → k ∈ s.heldMasters → s.waiter = false →
    step s = .next { s with pending := before ++ after, heldMasters := s.heldMasters.erase k, busMaster := k,
                            readData := some (.b4 0), sampled := none, frameReady := false }) ∧
  (∀ (s : State) (k : Master) (others : List Master), s.heldMasters = k :: others → s.waiter = false →
    (∀ e ∈ s.pending, s.Waits e) →
    step s = .next { s with heldMasters := others, busMaster := k, readData := some (.b4 0), sampled := none,
                            frameReady := false }) ∧
  ∀ (s : State) (k : Master) (others : List Master), s.heldMasters = k :: others →
    (∀ e ∈ s.pending, ∃ j r, e = Pending.bus j r ∧ j ∈ s.heldMasters) →
    ∃ t u, exec .reset s = .next t ∧ step t = .next u ∧ u.readData = some (.b4 0) ∧ u.busMaster = k ∧
      u.heldMasters = others

/-! ## The Palette Store -/

/-- 41_palette R173 to R176, R179: a palette write over all widths and lanes. Byte 3 alone is ignored; entry 0 goes to `bg`
and sets no flag; each of the lanes blue, green, red that the access covers takes its byte and the others keep theirs. -/
def Obligations.PaletteWriteByLanes : Prop :=
  ∀ (s : State) (off : Offset) (d : WVal), 0x0C00 ≤ off.toNat → off.toNat ≤ 0x0FFF →
    off.toNat % d.width.bytes = 0 →
    let e : Byte := BitVec.ofNat 8 ((off.toNat - 0x0C00) / 4)
    let k := (off.toNat - 0x0C00) % 4
    let new : Byte → Nat → Byte := fun old lane =>
      if k ≤ lane ∧ lane < k + d.width.bytes then byteOf d.toWord (lane - k) else old
    let recolor : RGB → RGB := fun c => ⟨new c.r 2, new c.g 1, new c.b 0⟩
    ∃ t, exec (.ePalW off d) s = .next t ∧
      (d.width = .one ∧ k = 3 → t = s) ∧
      (¬(d.width = .one ∧ k = 3) → e = 0 → t = { s with bg := recolor s.bg }) ∧
      (¬(d.width = .one ∧ k = 3) → e ≠ 0 → t = { s with pal := t.pal, palDirty := true } ∧
        t.pal.get e = recolor (s.pal.get e) ∧ ∀ f : Byte, f ≠ 0 → f ≠ e → t.pal.get f = s.pal.get f)

/-- 41_palette R178: a palette read returns the lanes blue, green, red, 0 of `bg` (entry 0) or `pal[e]`, and changes
nothing else. -/
def Obligations.PaletteReadByLanes : Prop :=
  ∀ (s : State) (off : Offset) (w : Width), 0x0C00 ≤ off.toNat → off.toNat ≤ 0x0FFF → off.toNat % w.bytes = 0 →
    let e : Byte := BitVec.ofNat 8 ((off.toNat - 0x0C00) / 4)
    let k := (off.toNat - 0x0C00) % 4
    let c := if e = 0 then s.bg else s.pal.get e
    ∃ v : WVal, exec (.ePalR off w) s = .next { s with readData := some v } ∧ v.width = w ∧
      ∀ j, j < w.bytes →
        byteOf v.toWord j = if k + j = 0 then c.b else if k + j = 1 then c.g else if k + j = 2 then c.r else 0

/-- 41_palette R177, R181: PAL_RESET restores the default ramp of R172 and black `bg`, and marks the palette. -/
def Obligations.PaletteResetRestoresRamp : Prop :=
  ∀ (s : State) (v : Word), ∃ t, exec (.ePalResetW v) s = .next t ∧
    t = { s with pal := t.pal, bg := ⟨0, 0, 0⟩, palDirty := true } ∧
    ∀ e : Byte, e ≠ 0 → t.pal.get e = rampColor e.toNat

/-- 41_palette R176, 95_test_vectors E2: a word written to entry e reads back without its top byte; written to entry 0 it
changes `bg` alone. -/
def Obligations.PaletteWordReadsBack : Prop :=
  ∀ (s t : State) (off : Offset) (v : Word), 0x0C00 ≤ off.toNat → off.toNat ≤ 0x0FFF → off.toNat % 4 = 0 →
    exec (.ePalW off (.b4 v)) s = .next t →
    exec (.ePalR off .four) t = .next { t with readData := some (.b4 (BitVec.ofNat 32 (v.toNat % 2 ^ 24))) } ∧
    (off.toNat = 0x0C00 → t = { s with bg := ⟨byteOf v 2, byteOf v 1, byteOf v 0⟩ })

/-! ## RAM -/

/-- 42_framebuffer R200, R210; 43_tilemap R230, R232; 44_sprite R262: the stores to RAM, little-endian, with the dirty flag
of the plane, at the offset less the region's base. -/
def Obligations.RamStores : Prop :=
  StoresAt .cBackW 0x0008 0x1007 (fun off => off.toNat - 0x0008) State.back (fun s t => t = { s with back := t.back }) ∧
  StoresAt .eFbW 0x1000 0x4FFF (fun off => off.toNat - 0x1000) State.fb
    (fun s t => t = { s with fb := t.fb, fbDirty := true }) ∧
  StoresAt .eTmtW 0x5000 0x57FF (fun off => off.toNat - 0x5000) State.tmTable
    (fun s t => t = { s with tmTable := t.tmTable, tmDirty := true }) ∧
  StoresAt .eTmgW 0x6000 0x9FFF (fun off => off.toNat - 0x6000) State.tmGfx
    (fun s t => t = { s with tmGfx := t.tmGfx, tmDirty := true }) ∧
  StoresAt .eSpgW 0xA000 0xDFFF (fun off => off.toNat - 0xA000) State.sprGfx
    (fun s t => t = { s with sprGfx := t.sprGfx, sprDirty := true })

/-- 44_sprite R260, R261: the store to the sprite table and the read of it. That the second half of its region reaches the
same 1024 bytes is DEDUCED from 95_test_vectors V-DEC-2 (log 5). -/
def Obligations.SpriteTableStoreAndRead : Prop :=
  StoresAt .eSptW 0x5800 0x5FFF sprTableIndex State.sprTable
    (fun s t => t = { s with sprTable := t.sprTable, sprDirty := true }) ∧
  LoadsFrom .eSptR 0x5800 0x5FFF sprTableIndex State.sprTable ∧
  (∀ off : Offset, 0x5800 ≤ off.toNat → off.toNat < 0x5C00 → sprTableIndex off = off.toNat - 0x5800) ∧
  ∀ off : Offset, 0x5C00 ≤ off.toNat → off.toNat ≤ 0x5FFF → sprTableIndex off = off.toNat - 0x5C00

/-- 42_framebuffer R201, R211; 43_tilemap R231, R233; 44_sprite R263: the reads of RAM return the stored bytes,
little-endian, and change nothing. -/
def Obligations.RamReads : Prop :=
  LoadsFrom .cBackR 0x0008 0x1007 (fun off => off.toNat - 0x0008) State.back ∧
  LoadsFrom .eFbR 0x1000 0x4FFF (fun off => off.toNat - 0x1000) State.fb ∧
  LoadsFrom .eTmtR 0x5000 0x57FF (fun off => off.toNat - 0x5000) State.tmTable ∧
  LoadsFrom .eTmgR 0x6000 0x9FFF (fun off => off.toNat - 0x6000) State.tmGfx ∧
  LoadsFrom .eSpgR 0xA000 0xDFFF (fun off => off.toNat - 0xA000) State.sprGfx



/-- 20_memory R62: a value stored in a region reads back at its own width, and a stored word reads back as its four
bytes, low byte first, and as its two halves. -/
def Obligations.StoredValuesReadBack : Prop :=
  (∀ (m : Memory) (i : Nat) (d : WVal), m.wf → (m.store i d).load i d.width = d) ∧
  ∀ (m : Memory) (i : Nat) (v : Word), m.wf →
    (∀ j, j < 4 → (m.store i (.b4 v)).load (i + j) .one = .b1 (BitVec.ofNat 8 (v.toNat / 256 ^ j))) ∧
    (m.store i (.b4 v)).load i .two = .b2 (BitVec.ofNat 16 v.toNat) ∧
    (m.store i (.b4 v)).load (i + 2) .two = .b2 (BitVec.ofNat 16 (v.toNat / 65536))

/-- 42_framebuffer R213: FB_CLEAR zeroes every byte of the framebuffer, marks it, and changes nothing else. -/
def Obligations.FramebufferClear : Prop :=
  ∀ (s : State) (v : Word), ∃ t, exec (.eFbClearW v) s = .next t ∧ t = { s with fb := t.fb, fbDirty := true } ∧
    ∀ a, t.fb.read a = 0

/-! ## Transactions without a function -/

/-- 30_encoding R125, R127, R129; 42_framebuffer R202; 46_input_mirror R326, R328: the ignored writes change nothing. -/
def Obligations.IgnoredWritesChangeNothing : Prop :=
  ∀ (s : State) (m : Mode) (off : Offset) (d : WVal) (v : Word),
    exec (.cDeadW off d) s = .next s ∧ exec (.eUnusedW off d) s = .next s ∧ exec (.narrowW m off d) s = .next s ∧
    exec (.misalignedW m off d) s = .next s ∧ exec (.cKeysW v) s = .next s ∧ exec (.eMouseXW v) s = .next s ∧
    exec (.eMouseYW v) s = .next s ∧ exec (.eMouseHeldW v) s = .next s ∧ exec (.eMousePressedW v) s = .next s ∧
    exec (.eMouseReleasedW v) s = .next s

/-- 42_framebuffer R203: a write beyond the Classic dead zone sets `anomaly` and changes nothing else. -/
def Obligations.BeyondDeadZoneSetsAnomaly : Prop :=
  ∀ (s : State) (off : Offset) (d : WVal), exec (.cBeyondW off d) s = .next { s with anomaly := true }

/-- 20_memory R72, R73, R74; 30_encoding R126, R128, R130; 42_framebuffer R204: the reads without a value return 0 at their
width and change nothing. -/
def Obligations.ReadsWithoutValueReturnZero : Prop :=
  (∀ (s : State) (i : Instr),
      i ∈ [.eCtrlR, .eOrderR, .eSyncR, .eFbClearR, .ePalResetR, .eTmScxR, .eTmScyR] →
      exec i s = .next { s with readData := some (.b4 0) }) ∧
  ∀ (s : State) (m : Mode) (off : Offset) (w : Width) (i : Instr),
    i ∈ [.cDeadR off w, .cBeyondR off w, .eUnusedR off w, .narrowR m off w, .misalignedR m off w] →
    ∃ v : WVal, exec i s = .next { s with readData := some v } ∧ v.width = w ∧ v.toWord = 0

/-! ## The Tilemap Plane -/

/-- 43_tilemap R236, R237: a scroll write stores the word, marks the tilemap and changes nothing else. -/
def Obligations.ScrollWrites : Prop :=
  ∀ (s : State) (v : Word), exec (.eTmScxW v) s = .next { s with scx := v, tmDirty := true } ∧
    exec (.eTmScyW v) s = .next { s with scy := v, tmDirty := true }

/-- 43_tilemap R240: every pixel of the two tilemap layers, by the rule's formulas over the bytes of the table and the
bank. -/
def Obligations.TilemapLayerPixels : Prop :=
  ∀ (pal : Palette) (table gfx : Memory) (scx scy : Word) (x y : Nat), x < 128 → y < 128 →
    let u := x + (scx.toInt % 256).toNat
    let v := y + (scy.toInt % 256).toNat
    let n := 32 * (v / 8 % 32) + u / 8 % 32
    let t := (table.read (2 * n)).toNat
    let f := (table.read (2 * n + 1)).toNat
    let tx := if f % 2 = 1 then 7 - u % 8 else u % 8
    let ty := if f / 2 % 2 = 1 then 7 - v % 8 else v % 8
    let c := gfx.read (64 * t + 8 * ty + tx)
    let p := if c = 0 then none else some (pal.get c)
    (tmLoOf pal table gfx scx scy).pixel x y = (if f / 4 % 2 = 1 then none else p) ∧
      (tmHiOf pal table gfx scx scy).pixel x y = if f / 4 % 2 = 1 then p else none

/-- 30_encoding R120 (6), R121 (c); 95_test_vectors E5: only the low eight bits of a scroll value can be observed in the
layers; in particular -1 behaves as 255. -/
def Obligations.ScrollWrapsModulo256 : Prop :=
  (∀ (pal : Palette) (table gfx : Memory) (a b c d : Word), a.toNat % 256 = c.toNat % 256 →
      b.toNat % 256 = d.toNat % 256 →
      tmLoOf pal table gfx a b = tmLoOf pal table gfx c d ∧ tmHiOf pal table gfx a b = tmHiOf pal table gfx c d) ∧
  ∀ v : Word, effectiveScroll v = v.toNat % 256

/-! ## The Sprite Plane -/

/-- 44_sprite R264: the sprite layer is what the rule's loop paints: sprites 255 down to 0, each pixel that is on the
screen and opaque over what was there. -/
def Obligations.SpriteLayerIsThePaintedLoop : Prop :=
  ∀ (pal : Palette) (table gfx : Memory), sprLayerOf pal table gfx = paintSprites pal table gfx

/-- 30_encoding R117, 44_sprite R264 to R267: what sprite `n` shows at screen pixel (x, y), by the rule's formulas over the
bytes of the table and the bank, and when it is enabled. -/
def Obligations.SpritePixelFormula : Prop :=
  ∀ (pal : Palette) (table gfx : Memory) (n x y : Nat), x < 128 → y < 128 →
    let signed8 : Byte → Int := fun b => if b.toNat < 128 then b.toNat else (b.toNat : Int) - 256
    let t := (table.read (4 * n + 2)).toNat
    let f := (table.read (4 * n + 3)).toNat
    let side : Nat := if f / 8 % 2 = 1 then 16 else 8
    let dx := (x : Int) - signed8 (table.read (4 * n))
    let dy := (y : Int) - signed8 (table.read (4 * n + 1))
    let px := dx.toNat
    let py := dy.toNat
    let sx := if f / 2 % 2 = 1 then side - 1 - px else px
    let sy := if f / 4 % 2 = 1 then side - 1 - py else py
    let c := gfx.read (64 * ((t + (2 * (sy / 8) + sx / 8)) % 256) + 8 * (sy % 8) + sx % 8)
    let index : Byte := BitVec.ofNat 8 (c.toNat + 16 * (f / 16))
    ((spriteEntry table n).enable = true ↔ f % 2 = 1) ∧
    (0 ≤ dx ∧ dx < side ∧ 0 ≤ dy ∧ dy < side →
      (spriteEntry table n).at pal gfx x y = if c = 0 ∨ index = 0 then none else some (pal.get index)) ∧
    (¬(0 ≤ dx ∧ dx < side ∧ 0 ≤ dy ∧ dy < side) → (spriteEntry table n).at pal gfx x y = none)

/-- 44_sprite R268, R269: at a pixel the lowest-numbered enabled sprite that is opaque there shows; where none is, the layer
is transparent. -/
def Obligations.LowestOpaqueSpriteShows : Prop :=
  ∀ (pal : Palette) (table gfx : Memory) (x y : Nat), x < 128 → y < 128 →
    (∀ (n : Nat) (c : RGB), n < 256 → (spriteEntry table n).enable = true →
      (spriteEntry table n).at pal gfx x y = some c →
      (∀ k, k < n → (spriteEntry table k).enable = true → (spriteEntry table k).at pal gfx x y = none) →
      (sprLayerOf pal table gfx).pixel x y = some c) ∧
    ((∀ k, k < 256 → (spriteEntry table k).enable = true → (spriteEntry table k).at pal gfx x y = none) →
      (sprLayerOf pal table gfx).pixel x y = none)

/-! ## The Compositor -/

/-- 42_framebuffer R212: every pixel of the framebuffer layer. -/
def Obligations.FramebufferLayerPixels : Prop :=
  ∀ (pal : Palette) (fb : Memory) (x y : Nat), x < 128 → y < 128 →
    (fbLayerOf pal fb).pixel x y =
      if fb.read (128 * y + x) = 0 then none else some (pal.get (fb.read (128 * y + x)))

/-- 45_compositor R296: every pixel of a merge, layer by layer in the mandated order, for all settings. -/
def Obligations.MergeOrder : Prop :=
  ∀ (s : State) (f lo sp hi : Layer) (x y : Nat), x < 128 → y < 128 →
    let onTop : RGB → Option RGB → RGB := fun p l => match l with | some c => c | none => p
    let p0 := s.bg
    let back := fun p => if s.fbEnabled = true then onTop p (f.pixel x y) else p
    let tiles := fun p => if s.tmEnabled = true then onTop p (lo.pixel x y) else p
    let sprites := fun p => onTop p (sp.pixel x y)
    let priority := fun p => if s.tmEnabled = true then onTop p (hi.pixel x y) else p
    (s.mergeOf f lo sp hi).pixel x y =
      some (if s.fbInFront = true then back (priority (sprites (tiles p0))) else priority (sprites (tiles (back p0))))

/-- 45_compositor R291 to R295: SYNC propagates a dirty palette, rebuilds the dirty enabled planes, merges the cached layers
into the image, releases a held read, pulses frame-ready, and changes nothing else. -/
def Obligations.SyncWrite : Prop :=
  ∀ (s : State) (v : Word), ∃ t, exec (.eSyncW v) s = .next t ∧
    t = { s with
      palDirty := false, fbDirty := t.fbDirty, tmDirty := t.tmDirty, sprDirty := false, fbLayer := t.fbLayer,
      tmLo := t.tmLo, tmHi := t.tmHi, sprLayer := t.sprLayer, outImage := t.outImage, waiter := false,
      frameReady := true } ∧
    t.fbDirty = ((s.fbDirty || s.palDirty) && !s.fbEnabled) ∧ t.tmDirty = ((s.tmDirty || s.palDirty) && !s.tmEnabled) ∧
    t.fbLayer = (if s.fbEnabled && (s.fbDirty || s.palDirty) then fbLayerOf s.pal s.fb else s.fbLayer) ∧
    t.tmLo = (if s.tmEnabled && (s.tmDirty || s.palDirty) then tmLoOf s.pal s.tmTable s.tmGfx s.scx s.scy else s.tmLo) ∧
    t.tmHi = (if s.tmEnabled && (s.tmDirty || s.palDirty) then tmHiOf s.pal s.tmTable s.tmGfx s.scx s.scy else s.tmHi) ∧
    t.sprLayer = (if s.sprDirty || s.palDirty then sprLayerOf s.pal s.sprTable s.sprGfx else s.sprLayer) ∧
    t.outImage = some (s.mergeOf t.fbLayer t.tmLo t.sprLayer t.tmHi)

/-- 45_compositor R298: from a state whose cached layers are coherent (10_state R40), SYNC publishes the image computed from
current RAM, registers and palette alone: no dirty flag and no cached layer can be seen. -/
def Obligations.SyncPublishesTheImageOfCurrentRam : Prop :=
  ∀ (s : State) (v : Word), s.LayersCoherent → ∃ t, exec (.eSyncW v) s = .next t ∧ t.outImage = some s.image

/-- 45_compositor R295 (corner cases): a second SYNC write with nothing between leaves the picture as it is. -/
def Obligations.SyncTwiceSamePicture : Prop :=
  ∀ (s t : State) (v w : Word), exec (.eSyncW v) s = .next t → ∃ u, exec (.eSyncW w) t = .next u ∧ u.outImage = t.outImage

/-- 45_compositor R299, generalised from its one pixel: framebuffer only, where no sprite shows, SYNC publishes the pixel's
palette colour, and the background colour where the pixel's index is 0. -/
def Obligations.FramebufferOnlyPicture : Prop :=
  ∀ (s : State) (v : Word) (x y : Nat), s.LayersCoherent → s.fbEnabled = true → s.tmEnabled = false → x < 128 → y < 128 →
    (sprLayerOf s.pal s.sprTable s.sprGfx).pixel x y = none →
    ∃ (t : State) (image : Frame), exec (.eSyncW v) s = .next t ∧ t.outImage = some image ∧
      image.pixel x y =
        some (if s.fb.read (128 * y + x) = 0 then s.bg else s.pal.get (s.fb.read (128 * y + x)))

/-- 10_state R40: the dirty flags and the cached layers cannot be observed: two coherent states that differ in nothing else
take the same step, to states that differ in nothing else, whatever the step is. -/
def Obligations.CachesAreUnobservable : Prop :=
  ∀ s s' t : State, s.LayersCoherent → s'.LayersCoherent → s.SameButCaches s' → step s = .next t →
    ∃ t', step s' = .next t' ∧ t.SameButCaches t'

/-- 45_compositor R301, 42_framebuffer R206: SAMPLE returns the image of the current mode and changes nothing else. -/
def Obligations.SampleReturnsTheImage : Prop :=
  (∀ s : State, s.mode = .classic → ∃ image : ClassicImage,
      exec .sample s = .next { s with sampled := some (.classic image) } ∧
      ∀ x y, x < 64 → y < 64 →
        image.pixel x y = some (Config.classicColors (BitVec.ofNat 4 (s.front.read (64 * y + x)).toNat))) ∧
  ∀ s : State, s.mode = .enhanced → exec .sample s = .next { s with sampled := some (.enhanced s.outImage) }

/-! ## The Input Mirror -/

/-- 46_input_mirror R322, R323: each key register has its own latch; a read returns 1 or 0 for the latched key and keeps the
latch. -/
def Obligations.KeyRegisters : Prop :=
  ∀ (s : State) (v : Word),
    exec (.eKeyHeldW v) s = .next { s with keySel0 := v } ∧ exec (.eKeyPressedW v) s = .next { s with keySel1 := v } ∧
    exec (.eKeyReleasedW v) s = .next { s with keySel2 := v } ∧
    exec .eKeyHeldR s = .next { s with readData := some (.b4 (if s.keySel0.toNat ∈ s.inputs.held then 1 else 0)) } ∧
    exec .eKeyPressedR s =
      .next { s with readData := some (.b4 (if s.keySel1.toNat ∈ s.inputs.pressed then 1 else 0)) } ∧
    exec .eKeyReleasedR s =
      .next { s with readData := some (.b4 (if s.keySel2.toNat ∈ s.inputs.released then 1 else 0)) }

/-- 46_input_mirror R324, R325, R327: the mouse registers and the Classic key word return the collaborator's current
values. -/
def Obligations.MouseAndClassicKeyReads : Prop :=
  ∀ s : State,
    exec .eMouseXR s = .next { s with readData := some (.b4 s.inputs.mouseX) } ∧
    exec .eMouseYR s = .next { s with readData := some (.b4 s.inputs.mouseY) } ∧
    exec .eMouseHeldR s = .next { s with readData := some (.b4 s.inputs.mouseHeld) } ∧
    exec .eMousePressedR s = .next { s with readData := some (.b4 s.inputs.mousePressed) } ∧
    exec .eMouseReleasedR s = .next { s with readData := some (.b4 s.inputs.mouseReleased) } ∧
    exec .cKeysR s = .next { s with readData := some (.b4 s.inputs.classicKeys) }

/-- 46_input_mirror R320, R321: INPUT changes the collaborator's values and nothing else; each of the nine kinds of change sets
its own value and no other; no change at all is no effect, and several changes are one after the other. The form of the
changes is the model's (log 11). -/
def Obligations.InputEventChangesOnlyInputs : Prop :=
  (∀ (s : State) (cs : List InputChange), ∃ v : Inputs, exec (.input cs) s = .next { s with inputs := v }) ∧
  KeyChangeSets .held Inputs.held (fun v ks => { v with held := ks }) ∧
  KeyChangeSets .pressed Inputs.pressed (fun v ks => { v with pressed := ks }) ∧
  KeyChangeSets .released Inputs.released (fun v ks => { v with released := ks }) ∧
  WordChangeSets .mouseX (fun v w => { v with mouseX := w }) ∧
  WordChangeSets .mouseY (fun v w => { v with mouseY := w }) ∧
  WordChangeSets .mouseHeld (fun v w => { v with mouseHeld := w }) ∧
  WordChangeSets .mousePressed (fun v w => { v with mousePressed := w }) ∧
  WordChangeSets .mouseReleased (fun v w => { v with mouseReleased := w }) ∧
  WordChangeSets .classicKeys (fun v w => { v with classicKeys := w }) ∧
  (∀ s : State, exec (.input []) s = .next s) ∧
  ∀ (s t : State) (cs ds : List InputChange), exec (.input cs) s = .next t →
    exec (.input (cs ++ ds)) s = exec (.input ds) t

/-! ## RESET -/

/-- 70_reset_and_hazards R370: after the RESET event the controller has the values of 10_state R52, `msPerFrame` some value in
[10, 100]; what the agents outside hold stays (log 12). -/
def Obligations.ResetEventValues : Prop :=
  ∀ s : State, ∃ t, exec .reset s = .next t ∧
    t = { State.reset with
      msPerFrame := t.msPerFrame, fbLayer := t.fbLayer, tmLo := t.tmLo, tmHi := t.tmHi, sprLayer := t.sprLayer,
      inputs := s.inputs, pending := s.pending, heldMasters := s.heldMasters, busMaster := s.busMaster,
      readData := s.readData, sampled := s.sampled, frameReady := s.frameReady, freeCount := t.freeCount } ∧
    10 ≤ t.msPerFrame ∧ t.msPerFrame ≤ 100
end

