-- ==== Sys2Proof/Laws/Image.lean ====
section
/-!
SUPPORT. Reading a pixel of a built image gives the pixel that was built.
-/

namespace Sys2Proof

@[simp] theorem tabulate_get {α : Type} (n : Nat) (f : Nat → α) (i : Nat) (h : i < n) :
    (tabulate n f)[i] = f i := by
  simp [tabulate]

theorem tabulate_get? {α : Type} (n : Nat) (f : Nat → α) (i : Nat) :
    (tabulate n f)[i]? = if i < n then some (f i) else none := by
  by_cases h : i < n
  · simp [h]
  · simp [h]

theorem tabulate_congr {α : Type} (n : Nat) (f g : Nat → α) (h : ∀ i, i < n → f i = g i) :
    tabulate n f = tabulate n g := by
  ext i hi
  simp [h i hi]

theorem Layer.build_pixel (f : Nat → Nat → Option RGB) (x y : Nat) (hx : x < 128) (hy : y < 128) :
    (Layer.build f).pixel x y = f x y := by
  have h : 128 * y + x < 16384 := by omega
  have h1 : (128 * y + x) % 128 = x := by omega
  have h2 : (128 * y + x) / 128 = y := by omega
  simp [Layer.pixel, Layer.build, h, h1, h2]

theorem Frame.build_pixel (f : Nat → Nat → RGB) (x y : Nat) (hx : x < 128) (hy : y < 128) :
    (Frame.build f).pixel x y = some (f x y) := by
  have h : 128 * y + x < 16384 := by omega
  have h1 : (128 * y + x) % 128 = x := by omega
  have h2 : (128 * y + x) / 128 = y := by omega
  simp [Frame.pixel, Frame.build, h, h1, h2]

theorem ClassicImage.build_pixel (f : Nat → Nat → RGB) (x y : Nat) (hx : x < 64) (hy : y < 64) :
    (ClassicImage.build f).pixel x y = some (f x y) := by
  have h : 64 * y + x < 4096 := by omega
  have h1 : (64 * y + x) % 64 = x := by omega
  have h2 : (64 * y + x) / 64 = y := by omega
  simp [ClassicImage.pixel, ClassicImage.build, h, h1, h2]

theorem Layer.build_congr (f g : Nat → Nat → Option RGB) (h : ∀ x y, x < 128 → y < 128 → f x y = g x y) :
    Layer.build f = Layer.build g :=
  tabulate_congr _ _ _ (fun i hi => h _ _ (by omega) (by omega))

theorem Frame.build_congr (f g : Nat → Nat → RGB) (h : ∀ x y, x < 128 → y < 128 → f x y = g x y) :
    Frame.build f = Frame.build g :=
  tabulate_congr _ _ _ (fun i hi => h _ _ (by omega) (by omega))

end Sys2Proof
end

