-- ==== Sys2Proof/Laws/State.lean ====
section
/-!
SUPPORT. One lemma for each field of State and each named update: what the field is after the update, true by rfl.
-/

namespace Sys2Proof.Machine

/-! ### quiet -/

@[simp] theorem State.quiet_mode (s : State) : s.quiet.mode = s.mode := rfl
@[simp] theorem State.quiet_fbEnabled (s : State) : s.quiet.fbEnabled = s.fbEnabled := rfl
@[simp] theorem State.quiet_tmEnabled (s : State) : s.quiet.tmEnabled = s.tmEnabled := rfl
@[simp] theorem State.quiet_msPerFrame (s : State) : s.quiet.msPerFrame = s.msPerFrame := rfl
@[simp] theorem State.quiet_fbInFront (s : State) : s.quiet.fbInFront = s.fbInFront := rfl
@[simp] theorem State.quiet_scx (s : State) : s.quiet.scx = s.scx := rfl
@[simp] theorem State.quiet_scy (s : State) : s.quiet.scy = s.scy := rfl
@[simp] theorem State.quiet_pal (s : State) : s.quiet.pal = s.pal := rfl
@[simp] theorem State.quiet_bg (s : State) : s.quiet.bg = s.bg := rfl
@[simp] theorem State.quiet_back (s : State) : s.quiet.back = s.back := rfl
@[simp] theorem State.quiet_front (s : State) : s.quiet.front = s.front := rfl
@[simp] theorem State.quiet_fb (s : State) : s.quiet.fb = s.fb := rfl
@[simp] theorem State.quiet_tmTable (s : State) : s.quiet.tmTable = s.tmTable := rfl
@[simp] theorem State.quiet_tmGfx (s : State) : s.quiet.tmGfx = s.tmGfx := rfl
@[simp] theorem State.quiet_sprTable (s : State) : s.quiet.sprTable = s.sprTable := rfl
@[simp] theorem State.quiet_sprGfx (s : State) : s.quiet.sprGfx = s.sprGfx := rfl
@[simp] theorem State.quiet_palDirty (s : State) : s.quiet.palDirty = s.palDirty := rfl
@[simp] theorem State.quiet_fbDirty (s : State) : s.quiet.fbDirty = s.fbDirty := rfl
@[simp] theorem State.quiet_tmDirty (s : State) : s.quiet.tmDirty = s.tmDirty := rfl
@[simp] theorem State.quiet_sprDirty (s : State) : s.quiet.sprDirty = s.sprDirty := rfl
@[simp] theorem State.quiet_fbLayer (s : State) : s.quiet.fbLayer = s.fbLayer := rfl
@[simp] theorem State.quiet_tmLo (s : State) : s.quiet.tmLo = s.tmLo := rfl
@[simp] theorem State.quiet_tmHi (s : State) : s.quiet.tmHi = s.tmHi := rfl
@[simp] theorem State.quiet_sprLayer (s : State) : s.quiet.sprLayer = s.sprLayer := rfl
@[simp] theorem State.quiet_outImage (s : State) : s.quiet.outImage = s.outImage := rfl
@[simp] theorem State.quiet_keySel0 (s : State) : s.quiet.keySel0 = s.keySel0 := rfl
@[simp] theorem State.quiet_keySel1 (s : State) : s.quiet.keySel1 = s.keySel1 := rfl
@[simp] theorem State.quiet_keySel2 (s : State) : s.quiet.keySel2 = s.keySel2 := rfl
@[simp] theorem State.quiet_anomaly (s : State) : s.quiet.anomaly = s.anomaly := rfl
@[simp] theorem State.quiet_waiter (s : State) : s.quiet.waiter = s.waiter := rfl
@[simp] theorem State.quiet_inputs (s : State) : s.quiet.inputs = s.inputs := rfl
@[simp] theorem State.quiet_pending (s : State) : s.quiet.pending = s.pending := rfl
@[simp] theorem State.quiet_heldMasters (s : State) : s.quiet.heldMasters = s.heldMasters := rfl
@[simp] theorem State.quiet_busMaster (s : State) : s.quiet.busMaster = s.busMaster := rfl
@[simp] theorem State.quiet_readData (s : State) : s.quiet.readData = none := rfl
@[simp] theorem State.quiet_sampled (s : State) : s.quiet.sampled = none := rfl
@[simp] theorem State.quiet_frameReady (s : State) : s.quiet.frameReady = false := rfl
@[simp] theorem State.quiet_freeCount (s : State) : s.quiet.freeCount = s.freeCount := rfl

/-! ### reply -/

@[simp] theorem State.reply_mode (s : State) (d : WVal) : (s.reply d).mode = s.mode := rfl
@[simp] theorem State.reply_fbEnabled (s : State) (d : WVal) : (s.reply d).fbEnabled = s.fbEnabled := rfl
@[simp] theorem State.reply_tmEnabled (s : State) (d : WVal) : (s.reply d).tmEnabled = s.tmEnabled := rfl
@[simp] theorem State.reply_msPerFrame (s : State) (d : WVal) : (s.reply d).msPerFrame = s.msPerFrame := rfl
@[simp] theorem State.reply_fbInFront (s : State) (d : WVal) : (s.reply d).fbInFront = s.fbInFront := rfl
@[simp] theorem State.reply_scx (s : State) (d : WVal) : (s.reply d).scx = s.scx := rfl
@[simp] theorem State.reply_scy (s : State) (d : WVal) : (s.reply d).scy = s.scy := rfl
@[simp] theorem State.reply_pal (s : State) (d : WVal) : (s.reply d).pal = s.pal := rfl
@[simp] theorem State.reply_bg (s : State) (d : WVal) : (s.reply d).bg = s.bg := rfl
@[simp] theorem State.reply_back (s : State) (d : WVal) : (s.reply d).back = s.back := rfl
@[simp] theorem State.reply_front (s : State) (d : WVal) : (s.reply d).front = s.front := rfl
@[simp] theorem State.reply_fb (s : State) (d : WVal) : (s.reply d).fb = s.fb := rfl
@[simp] theorem State.reply_tmTable (s : State) (d : WVal) : (s.reply d).tmTable = s.tmTable := rfl
@[simp] theorem State.reply_tmGfx (s : State) (d : WVal) : (s.reply d).tmGfx = s.tmGfx := rfl
@[simp] theorem State.reply_sprTable (s : State) (d : WVal) : (s.reply d).sprTable = s.sprTable := rfl
@[simp] theorem State.reply_sprGfx (s : State) (d : WVal) : (s.reply d).sprGfx = s.sprGfx := rfl
@[simp] theorem State.reply_palDirty (s : State) (d : WVal) : (s.reply d).palDirty = s.palDirty := rfl
@[simp] theorem State.reply_fbDirty (s : State) (d : WVal) : (s.reply d).fbDirty = s.fbDirty := rfl
@[simp] theorem State.reply_tmDirty (s : State) (d : WVal) : (s.reply d).tmDirty = s.tmDirty := rfl
@[simp] theorem State.reply_sprDirty (s : State) (d : WVal) : (s.reply d).sprDirty = s.sprDirty := rfl
@[simp] theorem State.reply_fbLayer (s : State) (d : WVal) : (s.reply d).fbLayer = s.fbLayer := rfl
@[simp] theorem State.reply_tmLo (s : State) (d : WVal) : (s.reply d).tmLo = s.tmLo := rfl
@[simp] theorem State.reply_tmHi (s : State) (d : WVal) : (s.reply d).tmHi = s.tmHi := rfl
@[simp] theorem State.reply_sprLayer (s : State) (d : WVal) : (s.reply d).sprLayer = s.sprLayer := rfl
@[simp] theorem State.reply_outImage (s : State) (d : WVal) : (s.reply d).outImage = s.outImage := rfl
@[simp] theorem State.reply_keySel0 (s : State) (d : WVal) : (s.reply d).keySel0 = s.keySel0 := rfl
@[simp] theorem State.reply_keySel1 (s : State) (d : WVal) : (s.reply d).keySel1 = s.keySel1 := rfl
@[simp] theorem State.reply_keySel2 (s : State) (d : WVal) : (s.reply d).keySel2 = s.keySel2 := rfl
@[simp] theorem State.reply_anomaly (s : State) (d : WVal) : (s.reply d).anomaly = s.anomaly := rfl
@[simp] theorem State.reply_waiter (s : State) (d : WVal) : (s.reply d).waiter = s.waiter := rfl
@[simp] theorem State.reply_inputs (s : State) (d : WVal) : (s.reply d).inputs = s.inputs := rfl
@[simp] theorem State.reply_pending (s : State) (d : WVal) : (s.reply d).pending = s.pending := rfl
@[simp] theorem State.reply_heldMasters (s : State) (d : WVal) : (s.reply d).heldMasters = s.heldMasters := rfl
@[simp] theorem State.reply_busMaster (s : State) (d : WVal) : (s.reply d).busMaster = s.busMaster := rfl
@[simp] theorem State.reply_readData (s : State) (d : WVal) : (s.reply d).readData = some d := rfl
@[simp] theorem State.reply_sampled (s : State) (d : WVal) : (s.reply d).sampled = s.sampled := rfl
@[simp] theorem State.reply_frameReady (s : State) (d : WVal) : (s.reply d).frameReady = s.frameReady := rfl
@[simp] theorem State.reply_freeCount (s : State) (d : WVal) : (s.reply d).freeCount = s.freeCount := rfl

/-! ### replyZero -/

@[simp] theorem State.replyZero_mode (s : State) (w : Width) : (s.replyZero w).mode = s.mode := rfl
@[simp] theorem State.replyZero_fbEnabled (s : State) (w : Width) : (s.replyZero w).fbEnabled = s.fbEnabled := rfl
@[simp] theorem State.replyZero_tmEnabled (s : State) (w : Width) : (s.replyZero w).tmEnabled = s.tmEnabled := rfl
@[simp] theorem State.replyZero_msPerFrame (s : State) (w : Width) : (s.replyZero w).msPerFrame = s.msPerFrame := rfl
@[simp] theorem State.replyZero_fbInFront (s : State) (w : Width) : (s.replyZero w).fbInFront = s.fbInFront := rfl
@[simp] theorem State.replyZero_scx (s : State) (w : Width) : (s.replyZero w).scx = s.scx := rfl
@[simp] theorem State.replyZero_scy (s : State) (w : Width) : (s.replyZero w).scy = s.scy := rfl
@[simp] theorem State.replyZero_pal (s : State) (w : Width) : (s.replyZero w).pal = s.pal := rfl
@[simp] theorem State.replyZero_bg (s : State) (w : Width) : (s.replyZero w).bg = s.bg := rfl
@[simp] theorem State.replyZero_back (s : State) (w : Width) : (s.replyZero w).back = s.back := rfl
@[simp] theorem State.replyZero_front (s : State) (w : Width) : (s.replyZero w).front = s.front := rfl
@[simp] theorem State.replyZero_fb (s : State) (w : Width) : (s.replyZero w).fb = s.fb := rfl
@[simp] theorem State.replyZero_tmTable (s : State) (w : Width) : (s.replyZero w).tmTable = s.tmTable := rfl
@[simp] theorem State.replyZero_tmGfx (s : State) (w : Width) : (s.replyZero w).tmGfx = s.tmGfx := rfl
@[simp] theorem State.replyZero_sprTable (s : State) (w : Width) : (s.replyZero w).sprTable = s.sprTable := rfl
@[simp] theorem State.replyZero_sprGfx (s : State) (w : Width) : (s.replyZero w).sprGfx = s.sprGfx := rfl
@[simp] theorem State.replyZero_palDirty (s : State) (w : Width) : (s.replyZero w).palDirty = s.palDirty := rfl
@[simp] theorem State.replyZero_fbDirty (s : State) (w : Width) : (s.replyZero w).fbDirty = s.fbDirty := rfl
@[simp] theorem State.replyZero_tmDirty (s : State) (w : Width) : (s.replyZero w).tmDirty = s.tmDirty := rfl
@[simp] theorem State.replyZero_sprDirty (s : State) (w : Width) : (s.replyZero w).sprDirty = s.sprDirty := rfl
@[simp] theorem State.replyZero_fbLayer (s : State) (w : Width) : (s.replyZero w).fbLayer = s.fbLayer := rfl
@[simp] theorem State.replyZero_tmLo (s : State) (w : Width) : (s.replyZero w).tmLo = s.tmLo := rfl
@[simp] theorem State.replyZero_tmHi (s : State) (w : Width) : (s.replyZero w).tmHi = s.tmHi := rfl
@[simp] theorem State.replyZero_sprLayer (s : State) (w : Width) : (s.replyZero w).sprLayer = s.sprLayer := rfl
@[simp] theorem State.replyZero_outImage (s : State) (w : Width) : (s.replyZero w).outImage = s.outImage := rfl
@[simp] theorem State.replyZero_keySel0 (s : State) (w : Width) : (s.replyZero w).keySel0 = s.keySel0 := rfl
@[simp] theorem State.replyZero_keySel1 (s : State) (w : Width) : (s.replyZero w).keySel1 = s.keySel1 := rfl
@[simp] theorem State.replyZero_keySel2 (s : State) (w : Width) : (s.replyZero w).keySel2 = s.keySel2 := rfl
@[simp] theorem State.replyZero_anomaly (s : State) (w : Width) : (s.replyZero w).anomaly = s.anomaly := rfl
@[simp] theorem State.replyZero_waiter (s : State) (w : Width) : (s.replyZero w).waiter = s.waiter := rfl
@[simp] theorem State.replyZero_inputs (s : State) (w : Width) : (s.replyZero w).inputs = s.inputs := rfl
@[simp] theorem State.replyZero_pending (s : State) (w : Width) : (s.replyZero w).pending = s.pending := rfl
@[simp] theorem State.replyZero_heldMasters (s : State) (w : Width) : (s.replyZero w).heldMasters = s.heldMasters := rfl
@[simp] theorem State.replyZero_busMaster (s : State) (w : Width) : (s.replyZero w).busMaster = s.busMaster := rfl
@[simp] theorem State.replyZero_readData (s : State) (w : Width) : (s.replyZero w).readData = some (WVal.zero w) := rfl
@[simp] theorem State.replyZero_sampled (s : State) (w : Width) : (s.replyZero w).sampled = s.sampled := rfl
@[simp] theorem State.replyZero_frameReady (s : State) (w : Width) : (s.replyZero w).frameReady = s.frameReady := rfl
@[simp] theorem State.replyZero_freeCount (s : State) (w : Width) : (s.replyZero w).freeCount = s.freeCount := rfl

/-! ### hold -/

@[simp] theorem State.hold_mode (s : State) : s.hold.mode = s.mode := rfl
@[simp] theorem State.hold_fbEnabled (s : State) : s.hold.fbEnabled = s.fbEnabled := rfl
@[simp] theorem State.hold_tmEnabled (s : State) : s.hold.tmEnabled = s.tmEnabled := rfl
@[simp] theorem State.hold_msPerFrame (s : State) : s.hold.msPerFrame = s.msPerFrame := rfl
@[simp] theorem State.hold_fbInFront (s : State) : s.hold.fbInFront = s.fbInFront := rfl
@[simp] theorem State.hold_scx (s : State) : s.hold.scx = s.scx := rfl
@[simp] theorem State.hold_scy (s : State) : s.hold.scy = s.scy := rfl
@[simp] theorem State.hold_pal (s : State) : s.hold.pal = s.pal := rfl
@[simp] theorem State.hold_bg (s : State) : s.hold.bg = s.bg := rfl
@[simp] theorem State.hold_back (s : State) : s.hold.back = s.back := rfl
@[simp] theorem State.hold_front (s : State) : s.hold.front = s.front := rfl
@[simp] theorem State.hold_fb (s : State) : s.hold.fb = s.fb := rfl
@[simp] theorem State.hold_tmTable (s : State) : s.hold.tmTable = s.tmTable := rfl
@[simp] theorem State.hold_tmGfx (s : State) : s.hold.tmGfx = s.tmGfx := rfl
@[simp] theorem State.hold_sprTable (s : State) : s.hold.sprTable = s.sprTable := rfl
@[simp] theorem State.hold_sprGfx (s : State) : s.hold.sprGfx = s.sprGfx := rfl
@[simp] theorem State.hold_palDirty (s : State) : s.hold.palDirty = s.palDirty := rfl
@[simp] theorem State.hold_fbDirty (s : State) : s.hold.fbDirty = s.fbDirty := rfl
@[simp] theorem State.hold_tmDirty (s : State) : s.hold.tmDirty = s.tmDirty := rfl
@[simp] theorem State.hold_sprDirty (s : State) : s.hold.sprDirty = s.sprDirty := rfl
@[simp] theorem State.hold_fbLayer (s : State) : s.hold.fbLayer = s.fbLayer := rfl
@[simp] theorem State.hold_tmLo (s : State) : s.hold.tmLo = s.tmLo := rfl
@[simp] theorem State.hold_tmHi (s : State) : s.hold.tmHi = s.tmHi := rfl
@[simp] theorem State.hold_sprLayer (s : State) : s.hold.sprLayer = s.sprLayer := rfl
@[simp] theorem State.hold_outImage (s : State) : s.hold.outImage = s.outImage := rfl
@[simp] theorem State.hold_keySel0 (s : State) : s.hold.keySel0 = s.keySel0 := rfl
@[simp] theorem State.hold_keySel1 (s : State) : s.hold.keySel1 = s.keySel1 := rfl
@[simp] theorem State.hold_keySel2 (s : State) : s.hold.keySel2 = s.keySel2 := rfl
@[simp] theorem State.hold_anomaly (s : State) : s.hold.anomaly = s.anomaly := rfl
@[simp] theorem State.hold_waiter (s : State) : s.hold.waiter = true := rfl
@[simp] theorem State.hold_inputs (s : State) : s.hold.inputs = s.inputs := rfl
@[simp] theorem State.hold_pending (s : State) : s.hold.pending = s.pending := rfl
@[simp] theorem State.hold_heldMasters (s : State) : s.hold.heldMasters = s.heldMasters ++ [s.busMaster] := rfl
@[simp] theorem State.hold_busMaster (s : State) : s.hold.busMaster = s.busMaster := rfl
@[simp] theorem State.hold_readData (s : State) : s.hold.readData = s.readData := rfl
@[simp] theorem State.hold_sampled (s : State) : s.hold.sampled = s.sampled := rfl
@[simp] theorem State.hold_frameReady (s : State) : s.hold.frameReady = s.frameReady := rfl
@[simp] theorem State.hold_freeCount (s : State) : s.hold.freeCount = s.freeCount := rfl

/-! ### signalFrame -/

@[simp] theorem State.signalFrame_mode (s : State) : s.signalFrame.mode = s.mode := rfl
@[simp] theorem State.signalFrame_fbEnabled (s : State) : s.signalFrame.fbEnabled = s.fbEnabled := rfl
@[simp] theorem State.signalFrame_tmEnabled (s : State) : s.signalFrame.tmEnabled = s.tmEnabled := rfl
@[simp] theorem State.signalFrame_msPerFrame (s : State) : s.signalFrame.msPerFrame = s.msPerFrame := rfl
@[simp] theorem State.signalFrame_fbInFront (s : State) : s.signalFrame.fbInFront = s.fbInFront := rfl
@[simp] theorem State.signalFrame_scx (s : State) : s.signalFrame.scx = s.scx := rfl
@[simp] theorem State.signalFrame_scy (s : State) : s.signalFrame.scy = s.scy := rfl
@[simp] theorem State.signalFrame_pal (s : State) : s.signalFrame.pal = s.pal := rfl
@[simp] theorem State.signalFrame_bg (s : State) : s.signalFrame.bg = s.bg := rfl
@[simp] theorem State.signalFrame_back (s : State) : s.signalFrame.back = s.back := rfl
@[simp] theorem State.signalFrame_front (s : State) : s.signalFrame.front = s.front := rfl
@[simp] theorem State.signalFrame_fb (s : State) : s.signalFrame.fb = s.fb := rfl
@[simp] theorem State.signalFrame_tmTable (s : State) : s.signalFrame.tmTable = s.tmTable := rfl
@[simp] theorem State.signalFrame_tmGfx (s : State) : s.signalFrame.tmGfx = s.tmGfx := rfl
@[simp] theorem State.signalFrame_sprTable (s : State) : s.signalFrame.sprTable = s.sprTable := rfl
@[simp] theorem State.signalFrame_sprGfx (s : State) : s.signalFrame.sprGfx = s.sprGfx := rfl
@[simp] theorem State.signalFrame_palDirty (s : State) : s.signalFrame.palDirty = s.palDirty := rfl
@[simp] theorem State.signalFrame_fbDirty (s : State) : s.signalFrame.fbDirty = s.fbDirty := rfl
@[simp] theorem State.signalFrame_tmDirty (s : State) : s.signalFrame.tmDirty = s.tmDirty := rfl
@[simp] theorem State.signalFrame_sprDirty (s : State) : s.signalFrame.sprDirty = s.sprDirty := rfl
@[simp] theorem State.signalFrame_fbLayer (s : State) : s.signalFrame.fbLayer = s.fbLayer := rfl
@[simp] theorem State.signalFrame_tmLo (s : State) : s.signalFrame.tmLo = s.tmLo := rfl
@[simp] theorem State.signalFrame_tmHi (s : State) : s.signalFrame.tmHi = s.tmHi := rfl
@[simp] theorem State.signalFrame_sprLayer (s : State) : s.signalFrame.sprLayer = s.sprLayer := rfl
@[simp] theorem State.signalFrame_outImage (s : State) : s.signalFrame.outImage = s.outImage := rfl
@[simp] theorem State.signalFrame_keySel0 (s : State) : s.signalFrame.keySel0 = s.keySel0 := rfl
@[simp] theorem State.signalFrame_keySel1 (s : State) : s.signalFrame.keySel1 = s.keySel1 := rfl
@[simp] theorem State.signalFrame_keySel2 (s : State) : s.signalFrame.keySel2 = s.keySel2 := rfl
@[simp] theorem State.signalFrame_anomaly (s : State) : s.signalFrame.anomaly = s.anomaly := rfl
@[simp] theorem State.signalFrame_waiter (s : State) : s.signalFrame.waiter = false := rfl
@[simp] theorem State.signalFrame_inputs (s : State) : s.signalFrame.inputs = s.inputs := rfl
@[simp] theorem State.signalFrame_pending (s : State) : s.signalFrame.pending = s.pending := rfl
@[simp] theorem State.signalFrame_heldMasters (s : State) : s.signalFrame.heldMasters = s.heldMasters := rfl
@[simp] theorem State.signalFrame_busMaster (s : State) : s.signalFrame.busMaster = s.busMaster := rfl
@[simp] theorem State.signalFrame_readData (s : State) : s.signalFrame.readData = s.readData := rfl
@[simp] theorem State.signalFrame_sampled (s : State) : s.signalFrame.sampled = s.sampled := rfl
@[simp] theorem State.signalFrame_frameReady (s : State) : s.signalFrame.frameReady = true := rfl
@[simp] theorem State.signalFrame_freeCount (s : State) : s.signalFrame.freeCount = s.freeCount := rfl

/-! ### completeRead -/

@[simp] theorem State.completeRead_mode (s : State) (k : Master) : (s.completeRead k).mode = s.mode := rfl
@[simp] theorem State.completeRead_fbEnabled (s : State) (k : Master) : (s.completeRead k).fbEnabled = s.fbEnabled := rfl
@[simp] theorem State.completeRead_tmEnabled (s : State) (k : Master) : (s.completeRead k).tmEnabled = s.tmEnabled := rfl
@[simp] theorem State.completeRead_msPerFrame (s : State) (k : Master) : (s.completeRead k).msPerFrame = s.msPerFrame := rfl
@[simp] theorem State.completeRead_fbInFront (s : State) (k : Master) : (s.completeRead k).fbInFront = s.fbInFront := rfl
@[simp] theorem State.completeRead_scx (s : State) (k : Master) : (s.completeRead k).scx = s.scx := rfl
@[simp] theorem State.completeRead_scy (s : State) (k : Master) : (s.completeRead k).scy = s.scy := rfl
@[simp] theorem State.completeRead_pal (s : State) (k : Master) : (s.completeRead k).pal = s.pal := rfl
@[simp] theorem State.completeRead_bg (s : State) (k : Master) : (s.completeRead k).bg = s.bg := rfl
@[simp] theorem State.completeRead_back (s : State) (k : Master) : (s.completeRead k).back = s.back := rfl
@[simp] theorem State.completeRead_front (s : State) (k : Master) : (s.completeRead k).front = s.front := rfl
@[simp] theorem State.completeRead_fb (s : State) (k : Master) : (s.completeRead k).fb = s.fb := rfl
@[simp] theorem State.completeRead_tmTable (s : State) (k : Master) : (s.completeRead k).tmTable = s.tmTable := rfl
@[simp] theorem State.completeRead_tmGfx (s : State) (k : Master) : (s.completeRead k).tmGfx = s.tmGfx := rfl
@[simp] theorem State.completeRead_sprTable (s : State) (k : Master) : (s.completeRead k).sprTable = s.sprTable := rfl
@[simp] theorem State.completeRead_sprGfx (s : State) (k : Master) : (s.completeRead k).sprGfx = s.sprGfx := rfl
@[simp] theorem State.completeRead_palDirty (s : State) (k : Master) : (s.completeRead k).palDirty = s.palDirty := rfl
@[simp] theorem State.completeRead_fbDirty (s : State) (k : Master) : (s.completeRead k).fbDirty = s.fbDirty := rfl
@[simp] theorem State.completeRead_tmDirty (s : State) (k : Master) : (s.completeRead k).tmDirty = s.tmDirty := rfl
@[simp] theorem State.completeRead_sprDirty (s : State) (k : Master) : (s.completeRead k).sprDirty = s.sprDirty := rfl
@[simp] theorem State.completeRead_fbLayer (s : State) (k : Master) : (s.completeRead k).fbLayer = s.fbLayer := rfl
@[simp] theorem State.completeRead_tmLo (s : State) (k : Master) : (s.completeRead k).tmLo = s.tmLo := rfl
@[simp] theorem State.completeRead_tmHi (s : State) (k : Master) : (s.completeRead k).tmHi = s.tmHi := rfl
@[simp] theorem State.completeRead_sprLayer (s : State) (k : Master) : (s.completeRead k).sprLayer = s.sprLayer := rfl
@[simp] theorem State.completeRead_outImage (s : State) (k : Master) : (s.completeRead k).outImage = s.outImage := rfl
@[simp] theorem State.completeRead_keySel0 (s : State) (k : Master) : (s.completeRead k).keySel0 = s.keySel0 := rfl
@[simp] theorem State.completeRead_keySel1 (s : State) (k : Master) : (s.completeRead k).keySel1 = s.keySel1 := rfl
@[simp] theorem State.completeRead_keySel2 (s : State) (k : Master) : (s.completeRead k).keySel2 = s.keySel2 := rfl
@[simp] theorem State.completeRead_anomaly (s : State) (k : Master) : (s.completeRead k).anomaly = s.anomaly := rfl
@[simp] theorem State.completeRead_waiter (s : State) (k : Master) : (s.completeRead k).waiter = s.waiter := rfl
@[simp] theorem State.completeRead_inputs (s : State) (k : Master) : (s.completeRead k).inputs = s.inputs := rfl
@[simp] theorem State.completeRead_pending (s : State) (k : Master) : (s.completeRead k).pending = s.pending := rfl
@[simp] theorem State.completeRead_heldMasters (s : State) (k : Master) : (s.completeRead k).heldMasters = s.heldMasters.erase k := rfl
@[simp] theorem State.completeRead_busMaster (s : State) (k : Master) : (s.completeRead k).busMaster = k := rfl
@[simp] theorem State.completeRead_readData (s : State) (k : Master) : (s.completeRead k).readData = some (WVal.zero .four) := rfl
@[simp] theorem State.completeRead_sampled (s : State) (k : Master) : (s.completeRead k).sampled = s.sampled := rfl
@[simp] theorem State.completeRead_frameReady (s : State) (k : Master) : (s.completeRead k).frameReady = s.frameReady := rfl
@[simp] theorem State.completeRead_freeCount (s : State) (k : Master) : (s.completeRead k).freeCount = s.freeCount := rfl

/-! ### setSubFlags -/

@[simp] theorem State.setSubFlags_mode (s : State) (v : Word) : (s.setSubFlags v).mode = s.mode := rfl
@[simp] theorem State.setSubFlags_fbEnabled (s : State) (v : Word) : (s.setSubFlags v).fbEnabled = fbEnabledOf v := rfl
@[simp] theorem State.setSubFlags_tmEnabled (s : State) (v : Word) : (s.setSubFlags v).tmEnabled = tmEnabledOf v := rfl
@[simp] theorem State.setSubFlags_msPerFrame (s : State) (v : Word) : (s.setSubFlags v).msPerFrame = msPerFrameOf v := rfl
@[simp] theorem State.setSubFlags_fbInFront (s : State) (v : Word) : (s.setSubFlags v).fbInFront = s.fbInFront := rfl
@[simp] theorem State.setSubFlags_scx (s : State) (v : Word) : (s.setSubFlags v).scx = s.scx := rfl
@[simp] theorem State.setSubFlags_scy (s : State) (v : Word) : (s.setSubFlags v).scy = s.scy := rfl
@[simp] theorem State.setSubFlags_pal (s : State) (v : Word) : (s.setSubFlags v).pal = s.pal := rfl
@[simp] theorem State.setSubFlags_bg (s : State) (v : Word) : (s.setSubFlags v).bg = s.bg := rfl
@[simp] theorem State.setSubFlags_back (s : State) (v : Word) : (s.setSubFlags v).back = s.back := rfl
@[simp] theorem State.setSubFlags_front (s : State) (v : Word) : (s.setSubFlags v).front = s.front := rfl
@[simp] theorem State.setSubFlags_fb (s : State) (v : Word) : (s.setSubFlags v).fb = s.fb := rfl
@[simp] theorem State.setSubFlags_tmTable (s : State) (v : Word) : (s.setSubFlags v).tmTable = s.tmTable := rfl
@[simp] theorem State.setSubFlags_tmGfx (s : State) (v : Word) : (s.setSubFlags v).tmGfx = s.tmGfx := rfl
@[simp] theorem State.setSubFlags_sprTable (s : State) (v : Word) : (s.setSubFlags v).sprTable = s.sprTable := rfl
@[simp] theorem State.setSubFlags_sprGfx (s : State) (v : Word) : (s.setSubFlags v).sprGfx = s.sprGfx := rfl
@[simp] theorem State.setSubFlags_palDirty (s : State) (v : Word) : (s.setSubFlags v).palDirty = s.palDirty := rfl
@[simp] theorem State.setSubFlags_fbDirty (s : State) (v : Word) : (s.setSubFlags v).fbDirty = s.fbDirty := rfl
@[simp] theorem State.setSubFlags_tmDirty (s : State) (v : Word) : (s.setSubFlags v).tmDirty = s.tmDirty := rfl
@[simp] theorem State.setSubFlags_sprDirty (s : State) (v : Word) : (s.setSubFlags v).sprDirty = s.sprDirty := rfl
@[simp] theorem State.setSubFlags_fbLayer (s : State) (v : Word) : (s.setSubFlags v).fbLayer = s.fbLayer := rfl
@[simp] theorem State.setSubFlags_tmLo (s : State) (v : Word) : (s.setSubFlags v).tmLo = s.tmLo := rfl
@[simp] theorem State.setSubFlags_tmHi (s : State) (v : Word) : (s.setSubFlags v).tmHi = s.tmHi := rfl
@[simp] theorem State.setSubFlags_sprLayer (s : State) (v : Word) : (s.setSubFlags v).sprLayer = s.sprLayer := rfl
@[simp] theorem State.setSubFlags_outImage (s : State) (v : Word) : (s.setSubFlags v).outImage = s.outImage := rfl
@[simp] theorem State.setSubFlags_keySel0 (s : State) (v : Word) : (s.setSubFlags v).keySel0 = s.keySel0 := rfl
@[simp] theorem State.setSubFlags_keySel1 (s : State) (v : Word) : (s.setSubFlags v).keySel1 = s.keySel1 := rfl
@[simp] theorem State.setSubFlags_keySel2 (s : State) (v : Word) : (s.setSubFlags v).keySel2 = s.keySel2 := rfl
@[simp] theorem State.setSubFlags_anomaly (s : State) (v : Word) : (s.setSubFlags v).anomaly = s.anomaly := rfl
@[simp] theorem State.setSubFlags_waiter (s : State) (v : Word) : (s.setSubFlags v).waiter = s.waiter := rfl
@[simp] theorem State.setSubFlags_inputs (s : State) (v : Word) : (s.setSubFlags v).inputs = s.inputs := rfl
@[simp] theorem State.setSubFlags_pending (s : State) (v : Word) : (s.setSubFlags v).pending = s.pending := rfl
@[simp] theorem State.setSubFlags_heldMasters (s : State) (v : Word) : (s.setSubFlags v).heldMasters = s.heldMasters := rfl
@[simp] theorem State.setSubFlags_busMaster (s : State) (v : Word) : (s.setSubFlags v).busMaster = s.busMaster := rfl
@[simp] theorem State.setSubFlags_readData (s : State) (v : Word) : (s.setSubFlags v).readData = s.readData := rfl
@[simp] theorem State.setSubFlags_sampled (s : State) (v : Word) : (s.setSubFlags v).sampled = s.sampled := rfl
@[simp] theorem State.setSubFlags_frameReady (s : State) (v : Word) : (s.setSubFlags v).frameReady = s.frameReady := rfl
@[simp] theorem State.setSubFlags_freeCount (s : State) (v : Word) : (s.setSubFlags v).freeCount = s.freeCount := rfl

/-! ### markPal -/

@[simp] theorem State.markPal_mode (s : State) : s.markPal.mode = s.mode := rfl
@[simp] theorem State.markPal_fbEnabled (s : State) : s.markPal.fbEnabled = s.fbEnabled := rfl
@[simp] theorem State.markPal_tmEnabled (s : State) : s.markPal.tmEnabled = s.tmEnabled := rfl
@[simp] theorem State.markPal_msPerFrame (s : State) : s.markPal.msPerFrame = s.msPerFrame := rfl
@[simp] theorem State.markPal_fbInFront (s : State) : s.markPal.fbInFront = s.fbInFront := rfl
@[simp] theorem State.markPal_scx (s : State) : s.markPal.scx = s.scx := rfl
@[simp] theorem State.markPal_scy (s : State) : s.markPal.scy = s.scy := rfl
@[simp] theorem State.markPal_pal (s : State) : s.markPal.pal = s.pal := rfl
@[simp] theorem State.markPal_bg (s : State) : s.markPal.bg = s.bg := rfl
@[simp] theorem State.markPal_back (s : State) : s.markPal.back = s.back := rfl
@[simp] theorem State.markPal_front (s : State) : s.markPal.front = s.front := rfl
@[simp] theorem State.markPal_fb (s : State) : s.markPal.fb = s.fb := rfl
@[simp] theorem State.markPal_tmTable (s : State) : s.markPal.tmTable = s.tmTable := rfl
@[simp] theorem State.markPal_tmGfx (s : State) : s.markPal.tmGfx = s.tmGfx := rfl
@[simp] theorem State.markPal_sprTable (s : State) : s.markPal.sprTable = s.sprTable := rfl
@[simp] theorem State.markPal_sprGfx (s : State) : s.markPal.sprGfx = s.sprGfx := rfl
@[simp] theorem State.markPal_palDirty (s : State) : s.markPal.palDirty = true := rfl
@[simp] theorem State.markPal_fbDirty (s : State) : s.markPal.fbDirty = s.fbDirty := rfl
@[simp] theorem State.markPal_tmDirty (s : State) : s.markPal.tmDirty = s.tmDirty := rfl
@[simp] theorem State.markPal_sprDirty (s : State) : s.markPal.sprDirty = s.sprDirty := rfl
@[simp] theorem State.markPal_fbLayer (s : State) : s.markPal.fbLayer = s.fbLayer := rfl
@[simp] theorem State.markPal_tmLo (s : State) : s.markPal.tmLo = s.tmLo := rfl
@[simp] theorem State.markPal_tmHi (s : State) : s.markPal.tmHi = s.tmHi := rfl
@[simp] theorem State.markPal_sprLayer (s : State) : s.markPal.sprLayer = s.sprLayer := rfl
@[simp] theorem State.markPal_outImage (s : State) : s.markPal.outImage = s.outImage := rfl
@[simp] theorem State.markPal_keySel0 (s : State) : s.markPal.keySel0 = s.keySel0 := rfl
@[simp] theorem State.markPal_keySel1 (s : State) : s.markPal.keySel1 = s.keySel1 := rfl
@[simp] theorem State.markPal_keySel2 (s : State) : s.markPal.keySel2 = s.keySel2 := rfl
@[simp] theorem State.markPal_anomaly (s : State) : s.markPal.anomaly = s.anomaly := rfl
@[simp] theorem State.markPal_waiter (s : State) : s.markPal.waiter = s.waiter := rfl
@[simp] theorem State.markPal_inputs (s : State) : s.markPal.inputs = s.inputs := rfl
@[simp] theorem State.markPal_pending (s : State) : s.markPal.pending = s.pending := rfl
@[simp] theorem State.markPal_heldMasters (s : State) : s.markPal.heldMasters = s.heldMasters := rfl
@[simp] theorem State.markPal_busMaster (s : State) : s.markPal.busMaster = s.busMaster := rfl
@[simp] theorem State.markPal_readData (s : State) : s.markPal.readData = s.readData := rfl
@[simp] theorem State.markPal_sampled (s : State) : s.markPal.sampled = s.sampled := rfl
@[simp] theorem State.markPal_frameReady (s : State) : s.markPal.frameReady = s.frameReady := rfl
@[simp] theorem State.markPal_freeCount (s : State) : s.markPal.freeCount = s.freeCount := rfl

/-! ### markFb -/

@[simp] theorem State.markFb_mode (s : State) : s.markFb.mode = s.mode := rfl
@[simp] theorem State.markFb_fbEnabled (s : State) : s.markFb.fbEnabled = s.fbEnabled := rfl
@[simp] theorem State.markFb_tmEnabled (s : State) : s.markFb.tmEnabled = s.tmEnabled := rfl
@[simp] theorem State.markFb_msPerFrame (s : State) : s.markFb.msPerFrame = s.msPerFrame := rfl
@[simp] theorem State.markFb_fbInFront (s : State) : s.markFb.fbInFront = s.fbInFront := rfl
@[simp] theorem State.markFb_scx (s : State) : s.markFb.scx = s.scx := rfl
@[simp] theorem State.markFb_scy (s : State) : s.markFb.scy = s.scy := rfl
@[simp] theorem State.markFb_pal (s : State) : s.markFb.pal = s.pal := rfl
@[simp] theorem State.markFb_bg (s : State) : s.markFb.bg = s.bg := rfl
@[simp] theorem State.markFb_back (s : State) : s.markFb.back = s.back := rfl
@[simp] theorem State.markFb_front (s : State) : s.markFb.front = s.front := rfl
@[simp] theorem State.markFb_fb (s : State) : s.markFb.fb = s.fb := rfl
@[simp] theorem State.markFb_tmTable (s : State) : s.markFb.tmTable = s.tmTable := rfl
@[simp] theorem State.markFb_tmGfx (s : State) : s.markFb.tmGfx = s.tmGfx := rfl
@[simp] theorem State.markFb_sprTable (s : State) : s.markFb.sprTable = s.sprTable := rfl
@[simp] theorem State.markFb_sprGfx (s : State) : s.markFb.sprGfx = s.sprGfx := rfl
@[simp] theorem State.markFb_palDirty (s : State) : s.markFb.palDirty = s.palDirty := rfl
@[simp] theorem State.markFb_fbDirty (s : State) : s.markFb.fbDirty = true := rfl
@[simp] theorem State.markFb_tmDirty (s : State) : s.markFb.tmDirty = s.tmDirty := rfl
@[simp] theorem State.markFb_sprDirty (s : State) : s.markFb.sprDirty = s.sprDirty := rfl
@[simp] theorem State.markFb_fbLayer (s : State) : s.markFb.fbLayer = s.fbLayer := rfl
@[simp] theorem State.markFb_tmLo (s : State) : s.markFb.tmLo = s.tmLo := rfl
@[simp] theorem State.markFb_tmHi (s : State) : s.markFb.tmHi = s.tmHi := rfl
@[simp] theorem State.markFb_sprLayer (s : State) : s.markFb.sprLayer = s.sprLayer := rfl
@[simp] theorem State.markFb_outImage (s : State) : s.markFb.outImage = s.outImage := rfl
@[simp] theorem State.markFb_keySel0 (s : State) : s.markFb.keySel0 = s.keySel0 := rfl
@[simp] theorem State.markFb_keySel1 (s : State) : s.markFb.keySel1 = s.keySel1 := rfl
@[simp] theorem State.markFb_keySel2 (s : State) : s.markFb.keySel2 = s.keySel2 := rfl
@[simp] theorem State.markFb_anomaly (s : State) : s.markFb.anomaly = s.anomaly := rfl
@[simp] theorem State.markFb_waiter (s : State) : s.markFb.waiter = s.waiter := rfl
@[simp] theorem State.markFb_inputs (s : State) : s.markFb.inputs = s.inputs := rfl
@[simp] theorem State.markFb_pending (s : State) : s.markFb.pending = s.pending := rfl
@[simp] theorem State.markFb_heldMasters (s : State) : s.markFb.heldMasters = s.heldMasters := rfl
@[simp] theorem State.markFb_busMaster (s : State) : s.markFb.busMaster = s.busMaster := rfl
@[simp] theorem State.markFb_readData (s : State) : s.markFb.readData = s.readData := rfl
@[simp] theorem State.markFb_sampled (s : State) : s.markFb.sampled = s.sampled := rfl
@[simp] theorem State.markFb_frameReady (s : State) : s.markFb.frameReady = s.frameReady := rfl
@[simp] theorem State.markFb_freeCount (s : State) : s.markFb.freeCount = s.freeCount := rfl

/-! ### markTm -/

@[simp] theorem State.markTm_mode (s : State) : s.markTm.mode = s.mode := rfl
@[simp] theorem State.markTm_fbEnabled (s : State) : s.markTm.fbEnabled = s.fbEnabled := rfl
@[simp] theorem State.markTm_tmEnabled (s : State) : s.markTm.tmEnabled = s.tmEnabled := rfl
@[simp] theorem State.markTm_msPerFrame (s : State) : s.markTm.msPerFrame = s.msPerFrame := rfl
@[simp] theorem State.markTm_fbInFront (s : State) : s.markTm.fbInFront = s.fbInFront := rfl
@[simp] theorem State.markTm_scx (s : State) : s.markTm.scx = s.scx := rfl
@[simp] theorem State.markTm_scy (s : State) : s.markTm.scy = s.scy := rfl
@[simp] theorem State.markTm_pal (s : State) : s.markTm.pal = s.pal := rfl
@[simp] theorem State.markTm_bg (s : State) : s.markTm.bg = s.bg := rfl
@[simp] theorem State.markTm_back (s : State) : s.markTm.back = s.back := rfl
@[simp] theorem State.markTm_front (s : State) : s.markTm.front = s.front := rfl
@[simp] theorem State.markTm_fb (s : State) : s.markTm.fb = s.fb := rfl
@[simp] theorem State.markTm_tmTable (s : State) : s.markTm.tmTable = s.tmTable := rfl
@[simp] theorem State.markTm_tmGfx (s : State) : s.markTm.tmGfx = s.tmGfx := rfl
@[simp] theorem State.markTm_sprTable (s : State) : s.markTm.sprTable = s.sprTable := rfl
@[simp] theorem State.markTm_sprGfx (s : State) : s.markTm.sprGfx = s.sprGfx := rfl
@[simp] theorem State.markTm_palDirty (s : State) : s.markTm.palDirty = s.palDirty := rfl
@[simp] theorem State.markTm_fbDirty (s : State) : s.markTm.fbDirty = s.fbDirty := rfl
@[simp] theorem State.markTm_tmDirty (s : State) : s.markTm.tmDirty = true := rfl
@[simp] theorem State.markTm_sprDirty (s : State) : s.markTm.sprDirty = s.sprDirty := rfl
@[simp] theorem State.markTm_fbLayer (s : State) : s.markTm.fbLayer = s.fbLayer := rfl
@[simp] theorem State.markTm_tmLo (s : State) : s.markTm.tmLo = s.tmLo := rfl
@[simp] theorem State.markTm_tmHi (s : State) : s.markTm.tmHi = s.tmHi := rfl
@[simp] theorem State.markTm_sprLayer (s : State) : s.markTm.sprLayer = s.sprLayer := rfl
@[simp] theorem State.markTm_outImage (s : State) : s.markTm.outImage = s.outImage := rfl
@[simp] theorem State.markTm_keySel0 (s : State) : s.markTm.keySel0 = s.keySel0 := rfl
@[simp] theorem State.markTm_keySel1 (s : State) : s.markTm.keySel1 = s.keySel1 := rfl
@[simp] theorem State.markTm_keySel2 (s : State) : s.markTm.keySel2 = s.keySel2 := rfl
@[simp] theorem State.markTm_anomaly (s : State) : s.markTm.anomaly = s.anomaly := rfl
@[simp] theorem State.markTm_waiter (s : State) : s.markTm.waiter = s.waiter := rfl
@[simp] theorem State.markTm_inputs (s : State) : s.markTm.inputs = s.inputs := rfl
@[simp] theorem State.markTm_pending (s : State) : s.markTm.pending = s.pending := rfl
@[simp] theorem State.markTm_heldMasters (s : State) : s.markTm.heldMasters = s.heldMasters := rfl
@[simp] theorem State.markTm_busMaster (s : State) : s.markTm.busMaster = s.busMaster := rfl
@[simp] theorem State.markTm_readData (s : State) : s.markTm.readData = s.readData := rfl
@[simp] theorem State.markTm_sampled (s : State) : s.markTm.sampled = s.sampled := rfl
@[simp] theorem State.markTm_frameReady (s : State) : s.markTm.frameReady = s.frameReady := rfl
@[simp] theorem State.markTm_freeCount (s : State) : s.markTm.freeCount = s.freeCount := rfl

/-! ### markSpr -/

@[simp] theorem State.markSpr_mode (s : State) : s.markSpr.mode = s.mode := rfl
@[simp] theorem State.markSpr_fbEnabled (s : State) : s.markSpr.fbEnabled = s.fbEnabled := rfl
@[simp] theorem State.markSpr_tmEnabled (s : State) : s.markSpr.tmEnabled = s.tmEnabled := rfl
@[simp] theorem State.markSpr_msPerFrame (s : State) : s.markSpr.msPerFrame = s.msPerFrame := rfl
@[simp] theorem State.markSpr_fbInFront (s : State) : s.markSpr.fbInFront = s.fbInFront := rfl
@[simp] theorem State.markSpr_scx (s : State) : s.markSpr.scx = s.scx := rfl
@[simp] theorem State.markSpr_scy (s : State) : s.markSpr.scy = s.scy := rfl
@[simp] theorem State.markSpr_pal (s : State) : s.markSpr.pal = s.pal := rfl
@[simp] theorem State.markSpr_bg (s : State) : s.markSpr.bg = s.bg := rfl
@[simp] theorem State.markSpr_back (s : State) : s.markSpr.back = s.back := rfl
@[simp] theorem State.markSpr_front (s : State) : s.markSpr.front = s.front := rfl
@[simp] theorem State.markSpr_fb (s : State) : s.markSpr.fb = s.fb := rfl
@[simp] theorem State.markSpr_tmTable (s : State) : s.markSpr.tmTable = s.tmTable := rfl
@[simp] theorem State.markSpr_tmGfx (s : State) : s.markSpr.tmGfx = s.tmGfx := rfl
@[simp] theorem State.markSpr_sprTable (s : State) : s.markSpr.sprTable = s.sprTable := rfl
@[simp] theorem State.markSpr_sprGfx (s : State) : s.markSpr.sprGfx = s.sprGfx := rfl
@[simp] theorem State.markSpr_palDirty (s : State) : s.markSpr.palDirty = s.palDirty := rfl
@[simp] theorem State.markSpr_fbDirty (s : State) : s.markSpr.fbDirty = s.fbDirty := rfl
@[simp] theorem State.markSpr_tmDirty (s : State) : s.markSpr.tmDirty = s.tmDirty := rfl
@[simp] theorem State.markSpr_sprDirty (s : State) : s.markSpr.sprDirty = true := rfl
@[simp] theorem State.markSpr_fbLayer (s : State) : s.markSpr.fbLayer = s.fbLayer := rfl
@[simp] theorem State.markSpr_tmLo (s : State) : s.markSpr.tmLo = s.tmLo := rfl
@[simp] theorem State.markSpr_tmHi (s : State) : s.markSpr.tmHi = s.tmHi := rfl
@[simp] theorem State.markSpr_sprLayer (s : State) : s.markSpr.sprLayer = s.sprLayer := rfl
@[simp] theorem State.markSpr_outImage (s : State) : s.markSpr.outImage = s.outImage := rfl
@[simp] theorem State.markSpr_keySel0 (s : State) : s.markSpr.keySel0 = s.keySel0 := rfl
@[simp] theorem State.markSpr_keySel1 (s : State) : s.markSpr.keySel1 = s.keySel1 := rfl
@[simp] theorem State.markSpr_keySel2 (s : State) : s.markSpr.keySel2 = s.keySel2 := rfl
@[simp] theorem State.markSpr_anomaly (s : State) : s.markSpr.anomaly = s.anomaly := rfl
@[simp] theorem State.markSpr_waiter (s : State) : s.markSpr.waiter = s.waiter := rfl
@[simp] theorem State.markSpr_inputs (s : State) : s.markSpr.inputs = s.inputs := rfl
@[simp] theorem State.markSpr_pending (s : State) : s.markSpr.pending = s.pending := rfl
@[simp] theorem State.markSpr_heldMasters (s : State) : s.markSpr.heldMasters = s.heldMasters := rfl
@[simp] theorem State.markSpr_busMaster (s : State) : s.markSpr.busMaster = s.busMaster := rfl
@[simp] theorem State.markSpr_readData (s : State) : s.markSpr.readData = s.readData := rfl
@[simp] theorem State.markSpr_sampled (s : State) : s.markSpr.sampled = s.sampled := rfl
@[simp] theorem State.markSpr_frameReady (s : State) : s.markSpr.frameReady = s.frameReady := rfl
@[simp] theorem State.markSpr_freeCount (s : State) : s.markSpr.freeCount = s.freeCount := rfl

/-! ### switchEnhanced -/

@[simp] theorem State.switchEnhanced_mode (s : State) (v : Word) : (s.switchEnhanced v).mode = .enhanced := rfl
@[simp] theorem State.switchEnhanced_fbEnabled (s : State) (v : Word) : (s.switchEnhanced v).fbEnabled = fbEnabledOf v := rfl
@[simp] theorem State.switchEnhanced_tmEnabled (s : State) (v : Word) : (s.switchEnhanced v).tmEnabled = tmEnabledOf v := rfl
@[simp] theorem State.switchEnhanced_msPerFrame (s : State) (v : Word) : (s.switchEnhanced v).msPerFrame = msPerFrameOf v := rfl
@[simp] theorem State.switchEnhanced_fbInFront (s : State) (v : Word) : (s.switchEnhanced v).fbInFront = s.fbInFront := rfl
@[simp] theorem State.switchEnhanced_scx (s : State) (v : Word) : (s.switchEnhanced v).scx = s.scx := rfl
@[simp] theorem State.switchEnhanced_scy (s : State) (v : Word) : (s.switchEnhanced v).scy = s.scy := rfl
@[simp] theorem State.switchEnhanced_pal (s : State) (v : Word) : (s.switchEnhanced v).pal = s.pal := rfl
@[simp] theorem State.switchEnhanced_bg (s : State) (v : Word) : (s.switchEnhanced v).bg = s.bg := rfl
@[simp] theorem State.switchEnhanced_back (s : State) (v : Word) : (s.switchEnhanced v).back = s.back := rfl
@[simp] theorem State.switchEnhanced_front (s : State) (v : Word) : (s.switchEnhanced v).front = s.front := rfl
@[simp] theorem State.switchEnhanced_fb (s : State) (v : Word) : (s.switchEnhanced v).fb = s.fb := rfl
@[simp] theorem State.switchEnhanced_tmTable (s : State) (v : Word) : (s.switchEnhanced v).tmTable = s.tmTable := rfl
@[simp] theorem State.switchEnhanced_tmGfx (s : State) (v : Word) : (s.switchEnhanced v).tmGfx = s.tmGfx := rfl
@[simp] theorem State.switchEnhanced_sprTable (s : State) (v : Word) : (s.switchEnhanced v).sprTable = s.sprTable := rfl
@[simp] theorem State.switchEnhanced_sprGfx (s : State) (v : Word) : (s.switchEnhanced v).sprGfx = s.sprGfx := rfl
@[simp] theorem State.switchEnhanced_palDirty (s : State) (v : Word) : (s.switchEnhanced v).palDirty = s.palDirty := rfl
@[simp] theorem State.switchEnhanced_fbDirty (s : State) (v : Word) : (s.switchEnhanced v).fbDirty = s.fbDirty := rfl
@[simp] theorem State.switchEnhanced_tmDirty (s : State) (v : Word) : (s.switchEnhanced v).tmDirty = s.tmDirty := rfl
@[simp] theorem State.switchEnhanced_sprDirty (s : State) (v : Word) : (s.switchEnhanced v).sprDirty = s.sprDirty := rfl
@[simp] theorem State.switchEnhanced_fbLayer (s : State) (v : Word) : (s.switchEnhanced v).fbLayer = s.fbLayer := rfl
@[simp] theorem State.switchEnhanced_tmLo (s : State) (v : Word) : (s.switchEnhanced v).tmLo = s.tmLo := rfl
@[simp] theorem State.switchEnhanced_tmHi (s : State) (v : Word) : (s.switchEnhanced v).tmHi = s.tmHi := rfl
@[simp] theorem State.switchEnhanced_sprLayer (s : State) (v : Word) : (s.switchEnhanced v).sprLayer = s.sprLayer := rfl
@[simp] theorem State.switchEnhanced_outImage (s : State) (v : Word) : (s.switchEnhanced v).outImage = s.outImage := rfl
@[simp] theorem State.switchEnhanced_keySel0 (s : State) (v : Word) : (s.switchEnhanced v).keySel0 = s.keySel0 := rfl
@[simp] theorem State.switchEnhanced_keySel1 (s : State) (v : Word) : (s.switchEnhanced v).keySel1 = s.keySel1 := rfl
@[simp] theorem State.switchEnhanced_keySel2 (s : State) (v : Word) : (s.switchEnhanced v).keySel2 = s.keySel2 := rfl
@[simp] theorem State.switchEnhanced_anomaly (s : State) (v : Word) : (s.switchEnhanced v).anomaly = s.anomaly := rfl
@[simp] theorem State.switchEnhanced_waiter (s : State) (v : Word) : (s.switchEnhanced v).waiter = s.waiter := rfl
@[simp] theorem State.switchEnhanced_inputs (s : State) (v : Word) : (s.switchEnhanced v).inputs = s.inputs := rfl
@[simp] theorem State.switchEnhanced_pending (s : State) (v : Word) : (s.switchEnhanced v).pending = s.pending := rfl
@[simp] theorem State.switchEnhanced_heldMasters (s : State) (v : Word) : (s.switchEnhanced v).heldMasters = s.heldMasters := rfl
@[simp] theorem State.switchEnhanced_busMaster (s : State) (v : Word) : (s.switchEnhanced v).busMaster = s.busMaster := rfl
@[simp] theorem State.switchEnhanced_readData (s : State) (v : Word) : (s.switchEnhanced v).readData = s.readData := rfl
@[simp] theorem State.switchEnhanced_sampled (s : State) (v : Word) : (s.switchEnhanced v).sampled = s.sampled := rfl
@[simp] theorem State.switchEnhanced_frameReady (s : State) (v : Word) : (s.switchEnhanced v).frameReady = s.frameReady := rfl
@[simp] theorem State.switchEnhanced_freeCount (s : State) (v : Word) : (s.switchEnhanced v).freeCount = s.freeCount := rfl

/-! ### classicSync -/

@[simp] theorem State.classicSync_mode (s : State) (v : Word) : (s.classicSync v).mode = s.mode := rfl
@[simp] theorem State.classicSync_fbEnabled (s : State) (v : Word) : (s.classicSync v).fbEnabled = s.fbEnabled := rfl
@[simp] theorem State.classicSync_tmEnabled (s : State) (v : Word) : (s.classicSync v).tmEnabled = s.tmEnabled := rfl
@[simp] theorem State.classicSync_msPerFrame (s : State) (v : Word) : (s.classicSync v).msPerFrame = s.msPerFrame := rfl
@[simp] theorem State.classicSync_fbInFront (s : State) (v : Word) : (s.classicSync v).fbInFront = s.fbInFront := rfl
@[simp] theorem State.classicSync_scx (s : State) (v : Word) : (s.classicSync v).scx = s.scx := rfl
@[simp] theorem State.classicSync_scy (s : State) (v : Word) : (s.classicSync v).scy = s.scy := rfl
@[simp] theorem State.classicSync_pal (s : State) (v : Word) : (s.classicSync v).pal = s.pal := rfl
@[simp] theorem State.classicSync_bg (s : State) (v : Word) : (s.classicSync v).bg = s.bg := rfl
@[simp] theorem State.classicSync_back (s : State) (v : Word) : (s.classicSync v).back = if v = 0 then s.back else [] := rfl
@[simp] theorem State.classicSync_front (s : State) (v : Word) : (s.classicSync v).front = s.back := rfl
@[simp] theorem State.classicSync_fb (s : State) (v : Word) : (s.classicSync v).fb = s.fb := rfl
@[simp] theorem State.classicSync_tmTable (s : State) (v : Word) : (s.classicSync v).tmTable = s.tmTable := rfl
@[simp] theorem State.classicSync_tmGfx (s : State) (v : Word) : (s.classicSync v).tmGfx = s.tmGfx := rfl
@[simp] theorem State.classicSync_sprTable (s : State) (v : Word) : (s.classicSync v).sprTable = s.sprTable := rfl
@[simp] theorem State.classicSync_sprGfx (s : State) (v : Word) : (s.classicSync v).sprGfx = s.sprGfx := rfl
@[simp] theorem State.classicSync_palDirty (s : State) (v : Word) : (s.classicSync v).palDirty = s.palDirty := rfl
@[simp] theorem State.classicSync_fbDirty (s : State) (v : Word) : (s.classicSync v).fbDirty = s.fbDirty := rfl
@[simp] theorem State.classicSync_tmDirty (s : State) (v : Word) : (s.classicSync v).tmDirty = s.tmDirty := rfl
@[simp] theorem State.classicSync_sprDirty (s : State) (v : Word) : (s.classicSync v).sprDirty = s.sprDirty := rfl
@[simp] theorem State.classicSync_fbLayer (s : State) (v : Word) : (s.classicSync v).fbLayer = s.fbLayer := rfl
@[simp] theorem State.classicSync_tmLo (s : State) (v : Word) : (s.classicSync v).tmLo = s.tmLo := rfl
@[simp] theorem State.classicSync_tmHi (s : State) (v : Word) : (s.classicSync v).tmHi = s.tmHi := rfl
@[simp] theorem State.classicSync_sprLayer (s : State) (v : Word) : (s.classicSync v).sprLayer = s.sprLayer := rfl
@[simp] theorem State.classicSync_outImage (s : State) (v : Word) : (s.classicSync v).outImage = s.outImage := rfl
@[simp] theorem State.classicSync_keySel0 (s : State) (v : Word) : (s.classicSync v).keySel0 = s.keySel0 := rfl
@[simp] theorem State.classicSync_keySel1 (s : State) (v : Word) : (s.classicSync v).keySel1 = s.keySel1 := rfl
@[simp] theorem State.classicSync_keySel2 (s : State) (v : Word) : (s.classicSync v).keySel2 = s.keySel2 := rfl
@[simp] theorem State.classicSync_anomaly (s : State) (v : Word) : (s.classicSync v).anomaly = s.anomaly := rfl
@[simp] theorem State.classicSync_waiter (s : State) (v : Word) : (s.classicSync v).waiter = false := rfl
@[simp] theorem State.classicSync_inputs (s : State) (v : Word) : (s.classicSync v).inputs = s.inputs := rfl
@[simp] theorem State.classicSync_pending (s : State) (v : Word) : (s.classicSync v).pending = s.pending := rfl
@[simp] theorem State.classicSync_heldMasters (s : State) (v : Word) : (s.classicSync v).heldMasters = s.heldMasters := rfl
@[simp] theorem State.classicSync_busMaster (s : State) (v : Word) : (s.classicSync v).busMaster = s.busMaster := rfl
@[simp] theorem State.classicSync_readData (s : State) (v : Word) : (s.classicSync v).readData = s.readData := rfl
@[simp] theorem State.classicSync_sampled (s : State) (v : Word) : (s.classicSync v).sampled = s.sampled := rfl
@[simp] theorem State.classicSync_frameReady (s : State) (v : Word) : (s.classicSync v).frameReady = true := rfl
@[simp] theorem State.classicSync_freeCount (s : State) (v : Word) : (s.classicSync v).freeCount = s.freeCount := rfl

/-! ### publish -/

@[simp] theorem State.publish_mode (s : State) : s.publish.mode = s.mode := rfl
@[simp] theorem State.publish_fbEnabled (s : State) : s.publish.fbEnabled = s.fbEnabled := rfl
@[simp] theorem State.publish_tmEnabled (s : State) : s.publish.tmEnabled = s.tmEnabled := rfl
@[simp] theorem State.publish_msPerFrame (s : State) : s.publish.msPerFrame = s.msPerFrame := rfl
@[simp] theorem State.publish_fbInFront (s : State) : s.publish.fbInFront = s.fbInFront := rfl
@[simp] theorem State.publish_scx (s : State) : s.publish.scx = s.scx := rfl
@[simp] theorem State.publish_scy (s : State) : s.publish.scy = s.scy := rfl
@[simp] theorem State.publish_pal (s : State) : s.publish.pal = s.pal := rfl
@[simp] theorem State.publish_bg (s : State) : s.publish.bg = s.bg := rfl
@[simp] theorem State.publish_back (s : State) : s.publish.back = s.back := rfl
@[simp] theorem State.publish_front (s : State) : s.publish.front = s.front := rfl
@[simp] theorem State.publish_fb (s : State) : s.publish.fb = s.fb := rfl
@[simp] theorem State.publish_tmTable (s : State) : s.publish.tmTable = s.tmTable := rfl
@[simp] theorem State.publish_tmGfx (s : State) : s.publish.tmGfx = s.tmGfx := rfl
@[simp] theorem State.publish_sprTable (s : State) : s.publish.sprTable = s.sprTable := rfl
@[simp] theorem State.publish_sprGfx (s : State) : s.publish.sprGfx = s.sprGfx := rfl
@[simp] theorem State.publish_palDirty (s : State) : s.publish.palDirty = s.palDirty := rfl
@[simp] theorem State.publish_fbDirty (s : State) : s.publish.fbDirty = s.fbDirty := rfl
@[simp] theorem State.publish_tmDirty (s : State) : s.publish.tmDirty = s.tmDirty := rfl
@[simp] theorem State.publish_sprDirty (s : State) : s.publish.sprDirty = s.sprDirty := rfl
@[simp] theorem State.publish_fbLayer (s : State) : s.publish.fbLayer = s.fbLayer := rfl
@[simp] theorem State.publish_tmLo (s : State) : s.publish.tmLo = s.tmLo := rfl
@[simp] theorem State.publish_tmHi (s : State) : s.publish.tmHi = s.tmHi := rfl
@[simp] theorem State.publish_sprLayer (s : State) : s.publish.sprLayer = s.sprLayer := rfl
@[simp] theorem State.publish_outImage (s : State) : s.publish.outImage = some s.merge := rfl
@[simp] theorem State.publish_keySel0 (s : State) : s.publish.keySel0 = s.keySel0 := rfl
@[simp] theorem State.publish_keySel1 (s : State) : s.publish.keySel1 = s.keySel1 := rfl
@[simp] theorem State.publish_keySel2 (s : State) : s.publish.keySel2 = s.keySel2 := rfl
@[simp] theorem State.publish_anomaly (s : State) : s.publish.anomaly = s.anomaly := rfl
@[simp] theorem State.publish_waiter (s : State) : s.publish.waiter = s.waiter := rfl
@[simp] theorem State.publish_inputs (s : State) : s.publish.inputs = s.inputs := rfl
@[simp] theorem State.publish_pending (s : State) : s.publish.pending = s.pending := rfl
@[simp] theorem State.publish_heldMasters (s : State) : s.publish.heldMasters = s.heldMasters := rfl
@[simp] theorem State.publish_busMaster (s : State) : s.publish.busMaster = s.busMaster := rfl
@[simp] theorem State.publish_readData (s : State) : s.publish.readData = s.readData := rfl
@[simp] theorem State.publish_sampled (s : State) : s.publish.sampled = s.sampled := rfl
@[simp] theorem State.publish_frameReady (s : State) : s.publish.frameReady = s.frameReady := rfl
@[simp] theorem State.publish_freeCount (s : State) : s.publish.freeCount = s.freeCount := rfl

/-! ### begin -/

@[simp] theorem State.begin_mode (s : State) (k : Master) (rest : List Pending) : (s.begin k rest).mode = s.mode := rfl
@[simp] theorem State.begin_fbEnabled (s : State) (k : Master) (rest : List Pending) : (s.begin k rest).fbEnabled = s.fbEnabled := rfl
@[simp] theorem State.begin_tmEnabled (s : State) (k : Master) (rest : List Pending) : (s.begin k rest).tmEnabled = s.tmEnabled := rfl
@[simp] theorem State.begin_msPerFrame (s : State) (k : Master) (rest : List Pending) : (s.begin k rest).msPerFrame = s.msPerFrame := rfl
@[simp] theorem State.begin_fbInFront (s : State) (k : Master) (rest : List Pending) : (s.begin k rest).fbInFront = s.fbInFront := rfl
@[simp] theorem State.begin_scx (s : State) (k : Master) (rest : List Pending) : (s.begin k rest).scx = s.scx := rfl
@[simp] theorem State.begin_scy (s : State) (k : Master) (rest : List Pending) : (s.begin k rest).scy = s.scy := rfl
@[simp] theorem State.begin_pal (s : State) (k : Master) (rest : List Pending) : (s.begin k rest).pal = s.pal := rfl
@[simp] theorem State.begin_bg (s : State) (k : Master) (rest : List Pending) : (s.begin k rest).bg = s.bg := rfl
@[simp] theorem State.begin_back (s : State) (k : Master) (rest : List Pending) : (s.begin k rest).back = s.back := rfl
@[simp] theorem State.begin_front (s : State) (k : Master) (rest : List Pending) : (s.begin k rest).front = s.front := rfl
@[simp] theorem State.begin_fb (s : State) (k : Master) (rest : List Pending) : (s.begin k rest).fb = s.fb := rfl
@[simp] theorem State.begin_tmTable (s : State) (k : Master) (rest : List Pending) : (s.begin k rest).tmTable = s.tmTable := rfl
@[simp] theorem State.begin_tmGfx (s : State) (k : Master) (rest : List Pending) : (s.begin k rest).tmGfx = s.tmGfx := rfl
@[simp] theorem State.begin_sprTable (s : State) (k : Master) (rest : List Pending) : (s.begin k rest).sprTable = s.sprTable := rfl
@[simp] theorem State.begin_sprGfx (s : State) (k : Master) (rest : List Pending) : (s.begin k rest).sprGfx = s.sprGfx := rfl
@[simp] theorem State.begin_palDirty (s : State) (k : Master) (rest : List Pending) : (s.begin k rest).palDirty = s.palDirty := rfl
@[simp] theorem State.begin_fbDirty (s : State) (k : Master) (rest : List Pending) : (s.begin k rest).fbDirty = s.fbDirty := rfl
@[simp] theorem State.begin_tmDirty (s : State) (k : Master) (rest : List Pending) : (s.begin k rest).tmDirty = s.tmDirty := rfl
@[simp] theorem State.begin_sprDirty (s : State) (k : Master) (rest : List Pending) : (s.begin k rest).sprDirty = s.sprDirty := rfl
@[simp] theorem State.begin_fbLayer (s : State) (k : Master) (rest : List Pending) : (s.begin k rest).fbLayer = s.fbLayer := rfl
@[simp] theorem State.begin_tmLo (s : State) (k : Master) (rest : List Pending) : (s.begin k rest).tmLo = s.tmLo := rfl
@[simp] theorem State.begin_tmHi (s : State) (k : Master) (rest : List Pending) : (s.begin k rest).tmHi = s.tmHi := rfl
@[simp] theorem State.begin_sprLayer (s : State) (k : Master) (rest : List Pending) : (s.begin k rest).sprLayer = s.sprLayer := rfl
@[simp] theorem State.begin_outImage (s : State) (k : Master) (rest : List Pending) : (s.begin k rest).outImage = s.outImage := rfl
@[simp] theorem State.begin_keySel0 (s : State) (k : Master) (rest : List Pending) : (s.begin k rest).keySel0 = s.keySel0 := rfl
@[simp] theorem State.begin_keySel1 (s : State) (k : Master) (rest : List Pending) : (s.begin k rest).keySel1 = s.keySel1 := rfl
@[simp] theorem State.begin_keySel2 (s : State) (k : Master) (rest : List Pending) : (s.begin k rest).keySel2 = s.keySel2 := rfl
@[simp] theorem State.begin_anomaly (s : State) (k : Master) (rest : List Pending) : (s.begin k rest).anomaly = s.anomaly := rfl
@[simp] theorem State.begin_waiter (s : State) (k : Master) (rest : List Pending) : (s.begin k rest).waiter = s.waiter := rfl
@[simp] theorem State.begin_inputs (s : State) (k : Master) (rest : List Pending) : (s.begin k rest).inputs = s.inputs := rfl
@[simp] theorem State.begin_pending (s : State) (k : Master) (rest : List Pending) : (s.begin k rest).pending = rest := rfl
@[simp] theorem State.begin_heldMasters (s : State) (k : Master) (rest : List Pending) : (s.begin k rest).heldMasters = s.heldMasters := rfl
@[simp] theorem State.begin_busMaster (s : State) (k : Master) (rest : List Pending) : (s.begin k rest).busMaster = k := rfl
@[simp] theorem State.begin_readData (s : State) (k : Master) (rest : List Pending) : (s.begin k rest).readData = none := rfl
@[simp] theorem State.begin_sampled (s : State) (k : Master) (rest : List Pending) : (s.begin k rest).sampled = none := rfl
@[simp] theorem State.begin_frameReady (s : State) (k : Master) (rest : List Pending) : (s.begin k rest).frameReady = false := rfl
@[simp] theorem State.begin_freeCount (s : State) (k : Master) (rest : List Pending) : (s.begin k rest).freeCount = s.freeCount := rfl

/-! ### resetEvent -/

@[simp] theorem State.resetEvent_mode (s : State) : s.resetEvent.mode = .classic := rfl
@[simp] theorem State.resetEvent_fbEnabled (s : State) : s.resetEvent.fbEnabled = true := rfl
@[simp] theorem State.resetEvent_tmEnabled (s : State) : s.resetEvent.tmEnabled = false := rfl
@[simp] theorem State.resetEvent_msPerFrame (s : State) : s.resetEvent.msPerFrame = freeMs s.freeCount := rfl
@[simp] theorem State.resetEvent_fbInFront (s : State) : s.resetEvent.fbInFront = false := rfl
@[simp] theorem State.resetEvent_scx (s : State) : s.resetEvent.scx = 0 := rfl
@[simp] theorem State.resetEvent_scy (s : State) : s.resetEvent.scy = 0 := rfl
@[simp] theorem State.resetEvent_pal (s : State) : s.resetEvent.pal = defaultPalette := rfl
@[simp] theorem State.resetEvent_bg (s : State) : s.resetEvent.bg = defaultBg := rfl
@[simp] theorem State.resetEvent_back (s : State) : s.resetEvent.back = [] := rfl
@[simp] theorem State.resetEvent_front (s : State) : s.resetEvent.front = [] := rfl
@[simp] theorem State.resetEvent_fb (s : State) : s.resetEvent.fb = [] := rfl
@[simp] theorem State.resetEvent_tmTable (s : State) : s.resetEvent.tmTable = [] := rfl
@[simp] theorem State.resetEvent_tmGfx (s : State) : s.resetEvent.tmGfx = [] := rfl
@[simp] theorem State.resetEvent_sprTable (s : State) : s.resetEvent.sprTable = [] := rfl
@[simp] theorem State.resetEvent_sprGfx (s : State) : s.resetEvent.sprGfx = [] := rfl
@[simp] theorem State.resetEvent_palDirty (s : State) : s.resetEvent.palDirty = true := rfl
@[simp] theorem State.resetEvent_fbDirty (s : State) : s.resetEvent.fbDirty = true := rfl
@[simp] theorem State.resetEvent_tmDirty (s : State) : s.resetEvent.tmDirty = true := rfl
@[simp] theorem State.resetEvent_sprDirty (s : State) : s.resetEvent.sprDirty = true := rfl
@[simp] theorem State.resetEvent_fbLayer (s : State) : s.resetEvent.fbLayer = freeLayer s.freeCount := rfl
@[simp] theorem State.resetEvent_tmLo (s : State) : s.resetEvent.tmLo = freeLayer (s.freeCount + 1) := rfl
@[simp] theorem State.resetEvent_tmHi (s : State) : s.resetEvent.tmHi = freeLayer (s.freeCount + 2) := rfl
@[simp] theorem State.resetEvent_sprLayer (s : State) : s.resetEvent.sprLayer = freeLayer (s.freeCount + 3) := rfl
@[simp] theorem State.resetEvent_outImage (s : State) : s.resetEvent.outImage = none := rfl
@[simp] theorem State.resetEvent_keySel0 (s : State) : s.resetEvent.keySel0 = 0 := rfl
@[simp] theorem State.resetEvent_keySel1 (s : State) : s.resetEvent.keySel1 = 0 := rfl
@[simp] theorem State.resetEvent_keySel2 (s : State) : s.resetEvent.keySel2 = 0 := rfl
@[simp] theorem State.resetEvent_anomaly (s : State) : s.resetEvent.anomaly = false := rfl
@[simp] theorem State.resetEvent_waiter (s : State) : s.resetEvent.waiter = false := rfl
@[simp] theorem State.resetEvent_inputs (s : State) : s.resetEvent.inputs = s.inputs := rfl
@[simp] theorem State.resetEvent_pending (s : State) : s.resetEvent.pending = s.pending := rfl
@[simp] theorem State.resetEvent_heldMasters (s : State) : s.resetEvent.heldMasters = s.heldMasters := rfl
@[simp] theorem State.resetEvent_busMaster (s : State) : s.resetEvent.busMaster = s.busMaster := rfl
@[simp] theorem State.resetEvent_readData (s : State) : s.resetEvent.readData = s.readData := rfl
@[simp] theorem State.resetEvent_sampled (s : State) : s.resetEvent.sampled = s.sampled := rfl
@[simp] theorem State.resetEvent_frameReady (s : State) : s.resetEvent.frameReady = s.frameReady := rfl
@[simp] theorem State.resetEvent_freeCount (s : State) : s.resetEvent.freeCount = s.freeCount + 4 := rfl

/-! ### propagate: the fields it leaves alone -/

@[simp] theorem State.propagate_mode (s : State) : s.propagate.mode = s.mode := by unfold State.propagate; split <;> rfl
@[simp] theorem State.propagate_fbEnabled (s : State) : s.propagate.fbEnabled = s.fbEnabled := by unfold State.propagate; split <;> rfl
@[simp] theorem State.propagate_tmEnabled (s : State) : s.propagate.tmEnabled = s.tmEnabled := by unfold State.propagate; split <;> rfl
@[simp] theorem State.propagate_msPerFrame (s : State) : s.propagate.msPerFrame = s.msPerFrame := by unfold State.propagate; split <;> rfl
@[simp] theorem State.propagate_fbInFront (s : State) : s.propagate.fbInFront = s.fbInFront := by unfold State.propagate; split <;> rfl
@[simp] theorem State.propagate_scx (s : State) : s.propagate.scx = s.scx := by unfold State.propagate; split <;> rfl
@[simp] theorem State.propagate_scy (s : State) : s.propagate.scy = s.scy := by unfold State.propagate; split <;> rfl
@[simp] theorem State.propagate_pal (s : State) : s.propagate.pal = s.pal := by unfold State.propagate; split <;> rfl
@[simp] theorem State.propagate_bg (s : State) : s.propagate.bg = s.bg := by unfold State.propagate; split <;> rfl
@[simp] theorem State.propagate_back (s : State) : s.propagate.back = s.back := by unfold State.propagate; split <;> rfl
@[simp] theorem State.propagate_front (s : State) : s.propagate.front = s.front := by unfold State.propagate; split <;> rfl
@[simp] theorem State.propagate_fb (s : State) : s.propagate.fb = s.fb := by unfold State.propagate; split <;> rfl
@[simp] theorem State.propagate_tmTable (s : State) : s.propagate.tmTable = s.tmTable := by unfold State.propagate; split <;> rfl
@[simp] theorem State.propagate_tmGfx (s : State) : s.propagate.tmGfx = s.tmGfx := by unfold State.propagate; split <;> rfl
@[simp] theorem State.propagate_sprTable (s : State) : s.propagate.sprTable = s.sprTable := by unfold State.propagate; split <;> rfl
@[simp] theorem State.propagate_sprGfx (s : State) : s.propagate.sprGfx = s.sprGfx := by unfold State.propagate; split <;> rfl
@[simp] theorem State.propagate_fbLayer (s : State) : s.propagate.fbLayer = s.fbLayer := by unfold State.propagate; split <;> rfl
@[simp] theorem State.propagate_tmLo (s : State) : s.propagate.tmLo = s.tmLo := by unfold State.propagate; split <;> rfl
@[simp] theorem State.propagate_tmHi (s : State) : s.propagate.tmHi = s.tmHi := by unfold State.propagate; split <;> rfl
@[simp] theorem State.propagate_sprLayer (s : State) : s.propagate.sprLayer = s.sprLayer := by unfold State.propagate; split <;> rfl
@[simp] theorem State.propagate_outImage (s : State) : s.propagate.outImage = s.outImage := by unfold State.propagate; split <;> rfl
@[simp] theorem State.propagate_keySel0 (s : State) : s.propagate.keySel0 = s.keySel0 := by unfold State.propagate; split <;> rfl
@[simp] theorem State.propagate_keySel1 (s : State) : s.propagate.keySel1 = s.keySel1 := by unfold State.propagate; split <;> rfl
@[simp] theorem State.propagate_keySel2 (s : State) : s.propagate.keySel2 = s.keySel2 := by unfold State.propagate; split <;> rfl
@[simp] theorem State.propagate_anomaly (s : State) : s.propagate.anomaly = s.anomaly := by unfold State.propagate; split <;> rfl
@[simp] theorem State.propagate_waiter (s : State) : s.propagate.waiter = s.waiter := by unfold State.propagate; split <;> rfl
@[simp] theorem State.propagate_inputs (s : State) : s.propagate.inputs = s.inputs := by unfold State.propagate; split <;> rfl
@[simp] theorem State.propagate_pending (s : State) : s.propagate.pending = s.pending := by unfold State.propagate; split <;> rfl
@[simp] theorem State.propagate_heldMasters (s : State) : s.propagate.heldMasters = s.heldMasters := by unfold State.propagate; split <;> rfl
@[simp] theorem State.propagate_busMaster (s : State) : s.propagate.busMaster = s.busMaster := by unfold State.propagate; split <;> rfl
@[simp] theorem State.propagate_readData (s : State) : s.propagate.readData = s.readData := by unfold State.propagate; split <;> rfl
@[simp] theorem State.propagate_sampled (s : State) : s.propagate.sampled = s.sampled := by unfold State.propagate; split <;> rfl
@[simp] theorem State.propagate_frameReady (s : State) : s.propagate.frameReady = s.frameReady := by unfold State.propagate; split <;> rfl
@[simp] theorem State.propagate_freeCount (s : State) : s.propagate.freeCount = s.freeCount := by unfold State.propagate; split <;> rfl

/-! ### rebuildFb: the fields it leaves alone -/

@[simp] theorem State.rebuildFb_mode (s : State) : s.rebuildFb.mode = s.mode := by unfold State.rebuildFb; split <;> rfl
@[simp] theorem State.rebuildFb_fbEnabled (s : State) : s.rebuildFb.fbEnabled = s.fbEnabled := by unfold State.rebuildFb; split <;> rfl
@[simp] theorem State.rebuildFb_tmEnabled (s : State) : s.rebuildFb.tmEnabled = s.tmEnabled := by unfold State.rebuildFb; split <;> rfl
@[simp] theorem State.rebuildFb_msPerFrame (s : State) : s.rebuildFb.msPerFrame = s.msPerFrame := by unfold State.rebuildFb; split <;> rfl
@[simp] theorem State.rebuildFb_fbInFront (s : State) : s.rebuildFb.fbInFront = s.fbInFront := by unfold State.rebuildFb; split <;> rfl
@[simp] theorem State.rebuildFb_scx (s : State) : s.rebuildFb.scx = s.scx := by unfold State.rebuildFb; split <;> rfl
@[simp] theorem State.rebuildFb_scy (s : State) : s.rebuildFb.scy = s.scy := by unfold State.rebuildFb; split <;> rfl
@[simp] theorem State.rebuildFb_pal (s : State) : s.rebuildFb.pal = s.pal := by unfold State.rebuildFb; split <;> rfl
@[simp] theorem State.rebuildFb_bg (s : State) : s.rebuildFb.bg = s.bg := by unfold State.rebuildFb; split <;> rfl
@[simp] theorem State.rebuildFb_back (s : State) : s.rebuildFb.back = s.back := by unfold State.rebuildFb; split <;> rfl
@[simp] theorem State.rebuildFb_front (s : State) : s.rebuildFb.front = s.front := by unfold State.rebuildFb; split <;> rfl
@[simp] theorem State.rebuildFb_fb (s : State) : s.rebuildFb.fb = s.fb := by unfold State.rebuildFb; split <;> rfl
@[simp] theorem State.rebuildFb_tmTable (s : State) : s.rebuildFb.tmTable = s.tmTable := by unfold State.rebuildFb; split <;> rfl
@[simp] theorem State.rebuildFb_tmGfx (s : State) : s.rebuildFb.tmGfx = s.tmGfx := by unfold State.rebuildFb; split <;> rfl
@[simp] theorem State.rebuildFb_sprTable (s : State) : s.rebuildFb.sprTable = s.sprTable := by unfold State.rebuildFb; split <;> rfl
@[simp] theorem State.rebuildFb_sprGfx (s : State) : s.rebuildFb.sprGfx = s.sprGfx := by unfold State.rebuildFb; split <;> rfl
@[simp] theorem State.rebuildFb_palDirty (s : State) : s.rebuildFb.palDirty = s.palDirty := by unfold State.rebuildFb; split <;> rfl
@[simp] theorem State.rebuildFb_tmDirty (s : State) : s.rebuildFb.tmDirty = s.tmDirty := by unfold State.rebuildFb; split <;> rfl
@[simp] theorem State.rebuildFb_sprDirty (s : State) : s.rebuildFb.sprDirty = s.sprDirty := by unfold State.rebuildFb; split <;> rfl
@[simp] theorem State.rebuildFb_tmLo (s : State) : s.rebuildFb.tmLo = s.tmLo := by unfold State.rebuildFb; split <;> rfl
@[simp] theorem State.rebuildFb_tmHi (s : State) : s.rebuildFb.tmHi = s.tmHi := by unfold State.rebuildFb; split <;> rfl
@[simp] theorem State.rebuildFb_sprLayer (s : State) : s.rebuildFb.sprLayer = s.sprLayer := by unfold State.rebuildFb; split <;> rfl
@[simp] theorem State.rebuildFb_outImage (s : State) : s.rebuildFb.outImage = s.outImage := by unfold State.rebuildFb; split <;> rfl
@[simp] theorem State.rebuildFb_keySel0 (s : State) : s.rebuildFb.keySel0 = s.keySel0 := by unfold State.rebuildFb; split <;> rfl
@[simp] theorem State.rebuildFb_keySel1 (s : State) : s.rebuildFb.keySel1 = s.keySel1 := by unfold State.rebuildFb; split <;> rfl
@[simp] theorem State.rebuildFb_keySel2 (s : State) : s.rebuildFb.keySel2 = s.keySel2 := by unfold State.rebuildFb; split <;> rfl
@[simp] theorem State.rebuildFb_anomaly (s : State) : s.rebuildFb.anomaly = s.anomaly := by unfold State.rebuildFb; split <;> rfl
@[simp] theorem State.rebuildFb_waiter (s : State) : s.rebuildFb.waiter = s.waiter := by unfold State.rebuildFb; split <;> rfl
@[simp] theorem State.rebuildFb_inputs (s : State) : s.rebuildFb.inputs = s.inputs := by unfold State.rebuildFb; split <;> rfl
@[simp] theorem State.rebuildFb_pending (s : State) : s.rebuildFb.pending = s.pending := by unfold State.rebuildFb; split <;> rfl
@[simp] theorem State.rebuildFb_heldMasters (s : State) : s.rebuildFb.heldMasters = s.heldMasters := by unfold State.rebuildFb; split <;> rfl
@[simp] theorem State.rebuildFb_busMaster (s : State) : s.rebuildFb.busMaster = s.busMaster := by unfold State.rebuildFb; split <;> rfl
@[simp] theorem State.rebuildFb_readData (s : State) : s.rebuildFb.readData = s.readData := by unfold State.rebuildFb; split <;> rfl
@[simp] theorem State.rebuildFb_sampled (s : State) : s.rebuildFb.sampled = s.sampled := by unfold State.rebuildFb; split <;> rfl
@[simp] theorem State.rebuildFb_frameReady (s : State) : s.rebuildFb.frameReady = s.frameReady := by unfold State.rebuildFb; split <;> rfl
@[simp] theorem State.rebuildFb_freeCount (s : State) : s.rebuildFb.freeCount = s.freeCount := by unfold State.rebuildFb; split <;> rfl

/-! ### rebuildTm: the fields it leaves alone -/

@[simp] theorem State.rebuildTm_mode (s : State) : s.rebuildTm.mode = s.mode := by unfold State.rebuildTm; split <;> rfl
@[simp] theorem State.rebuildTm_fbEnabled (s : State) : s.rebuildTm.fbEnabled = s.fbEnabled := by unfold State.rebuildTm; split <;> rfl
@[simp] theorem State.rebuildTm_tmEnabled (s : State) : s.rebuildTm.tmEnabled = s.tmEnabled := by unfold State.rebuildTm; split <;> rfl
@[simp] theorem State.rebuildTm_msPerFrame (s : State) : s.rebuildTm.msPerFrame = s.msPerFrame := by unfold State.rebuildTm; split <;> rfl
@[simp] theorem State.rebuildTm_fbInFront (s : State) : s.rebuildTm.fbInFront = s.fbInFront := by unfold State.rebuildTm; split <;> rfl
@[simp] theorem State.rebuildTm_scx (s : State) : s.rebuildTm.scx = s.scx := by unfold State.rebuildTm; split <;> rfl
@[simp] theorem State.rebuildTm_scy (s : State) : s.rebuildTm.scy = s.scy := by unfold State.rebuildTm; split <;> rfl
@[simp] theorem State.rebuildTm_pal (s : State) : s.rebuildTm.pal = s.pal := by unfold State.rebuildTm; split <;> rfl
@[simp] theorem State.rebuildTm_bg (s : State) : s.rebuildTm.bg = s.bg := by unfold State.rebuildTm; split <;> rfl
@[simp] theorem State.rebuildTm_back (s : State) : s.rebuildTm.back = s.back := by unfold State.rebuildTm; split <;> rfl
@[simp] theorem State.rebuildTm_front (s : State) : s.rebuildTm.front = s.front := by unfold State.rebuildTm; split <;> rfl
@[simp] theorem State.rebuildTm_fb (s : State) : s.rebuildTm.fb = s.fb := by unfold State.rebuildTm; split <;> rfl
@[simp] theorem State.rebuildTm_tmTable (s : State) : s.rebuildTm.tmTable = s.tmTable := by unfold State.rebuildTm; split <;> rfl
@[simp] theorem State.rebuildTm_tmGfx (s : State) : s.rebuildTm.tmGfx = s.tmGfx := by unfold State.rebuildTm; split <;> rfl
@[simp] theorem State.rebuildTm_sprTable (s : State) : s.rebuildTm.sprTable = s.sprTable := by unfold State.rebuildTm; split <;> rfl
@[simp] theorem State.rebuildTm_sprGfx (s : State) : s.rebuildTm.sprGfx = s.sprGfx := by unfold State.rebuildTm; split <;> rfl
@[simp] theorem State.rebuildTm_palDirty (s : State) : s.rebuildTm.palDirty = s.palDirty := by unfold State.rebuildTm; split <;> rfl
@[simp] theorem State.rebuildTm_fbDirty (s : State) : s.rebuildTm.fbDirty = s.fbDirty := by unfold State.rebuildTm; split <;> rfl
@[simp] theorem State.rebuildTm_sprDirty (s : State) : s.rebuildTm.sprDirty = s.sprDirty := by unfold State.rebuildTm; split <;> rfl
@[simp] theorem State.rebuildTm_fbLayer (s : State) : s.rebuildTm.fbLayer = s.fbLayer := by unfold State.rebuildTm; split <;> rfl
@[simp] theorem State.rebuildTm_sprLayer (s : State) : s.rebuildTm.sprLayer = s.sprLayer := by unfold State.rebuildTm; split <;> rfl
@[simp] theorem State.rebuildTm_outImage (s : State) : s.rebuildTm.outImage = s.outImage := by unfold State.rebuildTm; split <;> rfl
@[simp] theorem State.rebuildTm_keySel0 (s : State) : s.rebuildTm.keySel0 = s.keySel0 := by unfold State.rebuildTm; split <;> rfl
@[simp] theorem State.rebuildTm_keySel1 (s : State) : s.rebuildTm.keySel1 = s.keySel1 := by unfold State.rebuildTm; split <;> rfl
@[simp] theorem State.rebuildTm_keySel2 (s : State) : s.rebuildTm.keySel2 = s.keySel2 := by unfold State.rebuildTm; split <;> rfl
@[simp] theorem State.rebuildTm_anomaly (s : State) : s.rebuildTm.anomaly = s.anomaly := by unfold State.rebuildTm; split <;> rfl
@[simp] theorem State.rebuildTm_waiter (s : State) : s.rebuildTm.waiter = s.waiter := by unfold State.rebuildTm; split <;> rfl
@[simp] theorem State.rebuildTm_inputs (s : State) : s.rebuildTm.inputs = s.inputs := by unfold State.rebuildTm; split <;> rfl
@[simp] theorem State.rebuildTm_pending (s : State) : s.rebuildTm.pending = s.pending := by unfold State.rebuildTm; split <;> rfl
@[simp] theorem State.rebuildTm_heldMasters (s : State) : s.rebuildTm.heldMasters = s.heldMasters := by unfold State.rebuildTm; split <;> rfl
@[simp] theorem State.rebuildTm_busMaster (s : State) : s.rebuildTm.busMaster = s.busMaster := by unfold State.rebuildTm; split <;> rfl
@[simp] theorem State.rebuildTm_readData (s : State) : s.rebuildTm.readData = s.readData := by unfold State.rebuildTm; split <;> rfl
@[simp] theorem State.rebuildTm_sampled (s : State) : s.rebuildTm.sampled = s.sampled := by unfold State.rebuildTm; split <;> rfl
@[simp] theorem State.rebuildTm_frameReady (s : State) : s.rebuildTm.frameReady = s.frameReady := by unfold State.rebuildTm; split <;> rfl
@[simp] theorem State.rebuildTm_freeCount (s : State) : s.rebuildTm.freeCount = s.freeCount := by unfold State.rebuildTm; split <;> rfl

/-! ### rebuildSpr: the fields it leaves alone -/

@[simp] theorem State.rebuildSpr_mode (s : State) : s.rebuildSpr.mode = s.mode := by unfold State.rebuildSpr; split <;> rfl
@[simp] theorem State.rebuildSpr_fbEnabled (s : State) : s.rebuildSpr.fbEnabled = s.fbEnabled := by unfold State.rebuildSpr; split <;> rfl
@[simp] theorem State.rebuildSpr_tmEnabled (s : State) : s.rebuildSpr.tmEnabled = s.tmEnabled := by unfold State.rebuildSpr; split <;> rfl
@[simp] theorem State.rebuildSpr_msPerFrame (s : State) : s.rebuildSpr.msPerFrame = s.msPerFrame := by unfold State.rebuildSpr; split <;> rfl
@[simp] theorem State.rebuildSpr_fbInFront (s : State) : s.rebuildSpr.fbInFront = s.fbInFront := by unfold State.rebuildSpr; split <;> rfl
@[simp] theorem State.rebuildSpr_scx (s : State) : s.rebuildSpr.scx = s.scx := by unfold State.rebuildSpr; split <;> rfl
@[simp] theorem State.rebuildSpr_scy (s : State) : s.rebuildSpr.scy = s.scy := by unfold State.rebuildSpr; split <;> rfl
@[simp] theorem State.rebuildSpr_pal (s : State) : s.rebuildSpr.pal = s.pal := by unfold State.rebuildSpr; split <;> rfl
@[simp] theorem State.rebuildSpr_bg (s : State) : s.rebuildSpr.bg = s.bg := by unfold State.rebuildSpr; split <;> rfl
@[simp] theorem State.rebuildSpr_back (s : State) : s.rebuildSpr.back = s.back := by unfold State.rebuildSpr; split <;> rfl
@[simp] theorem State.rebuildSpr_front (s : State) : s.rebuildSpr.front = s.front := by unfold State.rebuildSpr; split <;> rfl
@[simp] theorem State.rebuildSpr_fb (s : State) : s.rebuildSpr.fb = s.fb := by unfold State.rebuildSpr; split <;> rfl
@[simp] theorem State.rebuildSpr_tmTable (s : State) : s.rebuildSpr.tmTable = s.tmTable := by unfold State.rebuildSpr; split <;> rfl
@[simp] theorem State.rebuildSpr_tmGfx (s : State) : s.rebuildSpr.tmGfx = s.tmGfx := by unfold State.rebuildSpr; split <;> rfl
@[simp] theorem State.rebuildSpr_sprTable (s : State) : s.rebuildSpr.sprTable = s.sprTable := by unfold State.rebuildSpr; split <;> rfl
@[simp] theorem State.rebuildSpr_sprGfx (s : State) : s.rebuildSpr.sprGfx = s.sprGfx := by unfold State.rebuildSpr; split <;> rfl
@[simp] theorem State.rebuildSpr_palDirty (s : State) : s.rebuildSpr.palDirty = s.palDirty := by unfold State.rebuildSpr; split <;> rfl
@[simp] theorem State.rebuildSpr_fbDirty (s : State) : s.rebuildSpr.fbDirty = s.fbDirty := by unfold State.rebuildSpr; split <;> rfl
@[simp] theorem State.rebuildSpr_tmDirty (s : State) : s.rebuildSpr.tmDirty = s.tmDirty := by unfold State.rebuildSpr; split <;> rfl
@[simp] theorem State.rebuildSpr_fbLayer (s : State) : s.rebuildSpr.fbLayer = s.fbLayer := by unfold State.rebuildSpr; split <;> rfl
@[simp] theorem State.rebuildSpr_tmLo (s : State) : s.rebuildSpr.tmLo = s.tmLo := by unfold State.rebuildSpr; split <;> rfl
@[simp] theorem State.rebuildSpr_tmHi (s : State) : s.rebuildSpr.tmHi = s.tmHi := by unfold State.rebuildSpr; split <;> rfl
@[simp] theorem State.rebuildSpr_outImage (s : State) : s.rebuildSpr.outImage = s.outImage := by unfold State.rebuildSpr; split <;> rfl
@[simp] theorem State.rebuildSpr_keySel0 (s : State) : s.rebuildSpr.keySel0 = s.keySel0 := by unfold State.rebuildSpr; split <;> rfl
@[simp] theorem State.rebuildSpr_keySel1 (s : State) : s.rebuildSpr.keySel1 = s.keySel1 := by unfold State.rebuildSpr; split <;> rfl
@[simp] theorem State.rebuildSpr_keySel2 (s : State) : s.rebuildSpr.keySel2 = s.keySel2 := by unfold State.rebuildSpr; split <;> rfl
@[simp] theorem State.rebuildSpr_anomaly (s : State) : s.rebuildSpr.anomaly = s.anomaly := by unfold State.rebuildSpr; split <;> rfl
@[simp] theorem State.rebuildSpr_waiter (s : State) : s.rebuildSpr.waiter = s.waiter := by unfold State.rebuildSpr; split <;> rfl
@[simp] theorem State.rebuildSpr_inputs (s : State) : s.rebuildSpr.inputs = s.inputs := by unfold State.rebuildSpr; split <;> rfl
@[simp] theorem State.rebuildSpr_pending (s : State) : s.rebuildSpr.pending = s.pending := by unfold State.rebuildSpr; split <;> rfl
@[simp] theorem State.rebuildSpr_heldMasters (s : State) : s.rebuildSpr.heldMasters = s.heldMasters := by unfold State.rebuildSpr; split <;> rfl
@[simp] theorem State.rebuildSpr_busMaster (s : State) : s.rebuildSpr.busMaster = s.busMaster := by unfold State.rebuildSpr; split <;> rfl
@[simp] theorem State.rebuildSpr_readData (s : State) : s.rebuildSpr.readData = s.readData := by unfold State.rebuildSpr; split <;> rfl
@[simp] theorem State.rebuildSpr_sampled (s : State) : s.rebuildSpr.sampled = s.sampled := by unfold State.rebuildSpr; split <;> rfl
@[simp] theorem State.rebuildSpr_frameReady (s : State) : s.rebuildSpr.frameReady = s.frameReady := by unfold State.rebuildSpr; split <;> rfl
@[simp] theorem State.rebuildSpr_freeCount (s : State) : s.rebuildSpr.freeCount = s.freeCount := by unfold State.rebuildSpr; split <;> rfl

/-! ### putColor: the fields it leaves alone -/

@[simp] theorem State.putColor_mode (s : State) (e : Byte) (c : RGB) : (s.putColor e c).mode = s.mode := by unfold State.putColor; split <;> rfl
@[simp] theorem State.putColor_fbEnabled (s : State) (e : Byte) (c : RGB) : (s.putColor e c).fbEnabled = s.fbEnabled := by unfold State.putColor; split <;> rfl
@[simp] theorem State.putColor_tmEnabled (s : State) (e : Byte) (c : RGB) : (s.putColor e c).tmEnabled = s.tmEnabled := by unfold State.putColor; split <;> rfl
@[simp] theorem State.putColor_msPerFrame (s : State) (e : Byte) (c : RGB) : (s.putColor e c).msPerFrame = s.msPerFrame := by unfold State.putColor; split <;> rfl
@[simp] theorem State.putColor_fbInFront (s : State) (e : Byte) (c : RGB) : (s.putColor e c).fbInFront = s.fbInFront := by unfold State.putColor; split <;> rfl
@[simp] theorem State.putColor_scx (s : State) (e : Byte) (c : RGB) : (s.putColor e c).scx = s.scx := by unfold State.putColor; split <;> rfl
@[simp] theorem State.putColor_scy (s : State) (e : Byte) (c : RGB) : (s.putColor e c).scy = s.scy := by unfold State.putColor; split <;> rfl
@[simp] theorem State.putColor_back (s : State) (e : Byte) (c : RGB) : (s.putColor e c).back = s.back := by unfold State.putColor; split <;> rfl
@[simp] theorem State.putColor_front (s : State) (e : Byte) (c : RGB) : (s.putColor e c).front = s.front := by unfold State.putColor; split <;> rfl
@[simp] theorem State.putColor_fb (s : State) (e : Byte) (c : RGB) : (s.putColor e c).fb = s.fb := by unfold State.putColor; split <;> rfl
@[simp] theorem State.putColor_tmTable (s : State) (e : Byte) (c : RGB) : (s.putColor e c).tmTable = s.tmTable := by unfold State.putColor; split <;> rfl
@[simp] theorem State.putColor_tmGfx (s : State) (e : Byte) (c : RGB) : (s.putColor e c).tmGfx = s.tmGfx := by unfold State.putColor; split <;> rfl
@[simp] theorem State.putColor_sprTable (s : State) (e : Byte) (c : RGB) : (s.putColor e c).sprTable = s.sprTable := by unfold State.putColor; split <;> rfl
@[simp] theorem State.putColor_sprGfx (s : State) (e : Byte) (c : RGB) : (s.putColor e c).sprGfx = s.sprGfx := by unfold State.putColor; split <;> rfl
@[simp] theorem State.putColor_fbDirty (s : State) (e : Byte) (c : RGB) : (s.putColor e c).fbDirty = s.fbDirty := by unfold State.putColor; split <;> rfl
@[simp] theorem State.putColor_tmDirty (s : State) (e : Byte) (c : RGB) : (s.putColor e c).tmDirty = s.tmDirty := by unfold State.putColor; split <;> rfl
@[simp] theorem State.putColor_sprDirty (s : State) (e : Byte) (c : RGB) : (s.putColor e c).sprDirty = s.sprDirty := by unfold State.putColor; split <;> rfl
@[simp] theorem State.putColor_fbLayer (s : State) (e : Byte) (c : RGB) : (s.putColor e c).fbLayer = s.fbLayer := by unfold State.putColor; split <;> rfl
@[simp] theorem State.putColor_tmLo (s : State) (e : Byte) (c : RGB) : (s.putColor e c).tmLo = s.tmLo := by unfold State.putColor; split <;> rfl
@[simp] theorem State.putColor_tmHi (s : State) (e : Byte) (c : RGB) : (s.putColor e c).tmHi = s.tmHi := by unfold State.putColor; split <;> rfl
@[simp] theorem State.putColor_sprLayer (s : State) (e : Byte) (c : RGB) : (s.putColor e c).sprLayer = s.sprLayer := by unfold State.putColor; split <;> rfl
@[simp] theorem State.putColor_outImage (s : State) (e : Byte) (c : RGB) : (s.putColor e c).outImage = s.outImage := by unfold State.putColor; split <;> rfl
@[simp] theorem State.putColor_keySel0 (s : State) (e : Byte) (c : RGB) : (s.putColor e c).keySel0 = s.keySel0 := by unfold State.putColor; split <;> rfl
@[simp] theorem State.putColor_keySel1 (s : State) (e : Byte) (c : RGB) : (s.putColor e c).keySel1 = s.keySel1 := by unfold State.putColor; split <;> rfl
@[simp] theorem State.putColor_keySel2 (s : State) (e : Byte) (c : RGB) : (s.putColor e c).keySel2 = s.keySel2 := by unfold State.putColor; split <;> rfl
@[simp] theorem State.putColor_anomaly (s : State) (e : Byte) (c : RGB) : (s.putColor e c).anomaly = s.anomaly := by unfold State.putColor; split <;> rfl
@[simp] theorem State.putColor_waiter (s : State) (e : Byte) (c : RGB) : (s.putColor e c).waiter = s.waiter := by unfold State.putColor; split <;> rfl
@[simp] theorem State.putColor_inputs (s : State) (e : Byte) (c : RGB) : (s.putColor e c).inputs = s.inputs := by unfold State.putColor; split <;> rfl
@[simp] theorem State.putColor_pending (s : State) (e : Byte) (c : RGB) : (s.putColor e c).pending = s.pending := by unfold State.putColor; split <;> rfl
@[simp] theorem State.putColor_heldMasters (s : State) (e : Byte) (c : RGB) : (s.putColor e c).heldMasters = s.heldMasters := by unfold State.putColor; split <;> rfl
@[simp] theorem State.putColor_busMaster (s : State) (e : Byte) (c : RGB) : (s.putColor e c).busMaster = s.busMaster := by unfold State.putColor; split <;> rfl
@[simp] theorem State.putColor_readData (s : State) (e : Byte) (c : RGB) : (s.putColor e c).readData = s.readData := by unfold State.putColor; split <;> rfl
@[simp] theorem State.putColor_sampled (s : State) (e : Byte) (c : RGB) : (s.putColor e c).sampled = s.sampled := by unfold State.putColor; split <;> rfl
@[simp] theorem State.putColor_frameReady (s : State) (e : Byte) (c : RGB) : (s.putColor e c).frameReady = s.frameReady := by unfold State.putColor; split <;> rfl
@[simp] theorem State.putColor_freeCount (s : State) (e : Byte) (c : RGB) : (s.putColor e c).freeCount = s.freeCount := by unfold State.putColor; split <;> rfl

/-! ### rebuild: the fields it leaves alone -/

@[simp] theorem State.rebuild_mode (s : State) : s.rebuild.mode = s.mode := by simp [State.rebuild]
@[simp] theorem State.rebuild_fbEnabled (s : State) : s.rebuild.fbEnabled = s.fbEnabled := by simp [State.rebuild]
@[simp] theorem State.rebuild_tmEnabled (s : State) : s.rebuild.tmEnabled = s.tmEnabled := by simp [State.rebuild]
@[simp] theorem State.rebuild_msPerFrame (s : State) : s.rebuild.msPerFrame = s.msPerFrame := by simp [State.rebuild]
@[simp] theorem State.rebuild_fbInFront (s : State) : s.rebuild.fbInFront = s.fbInFront := by simp [State.rebuild]
@[simp] theorem State.rebuild_scx (s : State) : s.rebuild.scx = s.scx := by simp [State.rebuild]
@[simp] theorem State.rebuild_scy (s : State) : s.rebuild.scy = s.scy := by simp [State.rebuild]
@[simp] theorem State.rebuild_pal (s : State) : s.rebuild.pal = s.pal := by simp [State.rebuild]
@[simp] theorem State.rebuild_bg (s : State) : s.rebuild.bg = s.bg := by simp [State.rebuild]
@[simp] theorem State.rebuild_back (s : State) : s.rebuild.back = s.back := by simp [State.rebuild]
@[simp] theorem State.rebuild_front (s : State) : s.rebuild.front = s.front := by simp [State.rebuild]
@[simp] theorem State.rebuild_fb (s : State) : s.rebuild.fb = s.fb := by simp [State.rebuild]
@[simp] theorem State.rebuild_tmTable (s : State) : s.rebuild.tmTable = s.tmTable := by simp [State.rebuild]
@[simp] theorem State.rebuild_tmGfx (s : State) : s.rebuild.tmGfx = s.tmGfx := by simp [State.rebuild]
@[simp] theorem State.rebuild_sprTable (s : State) : s.rebuild.sprTable = s.sprTable := by simp [State.rebuild]
@[simp] theorem State.rebuild_sprGfx (s : State) : s.rebuild.sprGfx = s.sprGfx := by simp [State.rebuild]
@[simp] theorem State.rebuild_outImage (s : State) : s.rebuild.outImage = s.outImage := by simp [State.rebuild]
@[simp] theorem State.rebuild_keySel0 (s : State) : s.rebuild.keySel0 = s.keySel0 := by simp [State.rebuild]
@[simp] theorem State.rebuild_keySel1 (s : State) : s.rebuild.keySel1 = s.keySel1 := by simp [State.rebuild]
@[simp] theorem State.rebuild_keySel2 (s : State) : s.rebuild.keySel2 = s.keySel2 := by simp [State.rebuild]
@[simp] theorem State.rebuild_anomaly (s : State) : s.rebuild.anomaly = s.anomaly := by simp [State.rebuild]
@[simp] theorem State.rebuild_waiter (s : State) : s.rebuild.waiter = s.waiter := by simp [State.rebuild]
@[simp] theorem State.rebuild_inputs (s : State) : s.rebuild.inputs = s.inputs := by simp [State.rebuild]
@[simp] theorem State.rebuild_pending (s : State) : s.rebuild.pending = s.pending := by simp [State.rebuild]
@[simp] theorem State.rebuild_heldMasters (s : State) : s.rebuild.heldMasters = s.heldMasters := by simp [State.rebuild]
@[simp] theorem State.rebuild_busMaster (s : State) : s.rebuild.busMaster = s.busMaster := by simp [State.rebuild]
@[simp] theorem State.rebuild_readData (s : State) : s.rebuild.readData = s.readData := by simp [State.rebuild]
@[simp] theorem State.rebuild_sampled (s : State) : s.rebuild.sampled = s.sampled := by simp [State.rebuild]
@[simp] theorem State.rebuild_frameReady (s : State) : s.rebuild.frameReady = s.frameReady := by simp [State.rebuild]
@[simp] theorem State.rebuild_freeCount (s : State) : s.rebuild.freeCount = s.freeCount := by simp [State.rebuild]

/-! ### palWrite: the fields it leaves alone -/

@[simp] theorem State.palWrite_mode (s : State) (off : Offset) (d : WVal) : (s.palWrite off d).mode = s.mode := by unfold State.palWrite; split <;> simp
@[simp] theorem State.palWrite_fbEnabled (s : State) (off : Offset) (d : WVal) : (s.palWrite off d).fbEnabled = s.fbEnabled := by unfold State.palWrite; split <;> simp
@[simp] theorem State.palWrite_tmEnabled (s : State) (off : Offset) (d : WVal) : (s.palWrite off d).tmEnabled = s.tmEnabled := by unfold State.palWrite; split <;> simp
@[simp] theorem State.palWrite_msPerFrame (s : State) (off : Offset) (d : WVal) : (s.palWrite off d).msPerFrame = s.msPerFrame := by unfold State.palWrite; split <;> simp
@[simp] theorem State.palWrite_fbInFront (s : State) (off : Offset) (d : WVal) : (s.palWrite off d).fbInFront = s.fbInFront := by unfold State.palWrite; split <;> simp
@[simp] theorem State.palWrite_scx (s : State) (off : Offset) (d : WVal) : (s.palWrite off d).scx = s.scx := by unfold State.palWrite; split <;> simp
@[simp] theorem State.palWrite_scy (s : State) (off : Offset) (d : WVal) : (s.palWrite off d).scy = s.scy := by unfold State.palWrite; split <;> simp
@[simp] theorem State.palWrite_back (s : State) (off : Offset) (d : WVal) : (s.palWrite off d).back = s.back := by unfold State.palWrite; split <;> simp
@[simp] theorem State.palWrite_front (s : State) (off : Offset) (d : WVal) : (s.palWrite off d).front = s.front := by unfold State.palWrite; split <;> simp
@[simp] theorem State.palWrite_fb (s : State) (off : Offset) (d : WVal) : (s.palWrite off d).fb = s.fb := by unfold State.palWrite; split <;> simp
@[simp] theorem State.palWrite_tmTable (s : State) (off : Offset) (d : WVal) : (s.palWrite off d).tmTable = s.tmTable := by unfold State.palWrite; split <;> simp
@[simp] theorem State.palWrite_tmGfx (s : State) (off : Offset) (d : WVal) : (s.palWrite off d).tmGfx = s.tmGfx := by unfold State.palWrite; split <;> simp
@[simp] theorem State.palWrite_sprTable (s : State) (off : Offset) (d : WVal) : (s.palWrite off d).sprTable = s.sprTable := by unfold State.palWrite; split <;> simp
@[simp] theorem State.palWrite_sprGfx (s : State) (off : Offset) (d : WVal) : (s.palWrite off d).sprGfx = s.sprGfx := by unfold State.palWrite; split <;> simp
@[simp] theorem State.palWrite_fbDirty (s : State) (off : Offset) (d : WVal) : (s.palWrite off d).fbDirty = s.fbDirty := by unfold State.palWrite; split <;> simp
@[simp] theorem State.palWrite_tmDirty (s : State) (off : Offset) (d : WVal) : (s.palWrite off d).tmDirty = s.tmDirty := by unfold State.palWrite; split <;> simp
@[simp] theorem State.palWrite_sprDirty (s : State) (off : Offset) (d : WVal) : (s.palWrite off d).sprDirty = s.sprDirty := by unfold State.palWrite; split <;> simp
@[simp] theorem State.palWrite_fbLayer (s : State) (off : Offset) (d : WVal) : (s.palWrite off d).fbLayer = s.fbLayer := by unfold State.palWrite; split <;> simp
@[simp] theorem State.palWrite_tmLo (s : State) (off : Offset) (d : WVal) : (s.palWrite off d).tmLo = s.tmLo := by unfold State.palWrite; split <;> simp
@[simp] theorem State.palWrite_tmHi (s : State) (off : Offset) (d : WVal) : (s.palWrite off d).tmHi = s.tmHi := by unfold State.palWrite; split <;> simp
@[simp] theorem State.palWrite_sprLayer (s : State) (off : Offset) (d : WVal) : (s.palWrite off d).sprLayer = s.sprLayer := by unfold State.palWrite; split <;> simp
@[simp] theorem State.palWrite_outImage (s : State) (off : Offset) (d : WVal) : (s.palWrite off d).outImage = s.outImage := by unfold State.palWrite; split <;> simp
@[simp] theorem State.palWrite_keySel0 (s : State) (off : Offset) (d : WVal) : (s.palWrite off d).keySel0 = s.keySel0 := by unfold State.palWrite; split <;> simp
@[simp] theorem State.palWrite_keySel1 (s : State) (off : Offset) (d : WVal) : (s.palWrite off d).keySel1 = s.keySel1 := by unfold State.palWrite; split <;> simp
@[simp] theorem State.palWrite_keySel2 (s : State) (off : Offset) (d : WVal) : (s.palWrite off d).keySel2 = s.keySel2 := by unfold State.palWrite; split <;> simp
@[simp] theorem State.palWrite_anomaly (s : State) (off : Offset) (d : WVal) : (s.palWrite off d).anomaly = s.anomaly := by unfold State.palWrite; split <;> simp
@[simp] theorem State.palWrite_waiter (s : State) (off : Offset) (d : WVal) : (s.palWrite off d).waiter = s.waiter := by unfold State.palWrite; split <;> simp
@[simp] theorem State.palWrite_inputs (s : State) (off : Offset) (d : WVal) : (s.palWrite off d).inputs = s.inputs := by unfold State.palWrite; split <;> simp
@[simp] theorem State.palWrite_pending (s : State) (off : Offset) (d : WVal) : (s.palWrite off d).pending = s.pending := by unfold State.palWrite; split <;> simp
@[simp] theorem State.palWrite_heldMasters (s : State) (off : Offset) (d : WVal) : (s.palWrite off d).heldMasters = s.heldMasters := by unfold State.palWrite; split <;> simp
@[simp] theorem State.palWrite_busMaster (s : State) (off : Offset) (d : WVal) : (s.palWrite off d).busMaster = s.busMaster := by unfold State.palWrite; split <;> simp
@[simp] theorem State.palWrite_readData (s : State) (off : Offset) (d : WVal) : (s.palWrite off d).readData = s.readData := by unfold State.palWrite; split <;> simp
@[simp] theorem State.palWrite_sampled (s : State) (off : Offset) (d : WVal) : (s.palWrite off d).sampled = s.sampled := by unfold State.palWrite; split <;> simp
@[simp] theorem State.palWrite_frameReady (s : State) (off : Offset) (d : WVal) : (s.palWrite off d).frameReady = s.frameReady := by unfold State.palWrite; split <;> simp
@[simp] theorem State.palWrite_freeCount (s : State) (off : Offset) (d : WVal) : (s.palWrite off d).freeCount = s.freeCount := by unfold State.palWrite; split <;> simp

end Sys2Proof.Machine
end

