-- ==== Sys2Proof/Laws/Compositor.lean ====
section
/-!
SUPPORT. What propagation and each rebuild do to the flags and layers: one lemma for each, all cases named.
-/

namespace Sys2Proof.Machine

/-- Propagation clears `palDirty` and passes it on to every plane (45_compositor R291). -/
theorem State.propagate_flags (s : State) :
    s.propagate.palDirty = false ∧ s.propagate.fbDirty = (s.fbDirty || s.palDirty) ∧
      s.propagate.tmDirty = (s.tmDirty || s.palDirty) ∧ s.propagate.sprDirty = (s.sprDirty || s.palDirty) := by
  unfold State.propagate
  split <;> simp_all

theorem State.rebuildFb_cases (s : State) :
    (s.fbEnabled = true ∧ s.fbDirty = true ∧ s.rebuildFb.fbDirty = false ∧ s.rebuildFb.fbLayer = fbLayerOf s.pal s.fb) ∨
      ((s.fbEnabled && s.fbDirty) = false ∧ s.rebuildFb = s) := by
  unfold State.rebuildFb
  split
  · next h => simp only [Bool.and_eq_true] at h; exact .inl ⟨h.1, h.2, rfl, rfl⟩
  · next h => exact .inr ⟨by simpa using h, rfl⟩

theorem State.rebuildTm_cases (s : State) :
    (s.tmEnabled = true ∧ s.tmDirty = true ∧ s.rebuildTm.tmDirty = false ∧
        s.rebuildTm.tmLo = tmLoOf s.pal s.tmTable s.tmGfx s.scx s.scy ∧
        s.rebuildTm.tmHi = tmHiOf s.pal s.tmTable s.tmGfx s.scx s.scy) ∨
      ((s.tmEnabled && s.tmDirty) = false ∧ s.rebuildTm = s) := by
  unfold State.rebuildTm
  split
  · next h => simp only [Bool.and_eq_true] at h; exact .inl ⟨h.1, h.2, rfl, rfl, rfl⟩
  · next h => exact .inr ⟨by simpa using h, rfl⟩

theorem State.rebuildSpr_cases (s : State) :
    (s.sprDirty = true ∧ s.rebuildSpr.sprDirty = false ∧
        s.rebuildSpr.sprLayer = sprLayerOf s.pal s.sprTable s.sprGfx) ∨
      (s.sprDirty = false ∧ s.rebuildSpr = s) := by
  unfold State.rebuildSpr
  split
  · next h => exact .inl ⟨h, rfl, rfl⟩
  · next h => exact .inr ⟨by simpa using h, rfl⟩

/-- Propagation as one record update (45_compositor R291). -/
theorem State.propagate_eq (s : State) :
    s.propagate = { s with palDirty := false, fbDirty := s.fbDirty || s.palDirty, tmDirty := s.tmDirty || s.palDirty,
                           sprDirty := s.sprDirty || s.palDirty } := by
  obtain ⟨h1, h2, h3, h4⟩ := s.propagate_flags
  rw [← h1, ← h2, ← h3, ← h4]
  unfold State.propagate
  split <;> rfl

/-- The framebuffer rebuild as one record update (45_compositor R292). -/
theorem State.rebuildFb_eq (s : State) :
    s.rebuildFb = { s with fbDirty := s.fbDirty && !s.fbEnabled,
                           fbLayer := if s.fbEnabled && s.fbDirty then fbLayerOf s.pal s.fb else s.fbLayer } := by
  have hd : s.rebuildFb.fbDirty = (s.fbDirty && !s.fbEnabled) := by
    unfold State.rebuildFb
    cases s.fbEnabled <;> cases h : s.fbDirty <;> simp [h]
  have hl : s.rebuildFb.fbLayer = if s.fbEnabled && s.fbDirty then fbLayerOf s.pal s.fb else s.fbLayer := by
    unfold State.rebuildFb
    split <;> rfl
  rw [← hd, ← hl]
  unfold State.rebuildFb
  split <;> rfl

/-- The tilemap rebuild as one record update (45_compositor R293). -/
theorem State.rebuildTm_eq (s : State) :
    s.rebuildTm = { s with
      tmDirty := s.tmDirty && !s.tmEnabled
      tmLo := if s.tmEnabled && s.tmDirty then tmLoOf s.pal s.tmTable s.tmGfx s.scx s.scy else s.tmLo
      tmHi := if s.tmEnabled && s.tmDirty then tmHiOf s.pal s.tmTable s.tmGfx s.scx s.scy else s.tmHi } := by
  have hd : s.rebuildTm.tmDirty = (s.tmDirty && !s.tmEnabled) := by
    unfold State.rebuildTm
    cases s.tmEnabled <;> cases h : s.tmDirty <;> simp [h]
  have hl : s.rebuildTm.tmLo =
      if s.tmEnabled && s.tmDirty then tmLoOf s.pal s.tmTable s.tmGfx s.scx s.scy else s.tmLo := by
    unfold State.rebuildTm
    split <;> rfl
  have hh : s.rebuildTm.tmHi =
      if s.tmEnabled && s.tmDirty then tmHiOf s.pal s.tmTable s.tmGfx s.scx s.scy else s.tmHi := by
    unfold State.rebuildTm
    split <;> rfl
  rw [← hd, ← hl, ← hh]
  unfold State.rebuildTm
  split <;> rfl

/-- The sprite rebuild as one record update (45_compositor R294). -/
theorem State.rebuildSpr_eq (s : State) :
    s.rebuildSpr = { s with sprDirty := false,
                            sprLayer := if s.sprDirty then sprLayerOf s.pal s.sprTable s.sprGfx else s.sprLayer } := by
  have hd : s.rebuildSpr.sprDirty = false := by
    unfold State.rebuildSpr
    cases h : s.sprDirty <;> simp [h]
  have hl : s.rebuildSpr.sprLayer = if s.sprDirty then sprLayerOf s.pal s.sprTable s.sprGfx else s.sprLayer := by
    unfold State.rebuildSpr
    split <;> rfl
  rw [← hd, ← hl]
  unfold State.rebuildSpr
  split <;> rfl
end Sys2Proof.Machine
end

