-- ==== Sys2Proof/Laws/Config.lean ====
section
/-!
SUPPORT. What the open parameters satisfy, whatever their values (spec/00_scope.md R8).
-/

namespace Sys2Proof

theorem Config.enhThreshold_toNat : Config.enhThreshold.toNat = 2 ^ (Config.enhBitIndex.val + 2) := by
  have h := Config.enhBitIndex.isLt
  have hlt : 2 ^ (Config.enhBitIndex.val + 2) < 2 ^ 32 := Nat.pow_lt_pow_right (by omega) (by omega)
  simp only [Config.enhThreshold, BitVec.toNat_shiftLeft, BitVec.toNat_ofNat]
  rw [Nat.shiftLeft_eq]
  norm_num
  exact hlt

/-- `ENH_THRESHOLD` is greater than 3. -/
theorem Config.four_le_enhThreshold : 4 ≤ Config.enhThreshold.toNat := by
  rw [Config.enhThreshold_toNat, pow_add]
  have := Nat.one_le_two_pow (n := Config.enhBitIndex.val)
  omega

theorem Config.deadEnd_lower : 0x1008 ≤ Config.classicDeadEnd := by
  simp [Config.classicDeadEnd]

theorem Config.deadEnd_upper : Config.classicDeadEnd ≤ 0x10000 := by
  have := Config.deadZoneSize.isLt
  simp only [Config.classicDeadEnd]
  omega

/-- `BASE` is a multiple of 0x10000. -/
theorem Config.base_dvd : 0x10000 ∣ Config.base := ⟨Config.basePage, Nat.mul_comm _ _⟩

/-- There is at least one master. -/
theorem Config.nMasters_pos : 0 < Config.nMasters := Nat.succ_pos _

end Sys2Proof
end

