-- ==== Sys2Proof/Laws/Decode.lean ====
section
/-!
SUPPORT. What the packet layout and the decoder do to a packet's own bytes: one lemma for each function.
-/

namespace Sys2Proof

theorem takeWord_wordBytes (w : Word) (rest : List Byte) : takeWord (wordBytes w ++ rest) = some (w, rest) := by
  have : (byteOf w 3 ++ byteOf w 2 ++ byteOf w 1 ++ byteOf w 0 : BitVec 32) = w := by
    ext i hi
    simp only [byteOf, BitVec.getElem_append, BitVec.getElem_extractLsb']
    split_ifs <;> simp only [← BitVec.getLsbD_eq_getElem] <;> congr 1 <;> omega
  simp only [wordBytes, WVal.bytes, List.cons_append, List.nil_append, takeWord]
  rw [this]

theorem headerWord_getLsbD (kind : BitVec 4) (width : BitVec 2) (key : BitVec 18) (i : Nat) :
    (headerWord kind width key).getLsbD i =
      if i < 18 then key.getLsbD i else if i < 20 then width.getLsbD (i - 18)
      else if i < 24 then kind.getLsbD (i - 20) else false := by
  have h : (headerWord kind width key).getLsbD i = (0#8 ++ kind ++ width ++ key).getLsbD i := rfl
  rw [h]
  simp only [BitVec.getLsbD_append, BitVec.getLsbD_zero]
  split_ifs <;> first | rfl | omega

theorem decodeKey_getLsbD (m : Mode) (b : Bool) (off : Offset) (i : Nat) :
    (decodeKey m b off).getLsbD i =
      if i < 16 then off.getLsbD i else if i = 16 then b else if i = 17 then m.bit.getLsbD 0 else false := by
  have h : (decodeKey m b off).getLsbD i = (m.bit ++ BitVec.ofBool b ++ off).getLsbD i := rfl
  rw [h]
  simp only [BitVec.getLsbD_append, BitVec.getLsbD_ofBool]
  by_cases h1 : i < 16
  · rw [if_pos h1, if_pos h1]
  · by_cases h3 : i = 16
    · subst h3; simp
    · by_cases h4 : i = 17
      · subst h4; simp
      · rw [if_neg h1, if_neg (by omega), if_neg h1, if_neg h3, if_neg h4]
        exact BitVec.getLsbD_of_ge _ _ (by omega)

theorem headerWord_top (kind : BitVec 4) (width : BitVec 2) (key : BitVec 18) :
    (headerWord kind width key).extractLsb' 24 8 = 0 := by
  ext i hi
  simp only [BitVec.getElem_extractLsb', headerWord_getLsbD]
  rw [if_neg (by omega), if_neg (by omega), if_neg (by omega)]; simp

theorem headerWord_kind (kind : BitVec 4) (width : BitVec 2) (key : BitVec 18) :
    (headerWord kind width key).extractLsb' 20 4 = kind := by
  ext i hi
  simp only [BitVec.getElem_extractLsb', headerWord_getLsbD]
  rw [if_neg (by omega), if_neg (by omega), if_pos (by omega), ← BitVec.getLsbD_eq_getElem]; congr 1; omega

theorem headerWord_width (kind : BitVec 4) (width : BitVec 2) (key : BitVec 18) :
    (headerWord kind width key).extractLsb' 18 2 = width := by
  ext i hi
  simp only [BitVec.getElem_extractLsb', headerWord_getLsbD]
  rw [if_neg (by omega), if_pos (by omega), ← BitVec.getLsbD_eq_getElem]; congr 1; omega

theorem headerWord_op (kind : BitVec 4) (width : BitVec 2) (m : Mode) (b : Bool) (off : Offset) :
    (headerWord kind width (decodeKey m b off)).getLsbD 16 = b := by
  simp only [headerWord_getLsbD, decodeKey_getLsbD]; simp

theorem headerWord_off (kind : BitVec 4) (width : BitVec 2) (m : Mode) (b : Bool) (off : Offset) :
    headerOff (headerWord kind width (decodeKey m b off)) = off := by
  ext i hi
  simp only [headerOff, BitVec.getElem_extractLsb', headerWord_getLsbD, decodeKey_getLsbD]
  rw [if_pos (by omega), if_pos (by omega), ← BitVec.getLsbD_eq_getElem]; congr 1; omega

theorem headerWord_mode (kind : BitVec 4) (width : BitVec 2) (m : Mode) (b : Bool) (off : Offset) :
    headerMode (headerWord kind width (decodeKey m b off)) = m := by
  simp only [headerMode, headerWord_getLsbD, decodeKey_getLsbD]
  cases m <;> simp [Mode.bit, Mode.ofBit]

theorem Width.ofCode_code (w : Width) : Width.ofCode w.code = some w := by cases w <;> rfl

theorem WVal.ofWord_toWord (d : WVal) : WVal.ofWord d.width d.toWord = some d := by
  cases d with
  | b1 v =>
    have h : (v.setWidth 32 : Word).extractLsb' 8 24 = 0 := by
      apply BitVec.eq_of_toNat_eq; have := v.isLt; simp [Nat.shiftRight_eq_div_pow]; omega
    have h2 : (v.setWidth 32 : Word).extractLsb' 0 8 = v := by
      apply BitVec.eq_of_toNat_eq; have := v.isLt; simp; omega
    simp only [WVal.width, WVal.toWord, WVal.ofWord, h, h2, if_true]
  | b2 v =>
    have h : (v.setWidth 32 : Word).extractLsb' 16 16 = 0 := by
      apply BitVec.eq_of_toNat_eq; have := v.isLt; simp [Nat.shiftRight_eq_div_pow]; omega
    have h2 : (v.setWidth 32 : Word).extractLsb' 0 16 = v := by
      apply BitVec.eq_of_toNat_eq; have := v.isLt; simp; omega
    simp only [WVal.width, WVal.toWord, WVal.ofWord, h, h2, if_true]
  | b4 v => rfl

theorem boolOfWord_wordOfBool (b : Bool) : boolOfWord (wordOfBool b) = some b := by cases b <;> decide

/-- A change's three words read back; the first is not the word that ends an INPUT. -/
theorem InputChange.decode_words (c : InputChange) :
    ∃ a b v, c.words = [a, b, v] ∧ a ≠ 0 ∧ InputChange.ofWords a b v = some c := by
  cases c with
  | key t id down =>
    cases t <;> exact ⟨_, _, _, rfl, by decide, by simp [InputChange.ofWords, boolOfWord_wordOfBool]⟩
  | mouseX v => exact ⟨_, _, _, rfl, by decide, rfl⟩
  | mouseY v => exact ⟨_, _, _, rfl, by decide, rfl⟩
  | mouseHeld v => exact ⟨_, _, _, rfl, by decide, rfl⟩
  | mousePressed v => exact ⟨_, _, _, rfl, by decide, rfl⟩
  | mouseReleased v => exact ⟨_, _, _, rfl, by decide, rfl⟩
  | classicKeys v => exact ⟨_, _, _, rfl, by decide, rfl⟩

/-- The changes of an INPUT and the word that ends them read back, whatever follows. -/
theorem decodeChanges_words (cs : List InputChange) (rest : List Byte) (fuel : Nat) (h : cs.length < fuel) :
    decodeChanges fuel ((cs.flatMap InputChange.words ++ [0]).flatMap wordBytes ++ rest) = .ok (cs, rest) := by
  induction cs generalizing fuel with
  | nil =>
    obtain ⟨n, rfl⟩ := Nat.exists_eq_succ_of_ne_zero (Nat.ne_of_gt (Nat.zero_lt_of_lt h))
    simp only [List.flatMap_nil, List.nil_append, List.flatMap_cons, List.append_nil, decodeChanges, takeWord_wordBytes,
      if_true]
  | cons c cs ih =>
    obtain ⟨n, rfl⟩ := Nat.exists_eq_succ_of_ne_zero (Nat.ne_of_gt (Nat.zero_lt_of_lt h))
    obtain ⟨a, b, v, hw, ha, hc⟩ := InputChange.decode_words c
    have hn : cs.length < n := by simpa using h
    simp only [decodeChanges, List.flatMap_cons, hw, List.cons_append, List.nil_append, List.append_assoc,
      takeWord_wordBytes, if_neg ha, hc]
    rw [ih n hn]

/-- An INPUT has at least as many bytes after its header as changes, and more. -/
theorem changes_length_lt (cs : List InputChange) (rest : List Byte) :
    cs.length < ((cs.flatMap InputChange.words ++ [0]).flatMap wordBytes ++ rest).length := by
  induction cs with
  | nil => simp [wordBytes, WVal.bytes]
  | cons c cs ih =>
    obtain ⟨a, b, v, hw, -, -⟩ := InputChange.decode_words c
    simp only [List.flatMap_cons, hw, List.cons_append, List.nil_append, List.length_append, List.length_cons, wordBytes,
      WVal.bytes] at ih ⊢
    omega

/-- Decoding a packet's own bytes gives the packet and the bytes after it. -/
theorem decodePacket_bytes (p : Packet) (rest : List Byte) :
    decodePacket (p.bytes ++ rest) = .ok (p, rest) := by
  cases p with
  | bus m r =>
    cases r with
    | read off w =>
      simp only [Packet.bytes, Packet.words, List.flatMap_cons, List.flatMap_nil, List.append_nil, decodePacket,
        takeWord_wordBytes, headerWord_top, headerWord_kind, decodeBus, headerWord_width, Width.ofCode_code,
        headerWord_op, headerWord_off, headerWord_mode]
      simp
    | write off d =>
      simp only [Packet.bytes, Packet.words, List.flatMap_cons, List.flatMap_nil, List.append_nil, decodePacket,
        List.append_assoc, takeWord_wordBytes, headerWord_top, headerWord_kind, decodeBus, headerWord_width,
        Width.ofCode_code, headerWord_op, headerWord_off, headerWord_mode, WVal.ofWord_toWord]
      simp
  | reset => 
    simp only [Packet.bytes, Packet.words, List.flatMap_cons, List.flatMap_nil, List.append_nil, decodePacket,
      takeWord_wordBytes]
    rfl
  | sample => 
    simp only [Packet.bytes, Packet.words, List.flatMap_cons, List.flatMap_nil, List.append_nil, decodePacket,
      takeWord_wordBytes]
    rfl
  | input cs =>
    have h3 : decodePacket ((Packet.input cs).bytes ++ rest) =
        decodeInput ((cs.flatMap InputChange.words ++ [0]).flatMap wordBytes ++ rest) := by
      simp only [Packet.bytes, Packet.words, List.flatMap_cons, List.append_assoc, decodePacket, takeWord_wordBytes]
      rfl
    rw [h3, decodeInput, decodeChanges_words cs rest _ (changes_length_lt cs rest)]

/-- Decoding a packet's own bytes gives its instruction. -/
theorem decode_bytes (p : Packet) (rest : List Byte) : decode (p.bytes ++ rest) = .ok (p.instr, rest) := by
  simp only [decode, decodePacket_bytes p rest]

end Sys2Proof
end

