-- ==== Sys2Proof/Laws/Inputs.lean ====
section
/-!
SUPPORT. What a change of the inputs does to the key functions as plain data.
-/

namespace Sys2Proof.Machine

/-- Everything `put` does: the identifier is in the set as asked, every other as before. -/
theorem KeySet.mem_put (ks : KeySet) (a b : Nat) (d : Bool) (h : ks.Pairwise (· < ·)) : (b ∈ KeySet.put ks a d ↔ if b = a then d = true else b ∈ ks) := by
  induction ks with
  | nil => cases d <;> simp [KeySet.put]
  | cons k ks ih =>
    rw [List.pairwise_cons] at h
    have ih := ih h.2
    unfold KeySet.put
    split
    · next hlt =>
      have hn : a ∉ ks := fun hm => by have := h.1 a hm; omega
      cases d <;> simp
      · by_cases hb : b = a
        · subst hb; simp [hn]; omega
        · simp [hb]
      · by_cases hb : b = a
        · simp [hb]
        · simp [hb]
    · split
      · next heq =>
        subst heq
        have hn : a ∉ ks := fun hm => by have := h.1 a hm; omega
        cases d <;> simp
        · by_cases hb : b = a
          · simp [hb, hn]
          · simp [hb]
        · by_cases hb : b = a <;> simp [hb]
      · next h1 h2 =>
        rw [List.mem_cons, ih]
        by_cases hb : b = a
        · simp [hb]; omega
        · simp [hb]

/-- `put` keeps the identifiers strictly rising. -/
theorem KeySet.pairwise_put (ks : KeySet) (a : Nat) (d : Bool) (h : ks.Pairwise (· < ·)) : (KeySet.put ks a d).Pairwise (· < ·) := by
  induction ks with
  | nil => cases d <;> simp [KeySet.put]
  | cons k ks ih =>
    have h' := h
    rw [List.pairwise_cons] at h
    have ih := ih h.2
    unfold KeySet.put
    split
    · next hlt =>
      cases d
      · exact h'
      · refine List.pairwise_cons.2 ⟨?_, h'⟩
        intro b hb; rcases List.mem_cons.1 hb with rfl | hb
        · exact hlt
        · exact lt_trans hlt (h.1 b hb)
    · split
      · cases d
        · exact h.2
        · exact h'
      · next h1 h2 =>
        refine List.pairwise_cons.2 ⟨?_, ih⟩
        intro b hb
        rw [KeySet.mem_put _ _ _ _ h.2] at hb
        split at hb
        · omega
        · exact h.1 b hb

/-- `put` of an identifier of 32 bits keeps the one form. -/
theorem KeySet.put_good (ks : KeySet) (a : Nat) (d : Bool) (ha : a < 2 ^ 32) (h : ks.good) : (KeySet.put ks a d).good := by
  refine ⟨KeySet.pairwise_put _ _ _ h.1, fun b hb => ?_⟩
  rw [KeySet.mem_put _ _ _ _ h.1] at hb
  split at hb
  · omega
  · exact h.2 b hb

/-- Any changes keep the key functions in their one form. -/
theorem Inputs.changes_good (s : State) (cs : List InputChange) (h : s.KeySetsGood) :
    ({ s with inputs := s.inputs.changes cs } : State).KeySetsGood := by
  have key : ∀ (cs : List InputChange) (v : Inputs), v.held.good ∧ v.pressed.good ∧ v.released.good →
      (v.changes cs).held.good ∧ (v.changes cs).pressed.good ∧ (v.changes cs).released.good := by
    intro cs
    induction cs with
    | nil => exact fun v h => h
    | cons c cs ih =>
      intro v h
      refine ih (v.change c) ?_
      cases c with
      | key t id d =>
        cases t
        · exact ⟨KeySet.put_good _ _ _ id.isLt h.1, h.2⟩
        · exact ⟨h.1, KeySet.put_good _ _ _ id.isLt h.2.1, h.2.2⟩
        · exact ⟨h.1, h.2.1, KeySet.put_good _ _ _ id.isLt h.2.2⟩
      | _ => exact h
  obtain ⟨a, b, c⟩ := key cs s.inputs ⟨h.1, h.2, h.3⟩
  exact ⟨a, b, c⟩

end Sys2Proof.Machine
end

