-- ==== Sys2Proof/Laws/Memory.lean ====
section
/-!
SUPPORT. The laws of a RAM region: a read after a write, the other indices, the canonical form, the size, and
what a store and a load of a value do.
-/

namespace Sys2Proof

@[simp] theorem Memory.read_nil (a : Nat) : Memory.read [] a = 0 := rfl

theorem Memory.wf_nil : Memory.wf [] := by simp [Memory.wf]

theorem Memory.within_nil (n : Nat) : Memory.within n [] := by simp [Memory.within]

/-- An index below every listed one is unlisted. -/
theorem Memory.read_of_lt (m : Memory) (a : Nat) (h : ∀ c ∈ m, a < c.1) : m.read a = 0 := by
  induction m with
  | nil => rfl
  | cons c m ih =>
    obtain ⟨k, v⟩ := c
    have hk : a < k := h (k, v) (by simp)
    have : k ≠ a := by omega
    simp [Memory.read, this, ih (fun c hc => h c (by simp [hc]))]

/-- A write leaves every other index alone. -/
theorem Memory.read_write_ne (m : Memory) (a b : Nat) (v : Byte) (h : b ≠ a) : (m.write a v).read b = m.read b := by
  induction m with
  | nil =>
    simp only [Memory.write]
    split_ifs
    · rfl
    · simp [Memory.read, Ne.symm h]
  | cons c m ih =>
    obtain ⟨k, u⟩ := c
    simp only [Memory.write]
    split_ifs with h1 h2 h3 h4
    · rfl
    · simp [Memory.read, Ne.symm h]
    · subst h3; simp [Memory.read, Ne.symm h]
    · subst h3; simp [Memory.read, Ne.symm h]
    · simp [Memory.read, ih]

/-- A read after a write to the same index gives the byte written. -/
theorem Memory.read_write (m : Memory) (a : Nat) (v : Byte) (hw : m.wf) : (m.write a v).read a = v := by
  induction m with
  | nil =>
    simp only [Memory.write]
    split_ifs with hv
    · exact hv.symm
    · simp [Memory.read]
  | cons c m ih =>
    obtain ⟨k, u⟩ := c
    obtain ⟨hp, hz⟩ := hw
    rw [List.pairwise_cons] at hp
    have hm : Memory.wf m := ⟨hp.2, fun c hc => hz c (by simp [hc])⟩
    simp only [Memory.write]
    split_ifs with h1 h2 h3 h4
    · have := Memory.read_of_lt ((k, u) :: m) a (by
        intro c hc
        rcases List.mem_cons.1 hc with rfl | hc
        · exact h1
        · exact lt_trans h1 (hp.1 c hc))
      rw [this, h2]; rfl
    · simp [Memory.read]
    · subst h3
      rw [Memory.read_of_lt m a hp.1, h4]; rfl
    · simp [Memory.read]
    · simp [Memory.read, Ne.symm h3, ih hm]

theorem Memory.mem_write (m : Memory) (a : Nat) (v : Byte) (c : Host.Cell) (h : c ∈ m.write a v) :
    c ∈ m ∨ (c = (a, v) ∧ v ≠ Memory.unlisted) := by
  induction m with
  | nil =>
    simp only [Memory.write] at h
    split_ifs at h with hv
    · simp at h
    · exact .inr ⟨by simpa using h, hv⟩
  | cons d m ih =>
    obtain ⟨k, u⟩ := d
    simp only [Memory.write] at h
    split_ifs at h with h1 h2 h3 h4
    · exact .inl h
    · rcases List.mem_cons.1 h with h | h
      · exact .inr ⟨h, h2⟩
      · exact .inl h
    · exact .inl (by simp [h])
    · rcases List.mem_cons.1 h with h | h
      · exact .inr ⟨h, h4⟩
      · exact .inl (by simp [h])
    · rcases List.mem_cons.1 h with h | h
      · exact .inl (by simp [h])
      · rcases ih h with h | h
        · exact .inl (by simp [h])
        · exact .inr h

/-- A write keeps the canonical form. -/
theorem Memory.write_wf (m : Memory) (a : Nat) (v : Byte) (hw : m.wf) : (m.write a v).wf := by
  refine ⟨?_, fun c hc => ?_⟩
  · induction m with
    | nil => simp only [Memory.write]; split_ifs <;> simp
    | cons d m ih =>
      obtain ⟨k, u⟩ := d
      obtain ⟨hp, hz⟩ := hw
      have hp' := hp
      rw [List.pairwise_cons] at hp
      have hm : Memory.wf m := ⟨hp.2, fun c hc => hz c (by simp [hc])⟩
      simp only [Memory.write]
      split_ifs with h1 h2 h3 h4
      · exact hp'
      · refine List.pairwise_cons.2 ⟨fun c hc => ?_, hp'⟩
        rcases List.mem_cons.1 hc with rfl | hc
        · exact h1
        · exact lt_trans h1 (hp.1 c hc)
      · exact hp.2
      · subst h3; exact List.pairwise_cons.2 ⟨hp.1, hp.2⟩
      · refine List.pairwise_cons.2 ⟨fun c hc => ?_, ih hm⟩
        rcases Memory.mem_write m a v c hc with hc | hc
        · exact hp.1 c hc
        · rw [hc.1]; simp only; omega
  · rcases Memory.mem_write m a v c hc with h | h
    · exact hw.2 c h
    · rw [h.1]; exact h.2

/-- A write inside the region stays inside it. -/
theorem Memory.write_within (n : Nat) (m : Memory) (a : Nat) (v : Byte) (hm : m.within n) (ha : a < n) :
    (m.write a v).within n := by
  intro c hc
  rcases Memory.mem_write m a v c hc with h | h
  · exact hm c h
  · rw [h.1]; exact ha

theorem Memory.writeBytes_wf (bs : List Byte) : ∀ (m : Memory) (i : Nat), m.wf → (m.writeBytes i bs).wf := by
  induction bs with
  | nil => intro m i h; exact h
  | cons b bs ih => intro m i h; exact ih _ _ (Memory.write_wf m i b h)

theorem Memory.writeBytes_within (n : Nat) (bs : List Byte) :
    ∀ (m : Memory) (i : Nat), m.within n → i + bs.length ≤ n → (m.writeBytes i bs).within n := by
  induction bs with
  | nil => intro m i h _; exact h
  | cons b bs ih =>
    intro m i h hi
    simp only [List.length_cons] at hi
    exact ih _ _ (Memory.write_within n m i b h (by omega)) (by omega)

/-- Bytes outside the stored ones are unchanged. -/
theorem Memory.read_writeBytes_ne (bs : List Byte) :
    ∀ (m : Memory) (i a : Nat), (a < i ∨ i + bs.length ≤ a) → (m.writeBytes i bs).read a = m.read a := by
  induction bs with
  | nil => intro m i a _; rfl
  | cons b bs ih =>
    intro m i a h
    simp only [List.length_cons] at h
    rw [Memory.writeBytes, ih _ _ _ (by omega), Memory.read_write_ne _ _ _ _ (by omega)]

/-- Each stored byte reads back. -/
theorem Memory.read_writeBytes (bs : List Byte) :
    ∀ (m : Memory) (i j : Nat), m.wf → (h : j < bs.length) → (m.writeBytes i bs).read (i + j) = bs[j] := by
  induction bs with
  | nil => intro m i j _ h; simp at h
  | cons b bs ih =>
    intro m i j hw h
    cases j with
    | zero =>
      rw [Memory.writeBytes, Memory.read_writeBytes_ne _ _ _ _ (by omega)]
      simpa using Memory.read_write m i b hw
    | succ j =>
      have := ih (m.write i b) (i + 1) j (Memory.write_wf m i b hw) (by simpa using h)
      rw [Memory.writeBytes, show i + (j + 1) = i + 1 + j by omega, this]
      simp

theorem WVal.bytes_length (d : WVal) : d.bytes.length = d.width.bytes := by cases d <;> rfl

/-- Byte `j` of a presented value, `v[8j+7:8j]`, where the width has it. -/
theorem WVal.bytes_get (d : WVal) (j : Nat) (h : j < d.bytes.length) :
    d.bytes[j] = byteOf d.toWord j := by
  cases d with
  | b1 v =>
    have : j = 0 := by simp [WVal.bytes] at h; omega
    subst this
    apply BitVec.eq_of_toNat_eq
    simp [WVal.bytes, byteOf, WVal.toWord, Nat.mod_eq_of_lt v.isLt]
  | b2 v =>
    have : j = 0 ∨ j = 1 := by simp [WVal.bytes] at h; omega
    have hv := v.isLt
    rcases this with rfl | rfl
    · apply BitVec.eq_of_toNat_eq
      simp [WVal.bytes, byteOf, WVal.toWord]
    · apply BitVec.eq_of_toNat_eq
      simp [WVal.bytes, byteOf, WVal.toWord, Nat.shiftRight_eq_div_pow]
      omega
  | b4 v =>
    have : j = 0 ∨ j = 1 ∨ j = 2 ∨ j = 3 := by simp [WVal.bytes] at h; omega
    rcases this with rfl | rfl | rfl | rfl <;> rfl

theorem Memory.store_wf (m : Memory) (i : Nat) (d : WVal) (h : m.wf) : (m.store i d).wf :=
  Memory.writeBytes_wf _ _ _ h

theorem Memory.store_within (n : Nat) (m : Memory) (i : Nat) (d : WVal) (h : m.within n)
    (hi : i + d.width.bytes ≤ n) : (m.store i d).within n :=
  Memory.writeBytes_within n _ _ _ h (by rw [WVal.bytes_length]; exact hi)

/-- Everything a store does to the bytes outside it. -/
theorem Memory.read_store_ne (m : Memory) (i : Nat) (d : WVal) (a : Nat) (h : a < i ∨ i + d.width.bytes ≤ a) :
    (m.store i d).read a = m.read a :=
  Memory.read_writeBytes_ne _ _ _ _ (by rw [WVal.bytes_length]; exact h)

/-- Everything a store does to its own bytes: `R[i+j] = v[8j+7:8j]`. -/
theorem Memory.read_store (m : Memory) (i : Nat) (d : WVal) (j : Nat) (hw : m.wf) (h : j < d.width.bytes) :
    (m.store i d).read (i + j) = byteOf d.toWord j := by
  rw [← WVal.bytes_length] at h
  rw [Memory.store, Memory.read_writeBytes _ _ _ _ hw h, WVal.bytes_get]

theorem WVal.ofBytes_width (w : Width) (f : Nat → Byte) : (WVal.ofBytes w f).width = w := by cases w <;> rfl

/-- Byte `j` of the value made of the bytes `f 0, f 1, …` is `f j`. -/
theorem WVal.byteOf_ofBytes (w : Width) (f : Nat → Byte) (j : Nat) (h : j < w.bytes) :
    byteOf (WVal.ofBytes w f).toWord j = f j := by
  have h0 := (f 0).isLt
  have h1 := (f 1).isLt
  have h2 := (f 2).isLt
  have h3 := (f 3).isLt
  cases w with
  | one =>
    obtain rfl : j = 0 := by simp only [Width.bytes] at h; omega
    apply BitVec.eq_of_toNat_eq
    simp only [WVal.ofBytes, WVal.toWord, byteOf, BitVec.extractLsb'_toNat, BitVec.toNat_setWidth,
      Nat.shiftRight_eq_div_pow]
    omega
  | two =>
    have : j = 0 ∨ j = 1 := by simp only [Width.bytes] at h; omega
    have e : (f 1 ++ f 0 : BitVec 16).toNat = 256 * (f 1).toNat + (f 0).toNat := by
      rw [BitVec.toNat_append, ← Nat.shiftLeft_add_eq_or_of_lt h0, Nat.shiftLeft_eq]; omega
    rcases this with rfl | rfl <;> apply BitVec.eq_of_toNat_eq <;>
      simp only [WVal.ofBytes, WVal.toWord, byteOf, BitVec.extractLsb'_toNat, BitVec.toNat_setWidth, e,
        Nat.shiftRight_eq_div_pow] <;> omega
  | four =>
    have : j = 0 ∨ j = 1 ∨ j = 2 ∨ j = 3 := by simp only [Width.bytes] at h; omega
    have e : (f 3 ++ f 2 ++ f 1 ++ f 0 : BitVec 32).toNat =
        16777216 * (f 3).toNat + 65536 * (f 2).toNat + 256 * (f 1).toNat + (f 0).toNat := by
      rw [BitVec.toNat_append, ← Nat.shiftLeft_add_eq_or_of_lt h0, Nat.shiftLeft_eq, BitVec.toNat_append,
        ← Nat.shiftLeft_add_eq_or_of_lt h1, Nat.shiftLeft_eq, BitVec.toNat_append,
        ← Nat.shiftLeft_add_eq_or_of_lt h2, Nat.shiftLeft_eq]; omega
    rcases this with rfl | rfl | rfl | rfl <;> apply BitVec.eq_of_toNat_eq <;>
      simp only [WVal.ofBytes, WVal.toWord, byteOf, BitVec.extractLsb'_toNat, e,
        Nat.shiftRight_eq_div_pow] <;> omega

/-- Two values of one width with the same bytes are the same value. -/
theorem WVal.ext_bytes (d e : WVal) (hw : d.width = e.width)
    (h : ∀ j, j < d.width.bytes → byteOf d.toWord j = byteOf e.toWord j) : d = e := by
  have key : ∀ u v : Word, (∀ j, j < 4 → byteOf u j = byteOf v j) → u = v := by
    intro u v hb
    ext i hi
    have hj := hb (i / 8) (by omega)
    have := congrArg (fun b : Byte => b.getLsbD (i % 8)) hj
    simp only [byteOf, BitVec.getLsbD_extractLsb', show i % 8 < 8 by omega, decide_true, Bool.true_and,
      show 8 * (i / 8) + i % 8 = i by omega] at this
    simpa only [BitVec.getLsbD_eq_getElem hi] using this
  have top1 : ∀ (v : Byte) j, 1 ≤ j → byteOf (v.setWidth 32 : Word) j = 0 := by
    intro v j hj
    have hv := v.isLt
    have : 2 ^ 8 ≤ 2 ^ (8 * j) := Nat.pow_le_pow_right (by omega) (by omega)
    apply BitVec.eq_of_toNat_eq
    simp only [byteOf, BitVec.extractLsb'_toNat, BitVec.toNat_setWidth, Nat.shiftRight_eq_div_pow]
    rw [Nat.div_eq_of_lt (by omega)]; rfl
  have top2 : ∀ (v : Half) j, 2 ≤ j → byteOf (v.setWidth 32 : Word) j = 0 := by
    intro v j hj
    have hv := v.isLt
    have : 2 ^ 16 ≤ 2 ^ (8 * j) := Nat.pow_le_pow_right (by omega) (by omega)
    apply BitVec.eq_of_toNat_eq
    simp only [byteOf, BitVec.extractLsb'_toNat, BitVec.toNat_setWidth, Nat.shiftRight_eq_div_pow]
    rw [Nat.div_eq_of_lt (by omega)]; rfl
  have narrow : ∀ {n : Nat} (_ : n ≤ 32) (u v : BitVec n), (u.setWidth 32 : Word) = v.setWidth 32 → u = v := by
    intro n hn u v huv
    have hu := u.isLt
    have hv := v.isLt
    have hp : 2 ^ n ≤ 2 ^ 32 := Nat.pow_le_pow_right (by omega) hn
    have := congrArg BitVec.toNat huv
    simp only [BitVec.toNat_setWidth] at this
    apply BitVec.eq_of_toNat_eq
    rwa [Nat.mod_eq_of_lt (by omega), Nat.mod_eq_of_lt (by omega)] at this
  cases d <;> cases e <;> first | (cases hw; done) | skip
  case b1.b1 u v =>
    congr 1
    refine narrow (by omega) _ _ (key _ _ fun j _ => ?_)
    by_cases h1 : 1 ≤ j
    · rw [top1 u j h1, top1 v j h1]
    · exact h j (by simp only [WVal.width, Width.bytes]; omega)
  case b2.b2 u v =>
    congr 1
    refine narrow (by omega) _ _ (key _ _ fun j _ => ?_)
    by_cases h1 : 2 ≤ j
    · rw [top2 u j h1, top2 v j h1]
    · exact h j (by simp only [WVal.width, Width.bytes]; omega)
  case b4.b4 u v =>
    congr 1
    exact key _ _ h

theorem Memory.load_width (m : Memory) (i : Nat) (w : Width) : (m.load i w).width = w := WVal.ofBytes_width w _

/-- Everything a load returns: byte `j` of the value is the byte at `i + j`. -/
theorem Memory.byteOf_load (m : Memory) (i : Nat) (w : Width) (j : Nat) (h : j < w.bytes) :
    byteOf (m.load i w).toWord j = m.read (i + j) := WVal.byteOf_ofBytes w _ j h

end Sys2Proof
end

