-- ==== Sys2Proof/Laws/Palette.lean ====
section
/-!
SUPPORT. Reading and writing palette entries.
-/

namespace Sys2Proof

theorem Palette.get_put (p : Palette) (e : Byte) (c : RGB) : (p.put e c).get e = c := by
  simp [Palette.get, Palette.put]

theorem Palette.get_put_ne (p : Palette) (e f : Byte) (c : RGB) (he : e ≠ 0) (hf : f ≠ 0) (h : f ≠ e) :
    (p.put e c).get f = p.get f := by
  have he' : e.toNat ≠ 0 := fun h0 => he (BitVec.eq_of_toNat_eq h0)
  have hf' : f.toNat ≠ 0 := fun h0 => hf (BitVec.eq_of_toNat_eq h0)
  have h' : f.toNat ≠ e.toNat := fun h0 => h (BitVec.eq_of_toNat_eq h0)
  have : ¬e.toNat - 1 = f.toNat - 1 := by omega
  simp only [Palette.get, Palette.put]
  exact Vector.getElem_set_ne _ _ this

theorem defaultPalette_get (e : Byte) (h : e ≠ 0) : defaultPalette.get e = defaultColor e.toNat := by
  have h' : e.toNat ≠ 0 := fun h0 => h (BitVec.eq_of_toNat_eq h0)
  simp only [Palette.get, defaultPalette, tabulate_get]
  congr 1
  omega

end Sys2Proof
end

