-- ==== Sys2Proof/Laws/PerInstr.lean ====
section
/-!
SUPPORT. The family EncodedLength: how many words an instruction's encoding has. A read, RESET and SAMPLE take one word,
a write two, INPUT two and three for each change (log 2).
-/

namespace Sys2Proof.Laws.EncodedLength

/-- The number of words of a packet. -/
def wordCount : Packet → Nat
  | .bus _ (.read _ _) => 1
  | .bus _ (.write _ _) => 2
  | .reset => 1
  | .sample => 1
  | .input cs => 2 + 3 * cs.length

/-- The encoding of the instruction has its packet's number of words. -/
def Statement (i : Instr) : Prop := (encodeWords i).length = wordCount i.packet

theorem changes_length (cs : List InputChange) : (cs.flatMap InputChange.words).length = 3 * cs.length := by
  induction cs with
  | nil => rfl
  | cons c cs ih =>
    obtain ⟨a, b, v, hw, -, -⟩ := InputChange.decode_words c
    simp only [List.flatMap_cons, List.length_append, ih, hw, List.length_cons, List.length_nil]
    omega

theorem cCtrlW (v : Word) : Statement (.cCtrlW v) := rfl
theorem cCtrlR : Statement (.cCtrlR) := rfl
theorem cKeysW (v : Word) : Statement (.cKeysW v) := rfl
theorem cKeysR : Statement (.cKeysR) := rfl
theorem cBackW (off : Offset) (d : WVal) : Statement (.cBackW off d) := rfl
theorem cBackR (off : Offset) (w : Width) : Statement (.cBackR off w) := rfl
theorem cDeadW (off : Offset) (d : WVal) : Statement (.cDeadW off d) := rfl
theorem cDeadR (off : Offset) (w : Width) : Statement (.cDeadR off w) := rfl
theorem cBeyondW (off : Offset) (d : WVal) : Statement (.cBeyondW off d) := rfl
theorem cBeyondR (off : Offset) (w : Width) : Statement (.cBeyondR off w) := rfl
theorem eCtrlW (v : Word) : Statement (.eCtrlW v) := rfl
theorem eCtrlR : Statement (.eCtrlR) := rfl
theorem eOrderW (v : Word) : Statement (.eOrderW v) := rfl
theorem eOrderR : Statement (.eOrderR) := rfl
theorem eSyncW (v : Word) : Statement (.eSyncW v) := rfl
theorem eSyncR : Statement (.eSyncR) := rfl
theorem eFbClearW (v : Word) : Statement (.eFbClearW v) := rfl
theorem eFbClearR : Statement (.eFbClearR) := rfl
theorem ePalResetW (v : Word) : Statement (.ePalResetW v) := rfl
theorem ePalResetR : Statement (.ePalResetR) := rfl
theorem eTmScxW (v : Word) : Statement (.eTmScxW v) := rfl
theorem eTmScxR : Statement (.eTmScxR) := rfl
theorem eTmScyW (v : Word) : Statement (.eTmScyW v) := rfl
theorem eTmScyR : Statement (.eTmScyR) := rfl
theorem eKeyHeldW (v : Word) : Statement (.eKeyHeldW v) := rfl
theorem eKeyHeldR : Statement (.eKeyHeldR) := rfl
theorem eKeyPressedW (v : Word) : Statement (.eKeyPressedW v) := rfl
theorem eKeyPressedR : Statement (.eKeyPressedR) := rfl
theorem eKeyReleasedW (v : Word) : Statement (.eKeyReleasedW v) := rfl
theorem eKeyReleasedR : Statement (.eKeyReleasedR) := rfl
theorem eMouseXW (v : Word) : Statement (.eMouseXW v) := rfl
theorem eMouseXR : Statement (.eMouseXR) := rfl
theorem eMouseYW (v : Word) : Statement (.eMouseYW v) := rfl
theorem eMouseYR : Statement (.eMouseYR) := rfl
theorem eMouseHeldW (v : Word) : Statement (.eMouseHeldW v) := rfl
theorem eMouseHeldR : Statement (.eMouseHeldR) := rfl
theorem eMousePressedW (v : Word) : Statement (.eMousePressedW v) := rfl
theorem eMousePressedR : Statement (.eMousePressedR) := rfl
theorem eMouseReleasedW (v : Word) : Statement (.eMouseReleasedW v) := rfl
theorem eMouseReleasedR : Statement (.eMouseReleasedR) := rfl
theorem ePalW (off : Offset) (d : WVal) : Statement (.ePalW off d) := rfl
theorem ePalR (off : Offset) (w : Width) : Statement (.ePalR off w) := rfl
theorem eFbW (off : Offset) (d : WVal) : Statement (.eFbW off d) := rfl
theorem eFbR (off : Offset) (w : Width) : Statement (.eFbR off w) := rfl
theorem eTmtW (off : Offset) (d : WVal) : Statement (.eTmtW off d) := rfl
theorem eTmtR (off : Offset) (w : Width) : Statement (.eTmtR off w) := rfl
theorem eSptW (off : Offset) (d : WVal) : Statement (.eSptW off d) := rfl
theorem eSptR (off : Offset) (w : Width) : Statement (.eSptR off w) := rfl
theorem eTmgW (off : Offset) (d : WVal) : Statement (.eTmgW off d) := rfl
theorem eTmgR (off : Offset) (w : Width) : Statement (.eTmgR off w) := rfl
theorem eSpgW (off : Offset) (d : WVal) : Statement (.eSpgW off d) := rfl
theorem eSpgR (off : Offset) (w : Width) : Statement (.eSpgR off w) := rfl
theorem eUnusedW (off : Offset) (d : WVal) : Statement (.eUnusedW off d) := rfl
theorem eUnusedR (off : Offset) (w : Width) : Statement (.eUnusedR off w) := rfl
theorem narrowW (m : Mode) (off : Offset) (d : WVal) : Statement (.narrowW m off d) := rfl
theorem narrowR (m : Mode) (off : Offset) (w : Width) : Statement (.narrowR m off w) := rfl
theorem misalignedW (m : Mode) (off : Offset) (d : WVal) : Statement (.misalignedW m off d) := rfl
theorem misalignedR (m : Mode) (off : Offset) (w : Width) : Statement (.misalignedR m off w) := rfl
theorem reset : Statement (.reset) := rfl
theorem sample : Statement (.sample) := rfl
theorem input (changes : List InputChange) : Statement (.input changes) := by
  simp only [Statement, encodeWords, Instr.packet, Packet.words, wordCount, List.length_cons, List.length_append,
    changes_length, List.length_nil]
  omega

end Sys2Proof.Laws.EncodedLength
end

