-- ==== Sys2Proof/Laws/Step.lean ====
section
/-!
SUPPORT. What the choice of the schedule and one step can do: one lemma for each, every case named.
-/

namespace Sys2Proof.Machine

/-- Every instruction answers a next state: no behaviour is a fault (60_exceptions R340). -/
theorem exec_next (i : Instr) (s : State) : ∃ t, exec i s = .next t := by
  cases i <;> exact ⟨_, rfl⟩

theorem takeFirst_none {α : Type} (p : α → Bool) (l : List α) (h : ∀ a ∈ l, p a = false) : takeFirst p l = none := by
  induction l with
  | nil => rfl
  | cons a l ih => simp [takeFirst, h a (by simp), ih (fun e he => h e (by simp [he]))]

/-- Everything `takeFirst` does when it finds an element: nothing before it passes the test, and the order stays. -/
theorem takeFirst_some {α : Type} (p : α → Bool) (l : List α) (a : α) (r : List α) (h : takeFirst p l = some (a, r)) :
    p a = true ∧ ∃ l1 l2, l = l1 ++ a :: l2 ∧ r = l1 ++ l2 ∧ ∀ e ∈ l1, p e = false := by
  induction l generalizing a r with
  | nil => simp [takeFirst] at h
  | cons b l ih =>
    simp only [takeFirst] at h
    split at h
    · next hb =>
      simp only [Option.some.injEq, Prod.mk.injEq] at h
      obtain ⟨rfl, rfl⟩ := h
      exact ⟨hb, [], l, by simp⟩
    · next hb =>
      split at h
      · simp at h
      · next c cs hc =>
        simp only [Option.some.injEq, Prod.mk.injEq] at h
        obtain ⟨rfl, rfl⟩ := h
        obtain ⟨h1, l1, l2, rfl, rfl, h2⟩ := ih _ _ hc
        refine ⟨h1, b :: l1, l2, by simp, by simp, ?_⟩
        intro e he
        rcases List.mem_cons.1 he with rfl | he
        · simpa using hb
        · exact h2 e he

/-- `takeFirst` passes over elements that fail the test. -/
theorem takeFirst_append {α : Type} (p : α → Bool) (l1 l2 : List α) (a : α) (h : ∀ e ∈ l1, p e = false)
    (ha : p a = true) : takeFirst p (l1 ++ a :: l2) = some (a, l1 ++ l2) := by
  induction l1 with
  | nil => simp [takeFirst, ha]
  | cons b l1 ih => simp [takeFirst, h b (by simp), ih (fun e he => h e (by simp [he]))]

/-- Decoding the bytes of a packet gives its instruction. -/
theorem decode_packet (p : Packet) : decode p.bytes = .ok (p.instr, []) := by
  simpa using decode_bytes p []

/-- Decoding the bytes of a transaction gives the row its routing names. -/
theorem decode_bus (m : Mode) (r : BusReq) : decode (Packet.bus m r).bytes = .ok (route m r, []) := decode_packet _

/-- A step whose choice is a packet runs its instruction. -/
theorem step_run (s : State) (k : Master) (p : Packet) (rest : List Pending) (h : s.choose = .run k p rest) :
    step s = exec p.instr (s.begin k rest) := by
  simp only [step, h, decode_packet]

/-- The choice when the entries before `e` cannot run and `e` can. -/
theorem choose_append (s : State) (l1 l2 : List Pending) (e : Pending) (hp : s.pending = l1 ++ e :: l2)
    (h : ∀ a ∈ l1, s.canRun a = false) (he : s.canRun e = true) : s.choose = e.choice s.mode (l1 ++ l2) := by
  simp only [State.choose, hp, takeFirst_append _ _ _ _ h he]

/-- Where no entry can run and no held read can complete, there is nothing to do. -/
theorem choose_idle (s : State) (h : ∀ a ∈ s.pending, s.canRun a = false) (hw : s.waiter = true ∨ s.heldMasters = []) :
    s.choose = .idle := by
  simp only [State.choose, takeFirst_none _ _ h]
  rcases hh : s.heldMasters with _ | ⟨k, ks⟩
  · rfl
  · have : s.waiter = true := by simpa [hh] using hw
    simp [this]

/-- Where no entry can run, the oldest held read completes if `waiter` is false. -/
theorem choose_oldest (s : State) (h : ∀ a ∈ s.pending, s.canRun a = false) (k : Master) (ks : List Master)
    (hh : s.heldMasters = k :: ks) (hw : s.waiter = false) : s.choose = .complete k s.pending := by
  simp [State.choose, takeFirst_none _ _ h, hh, hw]

/-- An entry waits exactly when it cannot run. -/
theorem waits_iff (s : State) (e : Pending) : s.Waits e ↔ s.canRun e = false := by
  cases e <;> simp [State.Waits, State.canRun]
  tauto

/-- Everything a step that answers a next state can have done: run one entry of the schedule (a transaction of a master
that is not held, or an event), complete a held read, or nothing. -/
theorem step_cases (s t : State) (hs : step s = .next t) :
    (∃ k r l1 l2, s.pending = l1 ++ .bus k r :: l2 ∧ k ∉ s.heldMasters ∧
        exec (route s.mode r) (s.begin k (l1 ++ l2)) = .next t) ∨
      (∃ l1 l2, s.pending = l1 ++ .reset :: l2 ∧ exec .reset (s.begin Master.first (l1 ++ l2)) = .next t) ∨
      (∃ l1 l2, s.pending = l1 ++ .sample :: l2 ∧ exec .sample (s.begin Master.first (l1 ++ l2)) = .next t) ∨
      (∃ l1 l2 cs, s.pending = l1 ++ .input cs :: l2 ∧ exec (.input cs) (s.begin Master.first (l1 ++ l2)) = .next t) ∨
      (∃ k rest, rest.Sublist s.pending ∧ s.waiter = false ∧ k ∈ s.heldMasters ∧
        t = (s.begin k rest).completeRead k) ∨
      t = s.quiet := by
  rcases hf : takeFirst s.canRun s.pending with _ | ⟨e, rest⟩
  · rcases hh : s.heldMasters with _ | ⟨k, ks⟩
    · have : s.choose = .idle := by simp [State.choose, hf, hh]
      right; right; right; right; right
      simpa [step, this] using hs.symm
    · by_cases hw : s.waiter = true
      · have : s.choose = .idle := by simp [State.choose, hf, hh, hw]
        right; right; right; right; right
        simpa [step, this] using hs.symm
      · have : s.choose = .complete k s.pending := by simp [State.choose, hf, hh, hw]
        right; right; right; right; left
        exact ⟨k, s.pending, List.Sublist.refl _, by simpa using hw, by simp, by simpa [step, this] using hs.symm⟩
  · obtain ⟨h1, l1, l2, hp, hr, -⟩ := takeFirst_some _ _ _ _ hf
    have hc : s.choose = e.choice s.mode rest := by simp [State.choose, hf]
    subst hr
    cases e with
    | bus k r => exact .inl ⟨k, r, l1, l2, hp, by simpa [State.canRun] using h1, (step_run s _ _ _ hc).symm.trans hs⟩
    | reset => exact .inr (.inl ⟨l1, l2, hp, (step_run s _ _ _ hc).symm.trans hs⟩)
    | sample => exact .inr (.inr (.inl ⟨l1, l2, hp, (step_run s _ _ _ hc).symm.trans hs⟩))
    | input cs => exact .inr (.inr (.inr (.inl ⟨l1, l2, cs, hp, (step_run s _ _ _ hc).symm.trans hs⟩)))
    | complete k =>
      right; right; right; right; left
      simp only [State.canRun, Bool.and_eq_true, List.contains_eq_mem, decide_eq_true_eq, Bool.not_eq_true'] at h1
      refine ⟨k, l1 ++ l2, ?_, h1.2, h1.1, by
        simpa only [step, hc, Pending.choice, Host.Outcome.next.injEq] using hs.symm⟩
      rw [hp]
      exact (List.Sublist.refl l1).append (List.sublist_cons_self _ _)

end Sys2Proof.Machine
end

