-- ==== Sys2Proof/Tests/Slice0.lean ====
section
/-!
SUPPORT. The model's own tests: ill-formed operands are refused, words written out from the encoding decode, single steps
give what spec/95_test_vectors.md says, and every statement's hypotheses are met somewhere (`test_witness_…`).

How a word is written: bits 17:0 are the key K of spec/30_encoding.md R100; + 0x40000 for width 1, + 0x80000 for width 2;
the value of a write is in bits 63:32 (log 2).
-/

namespace Sys2Proof.Tests

open Sys2Proof.Machine Sys2Proof.Stated

/-! ## WellFormed: an ill-formed term for each check -/

theorem test_wf_range_low : (Instr.cBackW 0x0007 (.b1 0)).wf = false := by decide
theorem test_wf_range_high : (Instr.cBackR 0x1008 .one).wf = false := by decide
theorem test_wf_range_aligned : (Instr.eFbW 0x1001 (.b2 0)).wf = false := by decide
theorem test_wf_pal : (Instr.ePalW 0x0BFF (.b1 0)).wf = false ∧ (Instr.ePalR 0x1000 .four).wf = false := by decide
theorem test_wf_fb : (Instr.eFbW 0x0FFF (.b1 0)).wf = false ∧ (Instr.eFbR 0x5000 .four).wf = false := by decide
theorem test_wf_tmt : (Instr.eTmtW 0x4FFF (.b1 0)).wf = false ∧ (Instr.eTmtR 0x5800 .two).wf = false := by decide
theorem test_wf_spt : (Instr.eSptW 0x57FF (.b1 0)).wf = false ∧ (Instr.eSptR 0x6000 .two).wf = false := by decide
theorem test_wf_tmg : (Instr.eTmgW 0x5FFF (.b1 0)).wf = false ∧ (Instr.eTmgR 0xA000 .two).wf = false := by decide
theorem test_wf_spg : (Instr.eSpgW 0x9FFF (.b1 0)).wf = false ∧ (Instr.eSpgR 0xE000 .two).wf = false := by decide
theorem test_wf_unused_used : (Instr.eUnusedW 0x0020 (.b4 0)).wf = false ∧ (Instr.eUnusedR 0xDFFF .one).wf = false := by
  decide
theorem test_wf_unused_aligned : (Instr.eUnusedR 0xE002 .four).wf = false := by decide
theorem test_wf_dead_low : (Instr.cDeadW 0x1007 (.b1 0)).wf = false := by decide
theorem test_wf_dead_high (h : Config.classicDeadEnd ≤ 0x2000) : (Instr.cDeadR 0x2000 .one).wf = false := by
  simp only [Instr.wf, inDeadZone, Bool.and_eq_false_iff]
  exact .inr (.inl (decide_eq_false (by simpa using h)))
theorem test_wf_beyond_low (h : 0x2000 < Config.classicDeadEnd) : (Instr.cBeyondW 0x2000 (.b1 0)).wf = false := by
  simp only [Instr.wf, beyondDeadZone, Bool.and_eq_false_iff]
  exact .inl (decide_eq_false (by simpa using h))
theorem test_wf_narrow_place : (Instr.narrowW .enhanced 0x0014 (.b1 0)).wf = false := by decide
theorem test_wf_narrow_place_classic : (Instr.narrowR .classic 0x0008 .one).wf = false := by decide
theorem test_wf_narrow_width : (Instr.narrowR .classic 0x0000 .four).wf = false := by decide
theorem test_wf_narrow_aligned : (Instr.narrowW .classic 0x0001 (.b2 0)).wf = false := by decide
theorem test_wf_misaligned : (Instr.misalignedW .classic 0x0004 (.b4 0)).wf = false ∧
    (Instr.misalignedR .enhanced 0x0003 .one).wf = false := by decide

/-! ## Decoding: one word for each row of the table, from the key K of R100 and the table's ranges (R102 to R104) -/

theorem test_decode_cCtrlW : decodeTableWord 64 0x0000000100010000 = some (.cCtrlW 1) := by decide
theorem test_decode_cCtrlR : decodeTableWord 24 0x00000 = some .cCtrlR := by decide
theorem test_decode_cKeysW : decodeTableWord 64 0x0000000200010004 = some (.cKeysW 2) := by decide
theorem test_decode_cKeysR : decodeTableWord 24 0x00004 = some .cKeysR := by decide
theorem test_decode_cBackW : decodeTableWord 64 0x000000F500050008 = some (.cBackW 0x0008 (.b1 0xF5)) := by decide
theorem test_decode_cBackR : decodeTableWord 24 0x8000A = some (.cBackR 0x000A .two) := by decide
theorem test_decode_cDeadW (h : 0x1008 < Config.classicDeadEnd) :
    decodeTableWord 64 0x0000000700011008 = some (.cDeadW 0x1008 (.b4 7)) := by
  have hb : tableBytes 64 0x0000000700011008 = (Packet.bus .classic (.write 0x1008 (.b4 7))).bytes := by decide
  simp only [decodeTableWord, hb, decode_bus]
  simp [route, aligned, WVal.width, Width.bytes, routeClassicWrite, classicRegion, h]
theorem test_decode_cDeadR (h : 0x1008 < Config.classicDeadEnd) :
    decodeTableWord 24 0x01008 = some (.cDeadR 0x1008 .four) := by
  have hb : tableBytes 24 0x01008 = (Packet.bus .classic (.read 0x1008 .four)).bytes ++ [0, 0, 0, 0] := by decide
  have hd := decode_bytes (.bus .classic (.read 0x1008 .four)) [0, 0, 0, 0]
  simp only [decodeTableWord, hb, hd, Packet.instr]
  simp [route, aligned, Width.bytes, routeClassicRead, classicRegion, h]
theorem test_decode_cBeyondW (h : Config.classicDeadEnd ≤ 0xFFFE) :
    decodeTableWord 64 0x000000090009FFFE = some (.cBeyondW 0xFFFE (.b2 9)) := by
  have hb : tableBytes 64 0x000000090009FFFE = (Packet.bus .classic (.write 0xFFFE (.b2 9))).bytes := by decide
  simp only [decodeTableWord, hb, decode_bus]
  simp [route, aligned, WVal.width, Width.bytes, routeClassicWrite, classicRegion, Nat.not_lt.2 h]
theorem test_decode_cBeyondR (h : Config.classicDeadEnd ≤ 0xFFFF) :
    decodeTableWord 24 0x4FFFF = some (.cBeyondR 0xFFFF .one) := by
  have hb : tableBytes 24 0x4FFFF = (Packet.bus .classic (.read 0xFFFF .one)).bytes ++ [0, 0, 0, 0] := by decide
  have hd := decode_bytes (.bus .classic (.read 0xFFFF .one)) [0, 0, 0, 0]
  simp only [decodeTableWord, hb, hd, Packet.instr]
  simp [route, aligned, Width.bytes, routeClassicRead, classicRegion, Nat.not_lt.2 h]
theorem test_decode_eCtrlW : decodeTableWord 64 0x00C8000300030000 = some (.eCtrlW 0x00C80003) := by decide
theorem test_decode_eCtrlR : decodeTableWord 24 0x20000 = some .eCtrlR := by decide
theorem test_decode_eOrderW : decodeTableWord 64 0x0000000100030004 = some (.eOrderW 1) := by decide
theorem test_decode_eOrderR : decodeTableWord 24 0x20004 = some .eOrderR := by decide
theorem test_decode_eSyncW : decodeTableWord 64 0x1234567800030008 = some (.eSyncW 0x12345678) := by decide
theorem test_decode_eSyncR : decodeTableWord 24 0x20008 = some .eSyncR := by decide
theorem test_decode_eFbClearW : decodeTableWord 64 0xDEADBEEF0003000C = some (.eFbClearW 0xDEADBEEF) := by decide
theorem test_decode_eFbClearR : decodeTableWord 24 0x2000C = some .eFbClearR := by decide
theorem test_decode_ePalResetW : decodeTableWord 64 0x0000000000030010 = some (.ePalResetW 0) := by decide
theorem test_decode_ePalResetR : decodeTableWord 24 0x20010 = some .ePalResetR := by decide
theorem test_decode_eTmScxW : decodeTableWord 64 0xFFFFFFFF00030020 = some (.eTmScxW 0xFFFFFFFF) := by decide
theorem test_decode_eTmScxR : decodeTableWord 24 0x20020 = some .eTmScxR := by decide
theorem test_decode_eTmScyW : decodeTableWord 64 0x0000000800030024 = some (.eTmScyW 8) := by decide
theorem test_decode_eTmScyR : decodeTableWord 24 0x20024 = some .eTmScyR := by decide
theorem test_decode_eKeyHeldW : decodeTableWord 64 0x0000004100030040 = some (.eKeyHeldW 0x41) := by decide
theorem test_decode_eKeyHeldR : decodeTableWord 24 0x20040 = some .eKeyHeldR := by decide
theorem test_decode_eKeyPressedW : decodeTableWord 64 0x0000004200030044 = some (.eKeyPressedW 0x42) := by decide
theorem test_decode_eKeyPressedR : decodeTableWord 24 0x20044 = some .eKeyPressedR := by decide
theorem test_decode_eKeyReleasedW : decodeTableWord 64 0x0000004300030048 = some (.eKeyReleasedW 0x43) := by decide
theorem test_decode_eKeyReleasedR : decodeTableWord 24 0x20048 = some .eKeyReleasedR := by decide
theorem test_decode_eMouseXW : decodeTableWord 64 0x000000050003004C = some (.eMouseXW 5) := by decide
theorem test_decode_eMouseXR : decodeTableWord 24 0x2004C = some .eMouseXR := by decide
theorem test_decode_eMouseYW : decodeTableWord 64 0x0000000600030050 = some (.eMouseYW 6) := by decide
theorem test_decode_eMouseYR : decodeTableWord 24 0x20050 = some .eMouseYR := by decide
theorem test_decode_eMouseHeldW : decodeTableWord 64 0x0000000700030054 = some (.eMouseHeldW 7) := by decide
theorem test_decode_eMouseHeldR : decodeTableWord 24 0x20054 = some .eMouseHeldR := by decide
theorem test_decode_eMousePressedW : decodeTableWord 64 0x0000000800030058 = some (.eMousePressedW 8) := by decide
theorem test_decode_eMousePressedR : decodeTableWord 24 0x20058 = some .eMousePressedR := by decide
theorem test_decode_eMouseReleasedW : decodeTableWord 64 0x000000090003005C = some (.eMouseReleasedW 9) := by decide
theorem test_decode_eMouseReleasedR : decodeTableWord 24 0x2005C = some .eMouseReleasedR := by decide
theorem test_decode_ePalW : decodeTableWord 64 0x000000AB00070C14 = some (.ePalW 0x0C14 (.b1 0xAB)) := by decide
theorem test_decode_ePalR : decodeTableWord 24 0xA0FFE = some (.ePalR 0x0FFE .two) := by decide
theorem test_decode_eFbW : decodeTableWord 64 0x0102030400031080 = some (.eFbW 0x1080 (.b4 0x01020304)) := by decide
theorem test_decode_eFbR : decodeTableWord 24 0x64FFF = some (.eFbR 0x4FFF .one) := by decide
theorem test_decode_eTmtW : decodeTableWord 64 0x00000402000B5002 = some (.eTmtW 0x5002 (.b2 0x0402)) := by decide
theorem test_decode_eTmtR : decodeTableWord 24 0xA57FE = some (.eTmtR 0x57FE .two) := by decide
theorem test_decode_eSptW : decodeTableWord 64 0x01050A1400035800 = some (.eSptW 0x5800 (.b4 0x01050A14)) := by decide
theorem test_decode_eSptR : decodeTableWord 24 0x65803 = some (.eSptR 0x5803 .one) := by decide
theorem test_decode_eTmgW : decodeTableWord 64 0x0101010100036040 = some (.eTmgW 0x6040 (.b4 0x01010101)) := by decide
theorem test_decode_eTmgR : decodeTableWord 24 0x29FFC = some (.eTmgR 0x9FFC .four) := by decide
theorem test_decode_eSpgW : decodeTableWord 64 0x020202020003A140 = some (.eSpgW 0xA140 (.b4 0x02020202)) := by decide
theorem test_decode_eSpgR : decodeTableWord 24 0x6A000 = some (.eSpgR 0xA000 .one) := by decide
theorem test_decode_eUnusedW : decodeTableWord 64 0xFFFFFFFF0003E000 = some (.eUnusedW 0xE000 (.b4 0xFFFFFFFF)) := by decide
theorem test_decode_eUnusedR : decodeTableWord 24 0x20014 = some (.eUnusedR 0x0014 .four) := by decide
theorem test_decode_narrowW : decodeTableWord 64 0x0000010100090000 = some (.narrowW .classic 0 (.b2 0x0101)) := by decide
theorem test_decode_narrowR : decodeTableWord 24 0xA004C = some (.narrowR .enhanced 0x004C .two) := by decide
theorem test_decode_misalignedW : decodeTableWord 64 0x00000505000B1001 = some (.misalignedW .enhanced 0x1001 (.b2 0x0505)) := by
  decide
theorem test_decode_misalignedR : decodeTableWord 24 0x21002 = some (.misalignedR .enhanced 0x1002 .four) := by decide
theorem test_decode_reset : decodeTableWord 24 0x100000 = some .reset := by decide
theorem test_decode_sample : decodeTableWord 24 0x200000 = some .sample := by decide
theorem test_decode_input : decodeTableWord 64 0x300000 = some (.input []) := by decide

/-- What a decoding gives, as an Option. -/
def decoded (bytes : List Byte) : Option (Instr × List Byte) :=
  match decode bytes with
  | .ok r => some r
  | .error _ => none

/-- One INPUT with two changes, byte by byte: key 0x42 becomes held, the Classic key word becomes 5; bytes follow. -/
theorem test_decode_input_change :
    decoded [0, 0, 0x30, 0, 1, 0, 0, 0, 0x42, 0, 0, 0, 1, 0, 0, 0, 9, 0, 0, 0, 0, 0, 0, 0, 5, 0, 0, 0, 0, 0, 0, 0, 7] =
      some (.input [.key .held 0x42 true, .classicKeys 5], [7]) := by decide

/-- The same offset in the two modes (95_test_vectors V-DEC-5). -/
theorem test_decode_mode : decodeTableWord 64 0x0403020100010008 = some (.cBackW 0x0008 (.b4 0x04030201)) ∧
    decodeTableWord 64 0x0403020100030008 = some (.eSyncW 0x04030201) := by decide

/-- Bits outside the layout are refused: width code 3, kind 4, bit 24, a key beside RESET, a byte value above 8 bits. -/
theorem test_decode_refuses : decodeTableWord 24 0xC0000 = none ∧ decodeTableWord 24 0x400000 = none ∧
    decodeTableWord 32 0x1000000 = none ∧ decodeTableWord 24 0x100001 = none ∧
    decodeTableWord 64 0x0000010000050008 = none := by decide

/-- Bytes too few for a packet are refused. -/
theorem test_decode_truncated : decode [0, 0, 1] = .error .truncated ∧ decode [0, 0, 1, 0, 0, 0] = .error .truncated ∧
    decode [0, 0, 0x30, 0] = .error .truncated := ⟨rfl, rfl, rfl⟩

/-- A change that names no value, and one that gives a key to a word, are refused. -/
theorem test_decode_badChange : decode [0, 0, 0x30, 0, 10, 0, 0, 0, 0, 0, 0, 0, 0, 0, 0, 0] = .error .badInputChange ∧
    decode [0, 0, 0x30, 0, 4, 0, 0, 0, 1, 0, 0, 0, 0, 0, 0, 0] = .error .badInputChange := ⟨rfl, rfl⟩

/-! ## Single steps, from spec/95_test_vectors.md -/

/-- A field of the next state. -/
def after {α : Type} (o : Host.Outcome State Fault Refusal) (f : State → α) : Option α :=
  match o with
  | .next s => some (f s)
  | .fault _ => none
  | .refused _ => none

/-- Enhanced mode with both planes on and the palette clean, otherwise as after reset. -/
def enh : State := { State.reset with mode := .enhanced, tmEnabled := true, palDirty := false }

/-- V-MODE-1: `front` receives what `back` held before the clear. -/
theorem test_classicSync : ((({ State.reset with back := [(0, 5)] } : State).classicSync 1).front,
    (({ State.reset with back := [(0, 5)] } : State).classicSync 1).back) = ([(0, 5)], []) := by decide

/-- V-MODE-1: the sub-flags a switch takes from its value. -/
theorem test_switchEnhanced : ((State.reset.switchEnhanced 0x00320103).mode,
    (State.reset.switchEnhanced 0x00320103).tmEnabled, (State.reset.switchEnhanced 0x00320103).msPerFrame) =
      (.enhanced, true, 50) := by decide

/-- V-MODE-2 and E3: field 0, clamping below and above. -/
theorem test_eCtrlW_zero : after (exec (.eCtrlW 0) enh) (fun s => (s.fbEnabled, s.tmEnabled, s.msPerFrame)) =
    some (true, false, 10) := by decide
theorem test_eCtrlW_tilemap : after (exec (.eCtrlW 0xFF0900FE) enh) (fun s => (s.fbEnabled, s.tmEnabled, s.msPerFrame)) =
    some (false, true, 10) := by decide
theorem test_eCtrlW_clamp : after (exec (.eCtrlW 0x00C80001) enh) (·.msPerFrame) = some 100 := by decide

/-- V-MODE-3. -/
theorem test_eOrderW : after (exec (.eOrderW 0xFFFFFFFF) enh) (·.fbInFront) = some true ∧
    after (exec (.eOrderW 2) enh) (·.fbInFront) = some false := by decide

/-- V-MODE-4: A's read is held, B's sync write releases it, A's read completes with 0. -/
theorem test_cCtrlR : after (exec .cCtrlR State.reset) (fun s => (s.waiter, s.heldMasters, s.readData)) =
    some (true, [Master.first], none) := by decide
theorem test_completion :
    after (step { State.reset with heldMasters := [Master.first], pending := [.bus Master.first (.read 8 .one)] })
      (fun s => (s.heldMasters, s.readData, s.pending)) =
        some ([], some (.b4 0), [.bus Master.first (.read 8 .one)]) := by decide
theorem test_heldWaits :
    after (step { State.reset with
      waiter := true, heldMasters := [Master.first], pending := [.bus Master.first (.read 8 .one)] })
      (fun s => (s.heldMasters, s.readData, s.pending)) =
        some ([Master.first], none, [.bus Master.first (.read 8 .one)]) := by decide

/-- V-PAL-2, steps 1, 4, 6, 9, 10. -/
theorem test_ePalW_word : after (exec (.ePalW 0x0C1C (.b4 0xFF010203)) enh) (fun s => (s.pal.get 7, s.palDirty)) =
    some (⟨1, 2, 3⟩, true) := by decide
theorem test_withLanes : withLanes ⟨1, 2, 0xAA⟩ 1 (.b1 0xBB) = ⟨1, 0xBB, 0xAA⟩ ∧
    withLanes ⟨0xCC, 0xBB, 0xAA⟩ 3 (.b1 0xDD) = ⟨0xCC, 0xBB, 0xAA⟩ ∧
    withLanes ⟨0xCC, 0xBB, 0xAA⟩ 0 (.b2 0x1122) = ⟨0xCC, 0x11, 0x22⟩ ∧
    withLanes ⟨0xCC, 0x11, 0x22⟩ 2 (.b2 0x3344) = ⟨0x44, 0x11, 0x22⟩ := by decide

/-- V-PAL-3: entry 0 is the background and sets no flag. -/
theorem test_ePalW_bg : after (exec (.ePalW 0x0C00 (.b4 0x00AABBCC)) enh) (fun s => (s.bg, s.palDirty)) =
    some (⟨0xAA, 0xBB, 0xCC⟩, false) := by decide

/-- V-PAL-1: i = 27 of the default ramp through a read. -/
theorem test_ePalR : after (exec (.ePalR 0x0C6C .four) enh) (·.readData) = some (some (.b4 0x003F7FFF)) ∧
    after (exec (.ePalR 0x0C6E .one) enh) (·.readData) = some (some (.b1 0x3F)) := by decide

/-- V-PAL-1: 48, 127, 129 and 255. -/
theorem test_defaultPalette : defaultPalette.get 48 = ⟨255, 0, 0⟩ ∧ defaultPalette.get 127 = ⟨0, 0, 0⟩ ∧
    defaultPalette.get 129 = ⟨2, 2, 2⟩ ∧ defaultPalette.get 255 = ⟨254, 254, 254⟩ := by
  rw [defaultPalette_get _ (by decide), defaultPalette_get _ (by decide), defaultPalette_get _ (by decide),
    defaultPalette_get _ (by decide)]
  decide

/-- V-PAL-2, step 15. -/
theorem test_ePalResetW : after (exec (.ePalResetW 7) { enh with pal := enh.pal.put 7 ⟨1, 1, 1⟩, bg := ⟨9, 9, 9⟩ })
    (fun s => (s.pal.get 7, s.bg, s.palDirty)) = some (⟨0, 63, 255⟩, ⟨0, 0, 0⟩, true) := by decide

/-- V-FBC-2. -/
theorem test_cBackW : after (exec (.cBackW 0x0008 (.b4 0x04030201)) State.reset) (·.back) =
    some [(0, 1), (1, 2), (2, 3), (3, 4)] := by decide
theorem test_cBackR : after (exec (.cBackR 0x000A .two) { State.reset with back := [(0, 1), (1, 2), (2, 3), (3, 4)] })
    (·.readData) = some (some (.b2 0x0403)) := by decide

/-- R203: the anomaly and nothing stored. -/
theorem test_cBeyondW : after (exec (.cBeyondW 0x6000 (.b1 1)) State.reset) (fun s => (s.anomaly, s.tmGfx)) =
    some (true, []) := by decide

/-- V-FBE-2, and R33's canonical form: a zero stored over a byte removes its entry. -/
theorem test_eFbW : after (exec (.eFbW 0x4FFE (.b2 0xBBAA)) { enh with fbDirty := false }) (fun s => (s.fb, s.fbDirty)) =
    some ([(16382, 0xAA), (16383, 0xBB)], true) := by decide
theorem test_eFbW_zero : after (exec (.eFbW 0x1001 (.b1 0)) { enh with fb := [(0, 1), (1, 2), (2, 3)] }) (·.fb) =
    some [(0, 1), (2, 3)] := by decide
theorem test_eFbR : after (exec (.eFbR 0x1082 .two) { enh with fb := [(128, 4), (129, 3), (130, 2), (131, 1)] }) (·.readData) =
    some (some (.b2 0x0102)) := by decide
theorem test_eFbClearW : after (exec (.eFbClearW 0xDEADBEEF) { enh with fb := [(0, 1)], fbDirty := false })
    (fun s => (s.fb, s.fbDirty)) = some ([], true) := by decide

/-- V-DEC-2: the last words of the tables. -/
theorem test_eTmtW : after (exec (.eTmtW 0x57FC (.b4 0x04030201)) { enh with tmDirty := false }) (fun s => (s.tmTable, s.tmDirty)) =
    some ([(2044, 1), (2045, 2), (2046, 3), (2047, 4)], true) := by decide
theorem test_eSptW : after (exec (.eSptW 0x5FFC (.b4 0x04030201)) { enh with sprDirty := false }) (fun s => (s.sprTable, s.sprDirty)) =
    some ([(1020, 1), (1021, 2), (1022, 3), (1023, 4)], true) := by decide
theorem test_eTmgW : after (exec (.eTmgW 0x9FFC (.b4 0x04030201)) enh) (·.tmGfx) =
    some [(16380, 1), (16381, 2), (16382, 3), (16383, 4)] := by decide
theorem test_eSpgW : after (exec (.eSpgW 0xDFFC (.b4 0x04030201)) enh) (·.sprGfx) =
    some [(16380, 1), (16381, 2), (16382, 3), (16383, 4)] := by decide
theorem test_eTmtR : after (exec (.eTmtR 0x5002 .two) { enh with tmTable := [(2, 2), (3, 4)] }) (·.readData) =
    some (some (.b2 0x0402)) := by decide
theorem test_eSptR : after (exec (.eSptR 0x5803 .one) { enh with sprTable := [(3, 1)] }) (·.readData) =
    some (some (.b1 1)) := by decide
theorem test_eTmgR : after (exec (.eTmgR 0x6040 .four) { enh with tmGfx := [(64, 1)] }) (·.readData) =
    some (some (.b4 1)) := by decide
theorem test_eSpgR : after (exec (.eSpgR 0xA140 .four) { enh with sprGfx := [(320, 2)] }) (·.readData) =
    some (some (.b4 2)) := by decide

/-- R236: the whole word is stored and the plane is marked. -/
theorem test_eTmScxW : after (exec (.eTmScxW 0xFFFFFFFF) { enh with tmDirty := false }) (fun s => (s.scx, s.tmDirty)) =
    some (0xFFFFFFFF, true) := by decide
theorem test_eTmScyW : after (exec (.eTmScyW 8) enh) (fun s => (s.scx, s.scy)) = some (0, 8) := by decide

/-- V-TM-1, the scroll column. -/
theorem test_effectiveScroll : effectiveScroll 0xFFFFFFFF = 255 ∧ effectiveScroll 0xFFFFFEFF = 255 ∧
    effectiveScroll 0x7FFFFFFF = 255 ∧ effectiveScroll 0x80000000 = 0 ∧ effectiveScroll 0x00000100 = 0 := by decide

/-- V-TM-2: hFlip moves the pixel to (7, 0); V-TM-3: scroll -1 moves it to (1, 0). -/
theorem test_tilePixel : tilePixel defaultPalette [(0, 1), (1, 1)] [(64, 1)] 0 0 7 0 = some ⟨0, 0, 63⟩ ∧
    tilePixel defaultPalette [(0, 1), (1, 1)] [(64, 1)] 0 0 0 0 = none ∧
    tilePixel defaultPalette [(0, 1)] [(64, 1)] 0xFFFFFFFF 0 1 0 = some ⟨0, 0, 63⟩ := by decide

/-- V-SPR-6b: x = -1 with hFlip shows at (6, 10); V-SPR-6: without, nothing; V-SPR-8c: palette row 1 gives entry 18. -/
theorem test_sprite : (spriteEntry [(0, 0xFF), (1, 10), (2, 5), (3, 3)] 0).at defaultPalette [(320, 2)] 6 10 = some ⟨0, 0, 127⟩ ∧
    (spriteEntry [(0, 0xFF), (1, 10), (2, 5), (3, 1)] 0).at defaultPalette [(320, 2)] 0 10 = none ∧
    (spriteEntry [(0, 20), (1, 10), (2, 5), (3, 0x11)] 0).at defaultPalette [(320, 2)] 20 10 = some (defaultPalette.get 18) := by
  decide

/-- V-SPR-10: 16x16 with hFlip shows tile 9's first pixel at (7, 0); V-SPR-11: tile 254's quadrant 2 is tile 0. -/
theorem test_sprite_big : (spriteEntry [(2, 8), (3, 0x0B)] 0).at defaultPalette [(512, 1), (576, 2)] 7 0 = some ⟨0, 0, 127⟩ ∧
    (spriteEntry [(2, 254), (3, 9)] 0).at defaultPalette [(0, 3)] 0 8 = some ⟨0, 0, 255⟩ := by decide

/-- V-CMP-1: both planes, then the framebuffer alone in front of the sprites. -/
theorem test_mergePixel :
    mergePixel true true false ⟨0, 0, 0⟩ (some ⟨1, 1, 1⟩) (some ⟨2, 2, 2⟩) (some ⟨3, 3, 3⟩) (some ⟨4, 4, 4⟩) = ⟨4, 4, 4⟩ ∧
    mergePixel true true true ⟨0, 0, 0⟩ (some ⟨1, 1, 1⟩) (some ⟨2, 2, 2⟩) (some ⟨3, 3, 3⟩) (some ⟨4, 4, 4⟩) = ⟨1, 1, 1⟩ ∧
    mergePixel true false true ⟨0, 0, 0⟩ (some ⟨1, 1, 1⟩) (some ⟨2, 2, 2⟩) (some ⟨3, 3, 3⟩) (some ⟨4, 4, 4⟩) = ⟨1, 1, 1⟩ ∧
    mergePixel false true true ⟨0, 0, 0⟩ (some ⟨1, 1, 1⟩) (some ⟨2, 2, 2⟩) none none = ⟨2, 2, 2⟩ := by decide

/-- V-CMP-2: with the framebuffer off its flag stays, marked by the palette's. -/
theorem test_eSyncW : after (exec (.eSyncW 0) { enh with fbEnabled := false, palDirty := true, fbDirty := false, waiter := true })
    (fun s => [s.palDirty, s.fbDirty, s.tmDirty, s.sprDirty, s.waiter, s.frameReady]) =
      some [false, true, false, false, false, true] := by decide

/-- V-INP-2, V-INP-3. -/
theorem test_keys : after (exec .eKeyHeldR { enh with keySel0 := 0x42, inputs := { Inputs.initial with held := [0x41] } })
    (·.readData) = some (some (.b4 0)) ∧
    after (exec (.input [.key .held 0x42 true]) { enh with inputs := { Inputs.initial with held := [0x41] } })
      (·.inputs.held) = some [0x41, 0x42] := by decide
theorem test_eKeyPressedW : after (exec (.eKeyPressedW 0x42) enh) (fun s => (s.keySel0, s.keySel1, s.keySel2)) =
    some (0, 0x42, 0) := by decide
theorem test_eKeyReleasedR : after (exec .eKeyReleasedR { enh with keySel2 := 7, inputs := { Inputs.initial with released := [7] } })
    (·.readData) = some (some (.b4 1)) := by decide

/-- V-INP-5. -/
theorem test_eMouseXR : after (exec .eMouseXR enh) (·.readData) = some (some (.b4 0xFFFFFFFF)) := by decide

/-- V-RST-1: what SAMPLE returns before the first Enhanced sync. -/
theorem test_sample : after (exec .sample enh) (·.sampled) = some (some (.enhanced none)) := by decide

/-- V-RST-2. -/
theorem test_reset : after (exec .reset { enh with fb := [(0, 9)], scx := 3, fbInFront := true, keySel0 := 0x41 })
    (fun s => (s.mode, s.fb, s.scx, s.fbInFront, s.keySel0)) = some (.classic, [], 0, false, 0) := by decide

/-- R71: a byte written to SYNC is no sync write. -/
theorem test_narrow_sync : after (exec (.narrowW .enhanced 0x0008 (.b1 1)) enh) (fun s => (s.outImage.isSome, s.frameReady)) =
    some (false, false) := by decide

/-- A table word placed by `withFetchWord` is what the next step runs: V-DEC-2, `WR4 0x0FFC`. -/
theorem test_fetch : after (step (State.reset.withFetchWord 64 0x0403020100030FFC)) (fun s => (s.pal.get 255, s.pending)) =
    some (⟨3, 2, 1⟩, []) := by decide

/-- A second master is not the first. -/
theorem second_ne_first (h : 1 < Config.nMasters) : (⟨1, h⟩ : Master) ≠ Master.first :=
  Fin.ne_of_val_ne Nat.one_ne_zero

/-- Master A's read is held; A's next transaction and then B's are presented. -/
def twoMasters (b : Master) : State :=
  { State.reset with
    waiter := true, heldMasters := [Master.first],
    pending := [.bus Master.first (.write 8 (.b1 7)), .bus b (.write 9 (.b1 8))] }

/-- On a platform with two masters, B's transaction passes the held master A's (40_mode_control R151). -/
theorem test_schedule (h : 1 < Config.nMasters) :
    after (step (twoMasters ⟨1, h⟩)) (fun s => (s.back, s.pending, s.busMaster)) =
      some ([(1, 8)], [.bus Master.first (.write 8 (.b1 7))], ⟨1, h⟩) := by
  rw [step_run _ _ _ _ (choose_append (twoMasters ⟨1, h⟩) [.bus Master.first (.write 8 (.b1 7))] [] _ rfl
    (by simp [State.canRun, twoMasters]) (by simp [State.canRun, twoMasters, second_ne_first h]))]
  rfl

/-- R321: each change reaches its own value. -/
theorem test_input_keys : after (exec (.input [.key .pressed 1 true, .key .released 2 true, .key .pressed 1 false]) enh)
    (fun s => (s.inputs.held, s.inputs.pressed, s.inputs.released)) = some ([], [], [2]) := by decide
theorem test_input_words :
    after (exec (.input [.mouseX 1, .mouseY 2, .mouseHeld 3, .mousePressed 4, .mouseReleased 5, .classicKeys 6]) enh)
      (·.inputs) = some ⟨[], [], [], 1, 2, 3, 4, 5, 6⟩ := by decide

/-! ## Every statement's hypotheses are met

One theorem for each statement that has any, named after it; for a statement of several clauses, each clause at a boundary
value of its range. -/

theorem test_witness_DecodeInvertsEncode : (Instr.eSpgW 0xDFFC (.b4 5)).wf = true ∧
    (Instr.misalignedR .classic 0xFFFF .two).wf = true ∧ (Instr.input [.key .held 1 true]).wf = true := by decide

theorem test_witness_EveryTransactionIsOneRow : Instr.eCtrlR.wf = true ∧
    encode .eCtrlR = (Packet.bus .enhanced (.read 0 .four)).bytes := by decide

theorem test_witness_MisalignmentDecodesFirst : (0x0001#16).toNat % (WVal.b2 0).width.bytes ≠ 0 ∧
    (0xFFFF#16).toNat % Width.four.bytes ≠ 0 := by decide

/-- The rows at the first and the last offset of a byte-wide region. -/
def ends (m : Mode) (lo hi : Nat) : List (Option (Instr × List Byte)) :=
  [decoded (Packet.bus m (.write (BitVec.ofNat 16 lo) (.b1 1))).bytes,
    decoded (Packet.bus m (.write (BitVec.ofNat 16 hi) (.b1 2))).bytes,
    decoded (Packet.bus m (.read (BitVec.ofNat 16 hi) .one)).bytes]

/-- EnhancedMapDecodes, the ranges: their first and last offsets, and the offsets on both sides of every border. -/
theorem test_witness_EnhancedMapDecodes_low :
    ends .enhanced 0x0014 0x001F = [some (.eUnusedW 0x0014 (.b1 1), []), some (.eUnusedW 0x001F (.b1 2), []), some (.eUnusedR 0x001F .one, [])] ∧
    ends .enhanced 0x0028 0x003F = [some (.eUnusedW 0x0028 (.b1 1), []), some (.eUnusedW 0x003F (.b1 2), []), some (.eUnusedR 0x003F .one, [])] ∧
    ends .enhanced 0x0060 0x0BFF = [some (.eUnusedW 0x0060 (.b1 1), []), some (.eUnusedW 0x0BFF (.b1 2), []), some (.eUnusedR 0x0BFF .one, [])] ∧
    ends .enhanced 0x0C00 0x0FFF = [some (.ePalW 0x0C00 (.b1 1), []), some (.ePalW 0x0FFF (.b1 2), []), some (.ePalR 0x0FFF .one, [])] ∧
    ends .enhanced 0x1000 0x4FFF = [some (.eFbW 0x1000 (.b1 1), []), some (.eFbW 0x4FFF (.b1 2), []), some (.eFbR 0x4FFF .one, [])] := by
  decide
theorem test_witness_EnhancedMapDecodes_high :
    ends .enhanced 0x5000 0x57FF = [some (.eTmtW 0x5000 (.b1 1), []), some (.eTmtW 0x57FF (.b1 2), []), some (.eTmtR 0x57FF .one, [])] ∧
    ends .enhanced 0x5800 0x5FFF = [some (.eSptW 0x5800 (.b1 1), []), some (.eSptW 0x5FFF (.b1 2), []), some (.eSptR 0x5FFF .one, [])] ∧
    ends .enhanced 0x6000 0x9FFF = [some (.eTmgW 0x6000 (.b1 1), []), some (.eTmgW 0x9FFF (.b1 2), []), some (.eTmgR 0x9FFF .one, [])] ∧
    ends .enhanced 0xA000 0xDFFF = [some (.eSpgW 0xA000 (.b1 1), []), some (.eSpgW 0xDFFF (.b1 2), []), some (.eSpgR 0xDFFF .one, [])] ∧
    ends .enhanced 0xE000 0xFFFF = [some (.eUnusedW 0xE000 (.b1 1), []), some (.eUnusedW 0xFFFF (.b1 2), []), some (.eUnusedR 0xFFFF .one, [])] := by
  decide

/-- EnhancedMapDecodes, the word registers: the first and the last of the four offsets of each is a register's. -/
theorem test_witness_EnhancedMapDecodes_registers :
    [0x0000, 0x0004, 0x0008, 0x000C, 0x0010, 0x0020, 0x0024, 0x0040, 0x0044, 0x0048, 0x004C, 0x0050, 0x0054, 0x0058,
        0x005C].all (fun lo => ends .enhanced lo (lo + 3) ==
      [some (.narrowW .enhanced (BitVec.ofNat 16 lo) (.b1 1), []),
        some (.narrowW .enhanced (BitVec.ofNat 16 (lo + 3)) (.b1 2), []),
        some (.narrowR .enhanced (BitVec.ofNat 16 (lo + 3)) .one, [])]) = true := by decide

theorem test_witness_ClassicMapDecodes :
    ends .classic 0x0000 0x0007 = [some (.narrowW .classic 0x0000 (.b1 1), []), some (.narrowW .classic 0x0007 (.b1 2), []), some (.narrowR .classic 0x0007 .one, [])] ∧
    ends .classic 0x0008 0x1007 = [some (.cBackW 0x0008 (.b1 1), []), some (.cBackW 0x1007 (.b1 2), []), some (.cBackR 0x1007 .one, [])] := by
  decide

/-- ClassicMapDecodes, the last two ranges: `CLASSIC_DEAD_END` is open (00_scope R8 (d)). For every value it may have, the
dead zone holds both its ends or is empty, the range beyond holds both its ends or is empty, and not both are empty. -/
theorem test_witness_ClassicMapDecodes_deadEnd :
    (0x1008 < Config.classicDeadEnd → 0x1008 ≤ (0x1008#16).toNat ∧ (0x1008#16).toNat ≤ Config.classicDeadEnd - 1 ∧
      (BitVec.ofNat 16 (Config.classicDeadEnd - 1)).toNat = Config.classicDeadEnd - 1) ∧
    (Config.classicDeadEnd < 0x10000 → Config.classicDeadEnd ≤ (0xFFFF#16).toNat ∧
      (BitVec.ofNat 16 Config.classicDeadEnd).toNat = Config.classicDeadEnd) ∧
    (0x1008 < Config.classicDeadEnd ∨ Config.classicDeadEnd < 0x10000) := by
  have h := Config.deadEnd_upper
  have hl := Config.deadEnd_lower
  have h1 : (0x1008#16).toNat = 0x1008 := by decide
  have h2 : (0xFFFF#16).toNat = 0xFFFF := by decide
  simp only [BitVec.toNat_ofNat, h1, h2]
  omega

/-- The first address above the window; below it, where `BASE` is not 0. -/
theorem test_witness_AccessesOutsideTheWindowAreNotSeen :
    (∃ addr : Nat, addr < Config.base ∨ Config.base + 0x10000 ≤ addr) ∧
    (0 < Config.base → Config.base - 1 < Config.base) :=
  ⟨⟨Config.base + 0x10000, .inr (Nat.le_refl _)⟩, fun h => Nat.sub_lt h (by decide)⟩

/-- Enhanced mode, coherent clean layers over bytes that are not zero, one store, one frame and one reset to come. -/
def busy : State :=
  { enh with
    fb := [(16383, 9)], tmTable := [(0, 1)], tmGfx := [(64, 1)], sprTable := [(2, 5), (3, 1)], sprGfx := [(320, 2)],
    fbDirty := false, tmDirty := false, sprDirty := false,
    fbLayer := fbLayerOf defaultPalette [(16383, 9)], tmLo := tmLoOf defaultPalette [(0, 1)] [(64, 1)] 0 0,
    tmHi := tmHiOf defaultPalette [(0, 1)] [(64, 1)] 0 0,
    sprLayer := sprLayerOf defaultPalette [(2, 5), (3, 1)] [(320, 2)],
    pending := [.bus Master.first (.write 0x1000 (.b4 7)), .bus Master.first (.write 8 (.b4 0)), .reset] }

/-- `busy` in Classic mode, untouched by Enhanced writes. -/
def busyClassic : State := { State.reset with pending := [.bus Master.first (.write 0x1007 (.b1 7)), .input [.mouseX 1]] }

/-- A master whose Classic sync read is held, a transaction of its own waiting. -/
def hung : State :=
  { State.reset with waiter := true, heldMasters := [Master.first],
                     pending := [.complete Master.first, .bus Master.first (.write 8 (.b1 1)), .sample] }

theorem busy_coherent : busy.LayersCoherent := ⟨fun _ _ => rfl, fun _ _ => rfl, fun _ _ => rfl, fun _ _ => rfl⟩

theorem test_witness_StepRunsTheDecodedTransaction :
    busy.pending = .bus Master.first (.write 0x1000 (.b4 7)) :: [.bus Master.first (.write 8 (.b4 0)), .reset] ∧ Master.first ∉ busy.heldMasters ∧
    decode (Packet.bus busy.mode (.write 0x1000 (.b4 7))).bytes = .ok (.eFbW 0x1000 (.b4 7), []) :=
  ⟨rfl, by decide, decode_bus _ _⟩

theorem test_witness_StepRunsTheEvents :
    ({ busy with pending := [.reset] } : State).pending = [.reset] ∧
    ({ busy with pending := [.sample] } : State).pending = [.sample] ∧
    ({ busy with pending := [.input [.mouseX 1]] } : State).pending = [.input [.mouseX 1]] := by decide

/-- Every entry of a schedule that holds nothing but completions and the first master's transactions waits in `hung`. -/
theorem hung_waits (l : List Pending)
    (h : ∀ e ∈ l, e = .complete Master.first ∨ e = .bus Master.first (.write 8 (.b1 1))) : ∀ e ∈ l, hung.Waits e := by
  intro e he
  rcases h e he with rfl | rfl
  · exact .inr ⟨_, rfl, .inr rfl⟩
  · exact .inl ⟨_, _, rfl, by decide⟩

/-- Clause 1 both ways; clause 2 past a completion that is not enabled; clause 3 past two waiting entries. -/
theorem test_witness_HeldMasterIssuesNothing :
    (hung.waiter = true ∧ ∀ e ∈ [Pending.complete Master.first, .bus Master.first (.write 8 (.b1 1))], hung.Waits e) ∧
    (State.reset.heldMasters = [] ∧ ∀ e ∈ [Pending.complete Master.first], State.reset.Waits e) ∧
    (∃ s : State, s.pending = [.complete Master.first] ++ .bus Master.first (.write 8 (.b1 1)) :: [] ∧
      (∀ e ∈ [Pending.complete Master.first], s.Waits e) ∧ Master.first ∉ s.heldMasters ∧
      decode (Packet.bus s.mode (.write 8 (.b1 1))).bytes = .ok (.cBackW 8 (.b1 1), [])) ∧
    hung.pending = [.complete Master.first, .bus Master.first (.write 8 (.b1 1))] ++ .sample :: [] := by
  refine ⟨⟨rfl, hung_waits _ (by simp)⟩, ⟨rfl, ?_⟩,
    ⟨{ State.reset with pending := [.complete Master.first, .bus Master.first (.write 8 (.b1 1))] }, rfl, ?_, by decide,
      decode_bus _ _⟩, rfl⟩
  all_goals
    intro e he
    rw [List.mem_singleton.1 he]
    exact .inr ⟨_, rfl, .inl (by decide)⟩

/-- Clause 2 past the held entries of another master, on a platform with two. -/
theorem test_witness_HeldMasterIssuesNothing_twoMasters (h : 1 < Config.nMasters) :
    (∀ e ∈ [Pending.bus Master.first (.write 8 (.b1 1)), .bus Master.first (.write 8 (.b1 1))], hung.Waits e) ∧
    (⟨1, h⟩ : Master) ∉ hung.heldMasters :=
  ⟨hung_waits _ (by simp), by simp [hung, second_ne_first h]⟩

theorem test_witness_StepKeepsMemoriesGood : busy.MemoriesGood ∧ ∃ t, step busy = .next t :=
  ⟨⟨by decide, by decide, by decide, by decide, by decide, by decide, by decide⟩, _, rfl⟩

theorem test_witness_StepKeepsLayersCoherent : busy.LayersCoherent ∧ ∃ t, step busy = .next t :=
  ⟨busy_coherent, _, rfl⟩

theorem test_witness_StepKeepsSubFlagsGood : busy.SubFlagsGood ∧ ∃ t, step busy = .next t :=
  ⟨⟨fun _ => .inl rfl, by decide, by decide⟩, _, rfl⟩

/-- In both modes: `busyClassic` is Classic and pristine; `busy` is Enhanced, so its premise holds at once. -/
theorem test_witness_StepKeepsClassicPristine :
    (busyClassic.mode = .classic ∧ busyClassic.ClassicPristine ∧ ∃ t, step busyClassic = .next t) ∧
    busy.ClassicPristine := by
  refine ⟨⟨rfl, fun _ => ⟨rfl, rfl, rfl, rfl, rfl, rfl, rfl, rfl, rfl, rfl, rfl⟩, _, rfl⟩, ?_⟩
  intro h
  cases h

theorem test_witness_StepKeepsKeySetsGood : ∃ s t : State, s.KeySetsGood ∧ s.inputs.held = [1, 7] ∧ step s = .next t :=
  ⟨{ busyClassic with inputs := { Inputs.initial with held := [1, 7] }, pending := [.input [.key .held 2 true]] }, _,
    ⟨by decide, by decide, by decide⟩, rfl, rfl⟩

theorem test_witness_StepOnlyConsumesTheSchedule : ∃ t, step busyClassic = .next t := ⟨_, rfl⟩

/-- Both sides of the threshold, whatever it is. -/
theorem threshold_sides : (3#32).toNat < Config.enhThreshold.toNat ∧
    Config.enhThreshold.toNat ≤ (Config.enhThreshold - 0#32).toNat ∧
    (Config.enhThreshold - 1#32).toNat < Config.enhThreshold.toNat := by
  have h := Config.four_le_enhThreshold
  have h3 : (3#32).toNat = 3 := by decide
  refine ⟨by omega, by simp, ?_⟩
  bv_omega

/-- Each clause: below the threshold, at it, RESET, and another transaction. -/
theorem test_witness_ModeStateMachine :
    ((∃ t, exec (.cCtrlW 3) busyClassic = .next t) ∧ (3#32).toNat < Config.enhThreshold.toNat) ∧
    ((∃ t, exec (.cCtrlW Config.enhThreshold) busyClassic = .next t) ∧
      Config.enhThreshold.toNat ≤ Config.enhThreshold.toNat) ∧
    (∃ t, exec .reset busy = .next t) ∧ ∃ t, exec (.eCtrlW 0) busy = .next t :=
  ⟨⟨exec_next _ _, threshold_sides.1⟩, ⟨exec_next _ _, Nat.le_refl _⟩, exec_next _ _, exec_next _ _⟩

/-- A run of two steps in Enhanced mode. -/
theorem test_witness_EnhancedModeIsNeverLeft : ∃ s t : State, s.mode = .enhanced ∧ Pending.reset ∉ s.pending ∧
    Host.Core.run Sys2Proof.core 2 s = .next t :=
  ⟨{ busy with pending := [.bus Master.first (.write 0x1000 (.b4 7)), .bus Master.first (.write 0 (.b4 0))] }, _, rfl, by decide, rfl⟩

theorem test_witness_OutImageAndFrontChangeOnlyAtTheirSync : (∃ t, exec (.eFbW 0x1000 (.b1 1)) busy = .next t) ∧
    ¬ enhancedSyncWrite (.eFbW 0x1000 (.b1 1)) ∧ ¬ classicSyncWrite (.eFbW 0x1000 (.b1 1)) ∧
    ¬ classicSyncWrite (.cCtrlW Config.enhThreshold) ∧ ∀ v, Instr.eFbW 0x1000 (.b1 1) ≠ .cCtrlW v :=
  ⟨exec_next _ _, id, id, Nat.lt_irrefl _, nofun⟩

/-- Each clause: `anomaly` kept and newly set, `waiter` released and newly set. -/
theorem test_witness_StickyFlags :
    (∃ t, exec (.cBackW 8 (.b1 1)) { busyClassic with anomaly := true } = .next t) ∧
    (∃ t, exec (.cBeyondW 0xFFFF (.b1 1)) busyClassic = .next t ∧ busyClassic.anomaly = false ∧ t.anomaly = true) ∧
    (∃ t, exec (.eSyncW 0) { busy with waiter := true } = .next t ∧ t.waiter = false) ∧
    ∃ t, exec .cCtrlR busyClassic = .next t ∧ busyClassic.waiter = false ∧ t.waiter = true :=
  ⟨⟨_, rfl⟩, ⟨_, rfl, rfl, rfl⟩, ⟨_, rfl, rfl⟩, ⟨_, rfl, rfl, rfl⟩⟩

theorem test_witness_LoneMasterHangs :
    hung.waiter = true ∧ Master.first ∈ hung.heldMasters ∧ hung.OnlyMaster Master.first := by
  refine ⟨rfl, by decide, ?_⟩
  intro e he
  simp only [hung, List.mem_cons, List.not_mem_nil, or_false] at he
  rcases he with rfl | rfl | rfl
  · simp
  · refine ⟨by simp, ?_⟩
    rintro m r ⟨⟩
    rfl
  · simp

theorem test_witness_ReadsChangeNothing : plainRead (.eFbR 0x4FFF .one) = true ∧ plainRead .cKeysR = true := by decide

/-- A step for each line of the list. -/
theorem test_witness_DirtyFlagTable : ∀ i ∈ [Instr.reset, .ePalW 0x0FFF (.b1 1), .ePalResetW 0, .eFbW 0x4FFF (.b1 1), .eFbClearW 0,
      .eTmtW 0x57FF (.b1 1), .eTmgW 0x9FFF (.b1 1), .eTmScxW 1, .eTmScyW 1, .eSptW 0x5FFF (.b1 1), .eSpgW 0xDFFF (.b1 1),
      .eSyncW 0, .sample], ∃ t, exec i busy = .next t := fun i _ => exec_next i _

/-- Clause 1 at 0, at 1 and at the value below the threshold; clause 2 at the threshold and at the largest value. -/
theorem test_witness_ClassicControlWrite :
    (0#32).toNat < Config.enhThreshold.toNat ∧ (1#32).toNat < Config.enhThreshold.toNat ∧ (1#32) ≠ 0 ∧
    (Config.enhThreshold - 1#32).toNat < Config.enhThreshold.toNat ∧
    Config.enhThreshold.toNat ≤ (0xFFFFFFFF#32).toNat := by
  have h := Config.four_le_enhThreshold
  have h0 : (0#32).toNat = 0 := by decide
  have h1 : (1#32).toNat = 1 := by decide
  have hf : (0xFFFFFFFF#32).toNat = 2 ^ 32 - 1 := by decide
  have hl := Config.enhThreshold.isLt
  exact ⟨by omega, by omega, by decide, threshold_sides.2.2, by omega⟩

/-- Clause 2 past a transaction of the held master; clause 3 with its transaction waiting; clause 4 while `waiter` holds. -/
theorem test_witness_ClassicSyncReadHoldsAndCompletes :
    ∃ s : State, s.pending = [.bus Master.first (.read 8 .one)] ++ .complete Master.first :: [] ∧
      (∀ e ∈ [Pending.bus Master.first (.read 8 .one)], s.Waits e ∧ ∃ j r, e = .bus j r ∧ j ∈ s.heldMasters) ∧
      s.heldMasters = [Master.first] ∧ s.waiter = false ∧ hung.heldMasters = [Master.first] ∧ hung.waiter = true := by
  refine ⟨{ hung with waiter := false, pending := [.bus Master.first (.read 8 .one), .complete Master.first] }, rfl, ?_,
    rfl, rfl, rfl, rfl⟩
  intro e he
  rw [List.mem_singleton.1 he]
  exact ⟨.inl ⟨_, _, rfl, by decide⟩, _, _, rfl, by decide⟩

/-- The three cases: byte 3 alone (at the last offset), entry 0 (the first), another entry; a straddle of lanes 2 and 3. -/
theorem test_witness_PaletteWriteByLanes :
    (0x0C00 ≤ (0x0FFF#16).toNat ∧ (0x0FFF#16).toNat ≤ 0x0FFF ∧ (0x0FFF#16).toNat % (WVal.b1 1).width.bytes = 0 ∧
      (WVal.b1 1).width = .one ∧ ((0x0FFF#16).toNat - 0x0C00) % 4 = 3) ∧
    (0x0C00 ≤ (0x0C00#16).toNat ∧ (0x0C00#16).toNat % (WVal.b4 1).width.bytes = 0 ∧
      BitVec.ofNat 8 (((0x0C00#16).toNat - 0x0C00) / 4) = 0#8) ∧
    ((0x0FFE#16).toNat ≤ 0x0FFF ∧ (0x0FFE#16).toNat % (WVal.b2 1).width.bytes = 0 ∧
      BitVec.ofNat 8 (((0x0FFE#16).toNat - 0x0C00) / 4) = 255#8) := by decide

theorem test_witness_PaletteReadByLanes : 0x0C00 ≤ (0x0C00#16).toNat ∧ (0x0C00#16).toNat ≤ 0x0FFF ∧
    (0x0C00#16).toNat % Width.four.bytes = 0 ∧ 0x0C00 ≤ (0x0FFF#16).toNat ∧ (0x0FFF#16).toNat ≤ 0x0FFF ∧
    (0x0FFF#16).toNat % Width.one.bytes = 0 := by decide

theorem test_witness_PaletteWordReadsBack :
    (0x0C00 ≤ (0x0FFC#16).toNat ∧ (0x0FFC#16).toNat ≤ 0x0FFF ∧ (0x0FFC#16).toNat % 4 = 0 ∧
      ∃ t, exec (.ePalW 0x0FFC (.b4 7)) busy = .next t) ∧
    (0x0C00#16).toNat = 0x0C00 ∧ ∃ t, exec (.ePalW 0x0C00 (.b4 7)) busy = .next t :=
  ⟨⟨by decide, by decide, by decide, exec_next _ _⟩, by decide, exec_next _ _⟩

theorem test_witness_PaletteResetRestoresRamp : (255 : Byte) ≠ 0 ∧ (1 : Byte) ≠ 0 := by decide

/-- RamStores and SpriteTableStoreAndRead: the first word and the last byte of every region, the memories in canonical form, an
address of the region outside the stored bytes, and both halves of the sprite table's region. -/
theorem test_witness_RamStores :
    (∀ r ∈ [(0x0008, 0x1007), (0x1000, 0x4FFF), (0x5000, 0x57FF), (0x6000, 0x9FFF), (0xA000, 0xDFFF), (0x5800, 0x5FFF)],
      r.1 ≤ (BitVec.ofNat 16 r.1).toNat ∧ (BitVec.ofNat 16 r.1).toNat ≤ r.2 ∧
        (BitVec.ofNat 16 r.1).toNat % (WVal.b4 1).width.bytes = 0 ∧
        r.1 ≤ (BitVec.ofNat 16 r.2).toNat ∧ (BitVec.ofNat 16 r.2).toNat ≤ r.2 ∧
        (BitVec.ofNat 16 r.2).toNat % (WVal.b1 1).width.bytes = 0) ∧
    busy.back.wf ∧ busy.fb.wf ∧ busy.tmTable.wf ∧ busy.tmGfx.wf ∧ busy.sprGfx.wf ∧
    (0x4FFF#16).toNat - 0x1000 + (WVal.b1 1).width.bytes ≤ 16384 := by decide

theorem test_witness_SpriteTableStoreAndRead : busy.sprTable.wf ∧ (0x5800#16).toNat < 0x5C00 ∧ (0x5BFF#16).toNat < 0x5C00 ∧
    0x5C00 ≤ (0x5C00#16).toNat ∧ (0x5FFF#16).toNat ≤ 0x5FFF ∧
    (0x5FFC#16).toNat % (WVal.b4 1).width.bytes = 0 ∧ 0x5800 ≤ (0x5FFE#16).toNat ∧ (0x5FFE#16).toNat ≤ 0x5FFF ∧
    (0x5FFE#16).toNat % Width.two.bytes = 0 := by decide

theorem test_witness_RamReads :
    ∀ r ∈ [(0x0008, 0x1007), (0x1000, 0x4FFF), (0x5000, 0x57FF), (0x6000, 0x9FFF), (0xA000, 0xDFFF), (0x5800, 0x5FFF)],
      r.1 ≤ (BitVec.ofNat 16 r.1).toNat ∧ (BitVec.ofNat 16 r.1).toNat ≤ r.2 ∧
        (BitVec.ofNat 16 r.1).toNat % Width.four.bytes = 0 ∧
        (BitVec.ofNat 16 r.2).toNat ≤ r.2 ∧ (BitVec.ofNat 16 r.2).toNat % Width.one.bytes = 0 := by decide

theorem test_witness_StoredValuesReadBack : Memory.wf [] ∧ Memory.wf busy.tmTable ∧ 3 < 4 := by decide

theorem test_witness_ReadsWithoutValueReturnZero :
    Instr.eTmScyR ∈ [.eCtrlR, .eOrderR, .eSyncR, .eFbClearR, .ePalResetR, .eTmScxR, .eTmScyR] ∧
    Instr.misalignedR .classic 0xFFFF .four ∈ [.cDeadR 0xFFFF .four, .cBeyondR 0xFFFF .four, .eUnusedR 0xFFFF .four,
      .narrowR .classic 0xFFFF .four, .misalignedR .classic 0xFFFF .four] := by decide

/-- TilemapLayerPixels, FramebufferLayerPixels, MergeOrder: the corner pixel. -/
theorem test_witness_pixels : 127 < 128 ∧ 0 < 128 := by decide

theorem test_witness_ScrollWrapsModulo256 : (0xFFFFFFFF#32).toNat % 256 = (255#32).toNat % 256 ∧
    (0x00000100#32).toNat % 256 = (0#32).toNat % 256 := by decide

/-- Inside: sprite 0 of `busy` at its last pixel (7, 7); outside: one to the right. -/
theorem test_witness_SpritePixelFormula :
    (0 ≤ (7 : Int) - 0 ∧ (7 : Int) - 0 < 8) ∧ ¬(0 ≤ (8 : Int) - 0 ∧ (8 : Int) - 0 < 8) ∧
    busy.sprTable.read 0 = 0 ∧ (busy.sprTable.read 3).toNat / 8 % 2 = 0 := by decide

/-- Clause 1: sprite 0 of `busy` is enabled and opaque at (0, 0), none is before it. Clause 2: where every sprite is disabled. -/
theorem test_witness_LowestOpaqueSpriteShows :
    ((spriteEntry busy.sprTable 0).enable = true ∧
      (spriteEntry busy.sprTable 0).at busy.pal busy.sprGfx 0 0 = some ⟨0, 0, 127⟩ ∧
      ∀ k, k < 0 → (spriteEntry busy.sprTable k).enable = true →
        (spriteEntry busy.sprTable k).at busy.pal busy.sprGfx 0 0 = none) ∧
    ∀ k, k < 256 → (spriteEntry [] k).enable = true → (spriteEntry [] k).at busy.pal busy.sprGfx 0 0 = none := by
  refine ⟨⟨by decide, by decide, fun k h => absurd h (by omega)⟩, ?_⟩
  intro k _ h
  simp [spriteEntry] at h

theorem test_witness_SyncPublishesTheImageOfCurrentRam : busy.LayersCoherent ∧ busy.palDirty = false ∧
    busy.fbDirty = false ∧ busy.sprDirty = false := ⟨busy_coherent, rfl, rfl, rfl⟩

theorem test_witness_SyncTwiceSamePicture : ∃ t, exec (.eSyncW 0) busy = .next t := exec_next _ _

theorem test_witness_FramebufferOnlyPicture : ∃ s : State, s.LayersCoherent ∧ s.fbEnabled = true ∧ s.tmEnabled = false ∧
    (sprLayerOf s.pal s.sprTable s.sprGfx).pixel 127 127 = none ∧ s.fb.read (128 * 127 + 127) = 9 :=
  ⟨{ busy with tmEnabled := false }, ⟨fun _ _ => rfl, fun _ _ => rfl, fun _ _ => rfl, fun _ _ => rfl⟩, rfl, rfl,
    (Layer.build_pixel _ 127 127 (by decide) (by decide)).trans (by decide), by decide⟩

/-- `busy` and the same with every flag set and stale layers. -/
theorem test_witness_CachesAreUnobservable : ∃ s' : State, busy.LayersCoherent ∧ s'.LayersCoherent ∧
    busy.SameButCaches s' ∧ busy.fbDirty ≠ s'.fbDirty ∧ ∃ t, step busy = .next t :=
  ⟨{ busy with palDirty := true, fbDirty := true, fbLayer := blankLayer },
    busy_coherent, ⟨nofun, nofun, nofun, nofun⟩, rfl, by decide,
    _, rfl⟩

theorem test_witness_SampleReturnsTheImage : busyClassic.mode = .classic ∧ busy.mode = .enhanced ∧ 63 < 64 := by decide

theorem test_witness_InputEventChangesOnlyInputs : KeySet.good busy.inputs.held ∧ KeySet.good busy.inputs.pressed ∧
    KeySet.good busy.inputs.released ∧ KeySet.good [1, 0xFFFFFFFF] ∧
    ∃ t, exec (.input [.key .held 1 true]) busy = .next t :=
  ⟨by decide, by decide, by decide, by decide, exec_next _ _⟩

end Sys2Proof.Tests
end

/-! Routing: every transaction in either mode is routed to its own row of the table (30_encoding R101 to R104). -/

namespace Sys2Proof

/-- The instruction is the table row of the transaction `r` in mode `m`: the row admits its operands, and its transaction
is `r` (30_encoding R101, R104). -/
def Instr.RowOf (m : Mode) (r : BusReq) (i : Instr) : Prop := i.wf = true ∧ i.packet = .bus m r

/-- The offsets a Classic region holds (30_encoding R103). -/
def ClassicRegion.Covers : ClassicRegion → Nat → Prop
  | .ctrl, n => 0x0000 ≤ n ∧ n ≤ 0x0003
  | .keys, n => 0x0004 ≤ n ∧ n ≤ 0x0007
  | .back, n => 0x0008 ≤ n ∧ n ≤ 0x1007
  | .dead, n => 0x1008 ≤ n ∧ n < Config.classicDeadEnd
  | .beyond, n => Config.classicDeadEnd ≤ n

/-- The offsets an Enhanced region holds (30_encoding R102). -/
def EnhancedRegion.Covers : EnhancedRegion → Nat → Prop
  | .ctrl, n => 0x0000 ≤ n ∧ n ≤ 0x0003
  | .order, n => 0x0004 ≤ n ∧ n ≤ 0x0007
  | .sync, n => 0x0008 ≤ n ∧ n ≤ 0x000B
  | .fbClear, n => 0x000C ≤ n ∧ n ≤ 0x000F
  | .palReset, n => 0x0010 ≤ n ∧ n ≤ 0x0013
  | .tmScx, n => 0x0020 ≤ n ∧ n ≤ 0x0023
  | .tmScy, n => 0x0024 ≤ n ∧ n ≤ 0x0027
  | .keyHeld, n => 0x0040 ≤ n ∧ n ≤ 0x0043
  | .keyPressed, n => 0x0044 ≤ n ∧ n ≤ 0x0047
  | .keyReleased, n => 0x0048 ≤ n ∧ n ≤ 0x004B
  | .mouseX, n => 0x004C ≤ n ∧ n ≤ 0x004F
  | .mouseY, n => 0x0050 ≤ n ∧ n ≤ 0x0053
  | .mouseHeld, n => 0x0054 ≤ n ∧ n ≤ 0x0057
  | .mousePressed, n => 0x0058 ≤ n ∧ n ≤ 0x005B
  | .mouseReleased, n => 0x005C ≤ n ∧ n ≤ 0x005F
  | .unused, n => (0x0014 ≤ n ∧ n ≤ 0x001F) ∨ (0x0028 ≤ n ∧ n ≤ 0x003F) ∨ (0x0060 ≤ n ∧ n ≤ 0x0BFF) ∨ 0xE000 ≤ n
  | .pal, n => 0x0C00 ≤ n ∧ n ≤ 0x0FFF
  | .fb, n => 0x1000 ≤ n ∧ n ≤ 0x4FFF
  | .tmTable, n => 0x5000 ≤ n ∧ n ≤ 0x57FF
  | .sprTable, n => 0x5800 ≤ n ∧ n ≤ 0x5FFF
  | .tmGfx, n => 0x6000 ≤ n ∧ n ≤ 0x9FFF
  | .sprGfx, n => 0xA000 ≤ n ∧ n ≤ 0xDFFF

theorem classicRegion_covers (off : Offset) : (classicRegion off).Covers off.toNat := by
  unfold classicRegion
  split_ifs <;> simp only [ClassicRegion.Covers] <;> omega

theorem page0Region_covers (n : Nat) (h : n < 0x1000) : (page0Region n).Covers n := by
  unfold page0Region
  split_ifs
  · split <;> simp only [EnhancedRegion.Covers, imp_false] at * <;> omega
  all_goals simp only [EnhancedRegion.Covers]; omega

theorem enhancedRegion_covers (off : Offset) : (enhancedRegion off).Covers off.toNat := by
  have hlt := off.isLt
  unfold enhancedRegion
  split
  case h_1 hpage =>
    have hn : off.toNat % 0x1000 = off.toNat := by omega
    rw [hn]
    exact page0Region_covers _ (by omega)
  case h_6 => split_ifs <;> simp only [EnhancedRegion.Covers] <;> omega
  all_goals simp only [EnhancedRegion.Covers, imp_false] at *; omega

theorem aligned_iff (off : Offset) (w : Width) : aligned off w = true ↔ off.toNat % w.bytes = 0 := by
  simp [aligned]

/-- A word access inside the four offsets of the word at `c` is at `c`. -/
theorem eq_of_aligned_word {c off : Offset} (hc : c.toNat % 4 = 0)
    (hr : c.toNat ≤ off.toNat ∧ off.toNat ≤ c.toNat + 3) (ha : aligned off .four = true) : off = c := by
  rw [aligned_iff, Width.bytes] at ha
  exact BitVec.eq_of_toNat_eq (by omega)

/-- The word-only offsets of a map are whole words (20_memory R63). -/
theorem inWordOnly_of_word {m : Mode} {c off : Offset} (hm : inWordOnly m c = true) (hc : c.toNat % 4 = 0)
    (hr : c.toNat ≤ off.toNat ∧ off.toNat ≤ c.toNat + 3) : inWordOnly m off = true := by
  cases m <;> simp only [inWordOnly, Bool.or_eq_true, Bool.and_eq_true, decide_eq_true_eq] at * <;> omega

/-- A write at the word-only register at `c` is the register's row or a narrow one (30_encoding R101 (4)). -/
theorem wordOnlyWrite_rowOf {m : Mode} {off : Offset} {d : WVal} {target : Word → Instr} {c : Offset}
    (ht : ∀ v, (target v).RowOf m (.write c (.b4 v))) (hm : inWordOnly m c = true) (hc : c.toNat % 4 = 0)
    (hr : c.toNat ≤ off.toNat ∧ off.toNat ≤ c.toNat + 3) (ha : aligned off d.width = true) :
    (wordOnlyWrite m off d target).RowOf m (.write off d) := by
  have hw := inWordOnly_of_word hm hc hr
  cases d with
  | b4 v => rw [eq_of_aligned_word hc hr ha]; exact ht v
  | b1 v => exact ⟨by simpa [wordOnlyWrite, Instr.wf, narrowAt, hw, WVal.width] using ha, rfl⟩
  | b2 v => exact ⟨by simpa [wordOnlyWrite, Instr.wf, narrowAt, hw, WVal.width] using ha, rfl⟩

/-- A read at the word-only register at `c` is the register's row or a narrow one (30_encoding R101 (4)). -/
theorem wordOnlyRead_rowOf {m : Mode} {off : Offset} {w : Width} {target : Instr} {c : Offset}
    (ht : target.RowOf m (.read c .four)) (hm : inWordOnly m c = true) (hc : c.toNat % 4 = 0)
    (hr : c.toNat ≤ off.toNat ∧ off.toNat ≤ c.toNat + 3) (ha : aligned off w = true) :
    (wordOnlyRead m off w target).RowOf m (.read off w) := by
  have hw := inWordOnly_of_word hm hc hr
  cases w with
  | four => rw [eq_of_aligned_word hc hr ha]; exact ht
  | one => exact ⟨by simp [wordOnlyRead, Instr.wf, narrowAt, hw, ha], rfl⟩
  | two => exact ⟨by simp [wordOnlyRead, Instr.wf, narrowAt, hw, ha], rfl⟩

theorem inRange_of_bounds {lo hi : Nat} {off : Offset} {w : Width} (hr : lo ≤ off.toNat ∧ off.toNat ≤ hi)
    (ha : aligned off w = true) : inRange lo hi off w = true := by
  simp [inRange, hr, ha]

theorem inDeadZone_of_covers {off : Offset} {w : Width} (h : ClassicRegion.dead.Covers off.toNat)
    (ha : aligned off w = true) : inDeadZone off w = true := by
  simp [inDeadZone, h.1, h.2, ha]

theorem beyondDeadZone_of_covers {off : Offset} {w : Width} (h : ClassicRegion.beyond.Covers off.toNat)
    (ha : aligned off w = true) : beyondDeadZone off w = true := by
  rw [ClassicRegion.Covers] at h
  simp [beyondDeadZone, h, ha]

theorem inUnused_of_covers {off : Offset} (h : EnhancedRegion.unused.Covers off.toNat) : inUnused off = true := by
  simpa [inUnused, EnhancedRegion.Covers, or_assoc] using h

theorem routeClassicWrite_rowOf {off : Offset} {d : WVal} (ha : aligned off d.width = true) :
    (routeClassicWrite off d).RowOf .classic (.write off d) := by
  have hc := classicRegion_covers off
  unfold routeClassicWrite
  cases hr : classicRegion off <;> rw [hr] at hc
  case back => exact ⟨inRange_of_bounds hc ha, rfl⟩
  case dead => exact ⟨inDeadZone_of_covers hc ha, rfl⟩
  case beyond => exact ⟨beyondDeadZone_of_covers hc ha, rfl⟩
  case ctrl | keys => exact wordOnlyWrite_rowOf (fun _ => ⟨rfl, rfl⟩) rfl rfl hc ha

theorem routeClassicRead_rowOf {off : Offset} {w : Width} (ha : aligned off w = true) :
    (routeClassicRead off w).RowOf .classic (.read off w) := by
  have hc := classicRegion_covers off
  unfold routeClassicRead
  cases hr : classicRegion off <;> rw [hr] at hc
  case back => exact ⟨inRange_of_bounds hc ha, rfl⟩
  case dead => exact ⟨inDeadZone_of_covers hc ha, rfl⟩
  case beyond => exact ⟨beyondDeadZone_of_covers hc ha, rfl⟩
  case ctrl | keys => exact wordOnlyRead_rowOf ⟨rfl, rfl⟩ rfl rfl hc ha

theorem routeEnhancedWrite_rowOf {off : Offset} {d : WVal} (ha : aligned off d.width = true) :
    (routeEnhancedWrite off d).RowOf .enhanced (.write off d) := by
  have hc := enhancedRegion_covers off
  unfold routeEnhancedWrite
  cases hr : enhancedRegion off <;> rw [hr] at hc
  case unused => exact ⟨by simp [Instr.wf, inUnused_of_covers hc, ha], rfl⟩
  case pal | fb | tmTable | sprTable | tmGfx | sprGfx => exact ⟨inRange_of_bounds hc ha, rfl⟩
  all_goals exact wordOnlyWrite_rowOf (fun _ => ⟨rfl, rfl⟩) rfl rfl hc ha

theorem routeEnhancedRead_rowOf {off : Offset} {w : Width} (ha : aligned off w = true) :
    (routeEnhancedRead off w).RowOf .enhanced (.read off w) := by
  have hc := enhancedRegion_covers off
  unfold routeEnhancedRead
  cases hr : enhancedRegion off <;> rw [hr] at hc
  case unused => exact ⟨by simp [Instr.wf, inUnused_of_covers hc, ha], rfl⟩
  case pal | fb | tmTable | sprTable | tmGfx | sprGfx => exact ⟨inRange_of_bounds hc ha, rfl⟩
  all_goals exact wordOnlyRead_rowOf ⟨rfl, rfl⟩ rfl rfl hc ha

/-- Every transaction in either mode routes to its row (30_encoding R101, R104, R122). -/
theorem route_rowOf (m : Mode) (r : BusReq) : (route m r).RowOf m r := by
  cases r with
  | write off d =>
    simp only [route]
    split
    next ha =>
      cases m with
      | classic => exact routeClassicWrite_rowOf ha
      | enhanced => exact routeEnhancedWrite_rowOf ha
    next ha => exact ⟨by simp [Instr.wf, ha], rfl⟩
  | read off w =>
    simp only [route]
    split
    next ha =>
      cases m with
      | classic => exact routeClassicRead_rowOf ha
      | enhanced => exact routeEnhancedRead_rowOf ha
    next ha => exact ⟨by simp [Instr.wf, ha], rfl⟩

theorem route_ne_reset (m : Mode) (r : BusReq) : route m r ≠ .reset := by
  intro h
  have hp := (route_rowOf m r).2
  rw [h] at hp
  cases hp

end Sys2Proof

/-! What an instruction and a step can do, said once, and the RAM regions that every step keeps good. -/

namespace Sys2Proof.Machine

/-- Propagation and the three rebuilds as one record update (45_compositor R291 to R294). -/
theorem State.rebuild_eq (s : State) :
    s.rebuild = { s with
      palDirty := false
      fbDirty := (s.fbDirty || s.palDirty) && !s.fbEnabled
      tmDirty := (s.tmDirty || s.palDirty) && !s.tmEnabled
      sprDirty := false
      fbLayer := if s.fbEnabled && (s.fbDirty || s.palDirty) then fbLayerOf s.pal s.fb else s.fbLayer
      tmLo :=
        if s.tmEnabled && (s.tmDirty || s.palDirty) then tmLoOf s.pal s.tmTable s.tmGfx s.scx s.scy else s.tmLo
      tmHi :=
        if s.tmEnabled && (s.tmDirty || s.palDirty) then tmHiOf s.pal s.tmTable s.tmGfx s.scx s.scy else s.tmHi
      sprLayer := if s.sprDirty || s.palDirty then sprLayerOf s.pal s.sprTable s.sprGfx else s.sprLayer } := by
  rw [State.rebuild, State.rebuildSpr_eq, State.rebuildTm_eq, State.rebuildFb_eq, State.propagate_eq]

/-- What an instruction can do to the state, one constructor for each kind of change: `exec_effect` says that these are
all. `aside` stands for the reads, the ignored writes, the key latches, SAMPLE and INPUT, none of which touches the
mode, the planes, the compositor or the held read. -/
inductive Effect (s : State) : Instr → State → Prop
  | aside {i : Instr} (d : Option WVal) (p : Option Sample) (v : Inputs) (k0 k1 k2 : Word) :
    Effect s i { s with readData := d, sampled := p, inputs := v, keySel0 := k0, keySel1 := k1, keySel2 := k2 }
  | hold : Effect s .cCtrlR s.hold
  | beyond (off : Offset) (d : WVal) : Effect s (.cBeyondW off d) { s with anomaly := true }
  | switch (v : Word) (h : Config.enhThreshold ≤ v) : Effect s (.cCtrlW v) (s.switchEnhanced v)
  | classicSync (v : Word) (h : ¬ Config.enhThreshold ≤ v) : Effect s (.cCtrlW v) (s.classicSync v)
  | control (v : Word) : Effect s (.eCtrlW v) (s.setSubFlags v)
  | order (v : Word) : Effect s (.eOrderW v) { s with fbInFront := orderBit v }
  | sync (v : Word) : Effect s (.eSyncW v) s.rebuild.publish.signalFrame
  | palReset (v : Word) : Effect s (.ePalResetW v) { s with pal := defaultPalette, bg := defaultBg }.markPal
  | background (off : Offset) (d : WVal) (c : RGB) : Effect s (.ePalW off d) { s with bg := c }
  | palStore (off : Offset) (d : WVal) (p : Palette) : Effect s (.ePalW off d) { s with pal := p }.markPal
  | scrollX (v : Word) : Effect s (.eTmScxW v) { s with scx := v }.markTm
  | scrollY (v : Word) : Effect s (.eTmScyW v) { s with scy := v }.markTm
  | fbClear (v : Word) : Effect s (.eFbClearW v) { s with fb := [] }.markFb
  | storeBack (off : Offset) (d : WVal) : Effect s (.cBackW off d) { s with back := s.back.store (backIndex off) d }
  | storeFb (off : Offset) (d : WVal) : Effect s (.eFbW off d) { s with fb := s.fb.store (fbIndex off) d }.markFb
  | storeTmTable (off : Offset) (d : WVal) :
    Effect s (.eTmtW off d) { s with tmTable := s.tmTable.store (tmTableIndex off) d }.markTm
  | storeTmGfx (off : Offset) (d : WVal) :
    Effect s (.eTmgW off d) { s with tmGfx := s.tmGfx.store (tmGfxIndex off) d }.markTm
  | storeSprTable (off : Offset) (d : WVal) :
    Effect s (.eSptW off d) { s with sprTable := s.sprTable.store (sprTableIndex off) d }.markSpr
  | storeSprGfx (off : Offset) (d : WVal) :
    Effect s (.eSpgW off d) { s with sprGfx := s.sprGfx.store (sprGfxIndex off) d }.markSpr
  | reset : Effect s .reset s.resetEvent

theorem exec_cCtrlW_switch (s : State) {v : Word} (h : Config.enhThreshold ≤ v) :
    exec (.cCtrlW v) s = .next (s.switchEnhanced v) := by
  simp [exec, execCCtrlW, h]

theorem exec_cCtrlW_sync (s : State) {v : Word} (h : ¬ Config.enhThreshold ≤ v) :
    exec (.cCtrlW v) s = .next (s.classicSync v) := by
  simp [exec, execCCtrlW, h]

theorem palWrite_effect (off : Offset) (d : WVal) (s : State) : Effect s (.ePalW off d) (s.palWrite off d) := by
  unfold State.palWrite State.putColor
  split_ifs
  · exact .aside _ _ _ _ _ _
  · exact .background off d _
  · exact .palStore off d _

/-- Every instruction has one of the listed effects. -/
theorem exec_next_effect (i : Instr) (s : State) : ∃ t, exec i s = .next t ∧ Effect s i t := by
  cases i with
  | cCtrlW v =>
    by_cases h : Config.enhThreshold ≤ v
    · exact ⟨_, exec_cCtrlW_switch s h, .switch v h⟩
    · exact ⟨_, exec_cCtrlW_sync s h, .classicSync v h⟩
  | cCtrlR => exact ⟨_, rfl, .hold⟩
  | cBeyondW off d => exact ⟨_, rfl, .beyond off d⟩
  | eCtrlW v => exact ⟨_, rfl, .control v⟩
  | eOrderW v => exact ⟨_, rfl, .order v⟩
  | eSyncW v => exact ⟨_, rfl, .sync v⟩
  | ePalResetW v => exact ⟨_, rfl, .palReset v⟩
  | ePalW off d => exact ⟨_, rfl, palWrite_effect off d s⟩
  | eTmScxW v => exact ⟨_, rfl, .scrollX v⟩
  | eTmScyW v => exact ⟨_, rfl, .scrollY v⟩
  | eFbClearW v => exact ⟨_, rfl, .fbClear v⟩
  | cBackW off d => exact ⟨_, rfl, .storeBack off d⟩
  | eFbW off d => exact ⟨_, rfl, .storeFb off d⟩
  | eTmtW off d => exact ⟨_, rfl, .storeTmTable off d⟩
  | eTmgW off d => exact ⟨_, rfl, .storeTmGfx off d⟩
  | eSptW off d => exact ⟨_, rfl, .storeSprTable off d⟩
  | eSpgW off d => exact ⟨_, rfl, .storeSprGfx off d⟩
  | reset => exact ⟨_, rfl, .reset⟩
  | _ => exact ⟨_, rfl, .aside _ _ _ _ _ _⟩

theorem exec_effect {i : Instr} {s t : State} (h : exec i s = .next t) : Effect s i t := by
  obtain ⟨u, hu, he⟩ := exec_next_effect i s
  obtain rfl : u = t := Host.Outcome.next.inj (hu.symm.trans h)
  exact he

/-- No instruction touches the schedule. -/
theorem Effect.pending {i : Instr} {s t : State} (h : Effect s i t) : t.pending = s.pending := by
  cases h <;> simp

/-- Only RESET leaves Enhanced mode (40_mode_control R148). -/
theorem Effect.mode_enhanced {i : Instr} {s t : State} (h : Effect s i t) (hi : i ≠ .reset)
    (hm : s.mode = .enhanced) : t.mode = .enhanced := by
  cases h with
  | reset => exact absurd rfl hi
  | _ => simp [hm]

/-- Taking one entry out of a schedule leaves a part of it. -/
theorem sublist_of_split {l l1 l2 : List Pending} {e : Pending} (h : l = l1 ++ e :: l2) : (l1 ++ l2).Sublist l :=
  h ▸ (List.Sublist.refl l1).append (List.sublist_cons_self e l2)

/-- Everything a step can do, with the effect of the instruction it runs: a well-formed row, RESET only where the
schedule held one. -/
theorem step_effect {s t : State} (h : step s = .next t) :
    (∃ i k rest, i.wf = true ∧ rest.Sublist s.pending ∧ (i = .reset → Pending.reset ∈ s.pending) ∧
        Effect (s.begin k rest) i t) ∨
      (∃ k rest, rest.Sublist s.pending ∧ t = (s.begin k rest).completeRead k) ∨ t = s.quiet := by
  rcases step_cases s t h with ⟨k, r, l1, l2, hp, -, he⟩ | ⟨l1, l2, hp, he⟩ | ⟨l1, l2, hp, he⟩ | ⟨l1, l2, cs, hp, he⟩ |
    ⟨k, rest, hr, -, -, rfl⟩ | rfl
  · exact .inl ⟨route s.mode r, k, _, (route_rowOf s.mode r).1, sublist_of_split hp,
      fun hi => absurd hi (route_ne_reset s.mode r), exec_effect he⟩
  · exact .inl ⟨.reset, _, _, rfl, sublist_of_split hp, fun _ => by simp [hp], exec_effect he⟩
  · exact .inl ⟨.sample, _, _, rfl, sublist_of_split hp, nofun, exec_effect he⟩
  · exact .inl ⟨.input cs, _, _, rfl, sublist_of_split hp, nofun, exec_effect he⟩
  · exact .inr (.inl ⟨k, rest, hr, rfl⟩)
  · exact .inr (.inr rfl)

/-- An invariant that every well-formed instruction keeps, and that reads neither the outputs nor the schedule nor the
held masters, is kept by every step. -/
theorem step_keeps {P : State → Prop} (begins : ∀ s k rest, P s → P (s.begin k rest))
    (completes : ∀ s k, P s → P (s.completeRead k)) (quiets : ∀ s, P s → P s.quiet)
    (effects : ∀ s i t, i.wf = true → P s → Effect s i t → P t) (s t : State) (hs : P s) (h : step s = .next t) :
    P t := by
  rcases step_effect h with ⟨i, k, rest, hi, -, -, he⟩ | ⟨k, rest, -, rfl⟩ | rfl
  · exact effects _ i _ hi (begins s k rest hs) he
  · exact completes _ k (begins s k rest hs)
  · exact quiets s hs

/-! ## Memories -/

/-- An aligned access below a limit that is a multiple of four ends below it (20_memory R65). -/
theorem aligned_end_le {a n : Nat} {w : Width} (hn : n % 4 = 0) (hlt : a < n) (ha : a % w.bytes = 0) :
    a + w.bytes ≤ n := by
  cases w <;> simp only [Width.bytes] at * <;> omega

/-- A store keeps a region good. -/
theorem Memory.good_store {n i : Nat} {m : Memory} {d : WVal} (h : Memory.good n m) (hi : i + d.width.bytes ≤ n) :
    Memory.good n (m.store i d) :=
  ⟨m.store_wf i d h.1, m.store_within n i d h.2 hi⟩

/-- A store at the offset less the region's base, inside a region of whole words, keeps the region good. -/
theorem Memory.good_store_sub {lo hi n : Nat} {off : Offset} {m : Memory} {d : WVal} (h : Memory.good n m)
    (hr : inRange lo hi off d.width = true) (hlo : lo % 4 = 0) (hn : n % 4 = 0) (hhi : hi < lo + n) :
    Memory.good n (m.store (off.toNat - lo) d) := by
  simp only [inRange, Bool.and_eq_true, decide_eq_true_eq, aligned_iff] at hr
  obtain ⟨h1, h2, ha⟩ := hr
  have := aligned_end_le (n := lo + n) (by omega) (by omega) ha
  exact Memory.good_store h (by omega)

theorem Memory.good_nil (n : Nat) : Memory.good n [] := ⟨Memory.wf_nil, Memory.within_nil n⟩

theorem sprTableIndex_end_le {off : Offset} {w : Width} (h : inRange 0x5800 0x5FFF off w = true) :
    sprTableIndex off + w.bytes ≤ 1024 := by
  simp only [inRange, Bool.and_eq_true, decide_eq_true_eq, aligned_iff] at h
  obtain ⟨h1, h2, ha⟩ := h
  refine aligned_end_le rfl (Nat.mod_lt _ (by decide)) ?_
  cases w <;> simp only [sprTableIndex, Width.bytes] at * <;> omega


theorem reset_memoriesGood : State.reset.MemoriesGood :=
  ⟨Memory.good_nil _, Memory.good_nil _, Memory.good_nil _, Memory.good_nil _, Memory.good_nil _, Memory.good_nil _,
    Memory.good_nil _⟩

theorem classicSync_memoriesGood {s : State} (v : Word) (h : s.MemoriesGood) : (s.classicSync v).MemoriesGood := by
  refine { h with front := h.back, back := ?_ }
  rw [State.classicSync_back]
  split
  · exact h.back
  · exact Memory.good_nil _

theorem Effect.memoriesGood {i : Instr} {s t : State} (he : Effect s i t) (hi : i.wf = true) (h : s.MemoriesGood) :
    t.MemoriesGood := by
  cases he with
  | storeBack off d => exact { h with back := Memory.good_store_sub h.back hi rfl rfl (by decide) }
  | storeFb off d => exact { h with fb := Memory.good_store_sub h.fb hi rfl rfl (by decide) }
  | storeTmTable off d => exact { h with tmTable := Memory.good_store_sub h.tmTable hi rfl rfl (by decide) }
  | storeTmGfx off d => exact { h with tmGfx := Memory.good_store_sub h.tmGfx hi rfl rfl (by decide) }
  | storeSprTable off d => exact { h with sprTable := Memory.good_store h.sprTable (sprTableIndex_end_le hi) }
  | storeSprGfx off d => exact { h with sprGfx := Memory.good_store_sub h.sprGfx hi rfl rfl (by decide) }
  | fbClear v => exact { h with fb := Memory.good_nil _ }
  | classicSync v _ => exact classicSync_memoriesGood v h
  | sync v => rw [State.rebuild_eq]; exact { h with }
  | reset => exact { reset_memoriesGood with }
  | _ => exact { h with }

/-- Settles O12: the step's cases, and each store ends inside its region. -/
theorem stepKeepsMemoriesGood : Obligations.StepKeepsMemoriesGood :=
  step_keeps (fun _ _ _ h => { h with }) (fun _ _ h => { h with }) (fun _ h => { h with })
    fun _ _ _ hi h he => he.memoriesGood hi h

end Sys2Proof.Machine

/-! Cached layers: coherence (10_state R40), and that neither a dirty flag nor a layer can be observed. -/

namespace Sys2Proof.Machine

/-! ## Coherence -/

/-- A dirty palette leaves nothing to ask of the layers. -/
theorem State.layersCoherent_of_palDirty {s : State} (h : s.palDirty = true) : s.LayersCoherent := by
  constructor <;> simp [h]

/-- A layer that equals its build wherever nothing changed equals it after the rebuild, unless the plane stayed dirty
because it is disabled. -/
theorem rebuilt_eq {l new : Layer} {enabled changed : Bool} (h : changed = false → l = new)
    (hd : (changed && !enabled) = false) : (if enabled && changed then new else l) = new := by
  cases changed with
  | false => simp [h rfl]
  | true => simp_all

/-- What coherence says, with the two dirty flags of a plane as one. -/
theorem State.LayersCoherent.of_unchanged {s : State} (h : s.LayersCoherent) :
    ((s.fbDirty || s.palDirty) = false → s.fbLayer = fbLayerOf s.pal s.fb) ∧
      ((s.tmDirty || s.palDirty) = false → s.tmLo = tmLoOf s.pal s.tmTable s.tmGfx s.scx s.scy) ∧
      ((s.tmDirty || s.palDirty) = false → s.tmHi = tmHiOf s.pal s.tmTable s.tmGfx s.scx s.scy) ∧
      ((s.sprDirty || s.palDirty) = false → s.sprLayer = sprLayerOf s.pal s.sprTable s.sprGfx) := by
  simp only [Bool.or_eq_false_iff]
  exact ⟨fun hd => h.fb hd.2 hd.1, fun hd => h.tmLo hd.2 hd.1, fun hd => h.tmHi hd.2 hd.1, fun hd => h.spr hd.2 hd.1⟩

theorem State.LayersCoherent.rebuild {s : State} (h : s.LayersCoherent) : s.rebuild.LayersCoherent := by
  obtain ⟨hfb, hlo, hhi, hspr⟩ := h.of_unchanged
  rw [State.rebuild_eq]
  exact ⟨fun _ => rebuilt_eq hfb, fun _ => rebuilt_eq hlo, fun _ => rebuilt_eq hhi,
    fun _ _ => rebuilt_eq (enabled := true) hspr (by simp)⟩

theorem Effect.layersCoherent {i : Instr} {s t : State} (he : Effect s i t) (h : s.LayersCoherent) :
    t.LayersCoherent := by
  cases he with
  | palReset | palStore | reset => exact State.layersCoherent_of_palDirty rfl
  | fbClear | storeFb => exact { h with fb := fun _ hd => (nomatch hd) }
  | scrollX | scrollY | storeTmTable | storeTmGfx =>
    exact { h with tmLo := fun _ hd => (nomatch hd), tmHi := fun _ hd => (nomatch hd) }
  | storeSprTable | storeSprGfx => exact { h with spr := fun _ hd => (nomatch hd) }
  | sync => exact { h.rebuild with }
  | _ => exact { h with }

/-- Settles O13: a write marks the plane it changes, and SYNC rebuilds what it marks clean. -/
theorem stepKeepsLayersCoherent : Obligations.StepKeepsLayersCoherent :=
  step_keeps (fun _ _ _ h => { h with }) (fun _ _ h => { h with }) (fun _ h => { h with })
    fun _ _ _ _ h he => he.layersCoherent h

/-! ## The picture of a coherent state -/

/-- Where the layers of the enabled planes are fresh, the merge of the cached layers is the image of current RAM: a
disabled plane adds nothing to it (45_compositor R296, R298). -/
theorem State.merge_eq_image {s : State} (hfb : s.fbEnabled = true → s.fbLayer = fbLayerOf s.pal s.fb)
    (hlo : s.tmEnabled = true → s.tmLo = tmLoOf s.pal s.tmTable s.tmGfx s.scx s.scy)
    (hhi : s.tmEnabled = true → s.tmHi = tmHiOf s.pal s.tmTable s.tmGfx s.scx s.scy)
    (hspr : s.sprLayer = sprLayerOf s.pal s.sprTable s.sprGfx) : s.merge = s.image := by
  unfold State.merge State.image State.mergeOf
  refine Frame.build_congr _ _ fun x y _ _ => ?_
  rw [hspr]
  cases hf : s.fbEnabled <;> cases ht : s.tmEnabled <;> simp_all [mergePixel, overlayIf]

theorem State.rebuild_image (s : State) : s.rebuild.image = s.image := by
  rw [State.rebuild_eq]; rfl

/-- After the rebuilds of a coherent state the merge is the image of current RAM (45_compositor R298). -/
theorem State.LayersCoherent.merge_rebuild {s : State} (h : s.LayersCoherent) : s.rebuild.merge = s.image := by
  obtain ⟨hfb, hlo, hhi, hspr⟩ := h.rebuild.of_unchanged
  rw [← s.rebuild_image]
  have hd : s.rebuild.palDirty = false ∧ s.rebuild.sprDirty = false ∧
      (s.fbEnabled = true → s.rebuild.fbDirty = false) ∧ (s.tmEnabled = true → s.rebuild.tmDirty = false) := by
    rw [State.rebuild_eq]; simp +contextual
  obtain ⟨hp, hs, hf, ht⟩ := hd
  exact State.merge_eq_image (fun he => hfb (by simp_all)) (fun he => hlo (by simp_all)) (fun he => hhi (by simp_all))
    (hspr (by simp_all))

/-! ## Noninterference -/

/-- `s` with the dirty flags and the cached layers of `c`. -/
def State.withCaches (s c : State) : State :=
  { s with
    palDirty := c.palDirty, fbDirty := c.fbDirty, tmDirty := c.tmDirty, sprDirty := c.sprDirty, fbLayer := c.fbLayer,
    tmLo := c.tmLo, tmHi := c.tmHi, sprLayer := c.sprLayer }

theorem State.sameButCaches_iff {s t : State} : s.SameButCaches t ↔ ∃ c, t = s.withCaches c :=
  ⟨fun h => ⟨t, h⟩, fun ⟨_, h⟩ => h ▸ rfl⟩

theorem State.SameButCaches.refl (s : State) : s.SameButCaches s := rfl

/-- RESET reads no cache. -/
theorem State.resetEvent_withCaches (s c : State) : (s.withCaches c).resetEvent = s.resetEvent := rfl

theorem State.putColor_withCaches (s c : State) (e : Byte) (x : RGB) :
    (s.putColor e x).SameButCaches ((s.withCaches c).putColor e x) := by
  unfold State.putColor
  split
  · exact rfl
  · exact rfl

theorem State.palWrite_withCaches (s c : State) (off : Offset) (d : WVal) :
    (s.palWrite off d).SameButCaches ((s.withCaches c).palWrite off d) := by
  unfold State.palWrite
  split
  · exact rfl
  · exact s.putColor_withCaches c _ _

/-- The Enhanced sync writes of two coherent states with the same contents publish one image. -/
theorem State.LayersCoherent.sync_sameButCaches {s c : State} (hs : s.LayersCoherent)
    (hc : (s.withCaches c).LayersCoherent) :
    s.rebuild.publish.signalFrame.SameButCaches (s.withCaches c).rebuild.publish.signalFrame := by
  rw [State.publish, State.publish, hs.merge_rebuild, hc.merge_rebuild, State.rebuild_eq, State.rebuild_eq]
  exact rfl

/-- Every instruction takes two coherent states with the same contents but for the caches to two such states. A sync
write publishes the same image; every other instruction reads no cache at all. -/
theorem exec_sameButCaches (i : Instr) {s s' t : State} (hs : s.LayersCoherent) (hs' : s'.LayersCoherent)
    (h : s.SameButCaches s') (he : exec i s = .next t) : ∃ t', exec i s' = .next t' ∧ t.SameButCaches t' := by
  obtain ⟨c, rfl⟩ := State.sameButCaches_iff.1 h
  cases i with
  | cCtrlW v =>
    by_cases hv : Config.enhThreshold ≤ v
    · rw [exec_cCtrlW_switch s hv] at he
      cases he
      exact ⟨_, exec_cCtrlW_switch _ hv, rfl⟩
    · rw [exec_cCtrlW_sync s hv] at he
      cases he
      exact ⟨_, exec_cCtrlW_sync _ hv, rfl⟩
  | ePalW off d =>
    obtain rfl : s.palWrite off d = t := Host.Outcome.next.inj he
    exact ⟨_, rfl, s.palWrite_withCaches c off d⟩
  | eSyncW v =>
    cases he
    exact ⟨_, rfl, hs.sync_sameButCaches hs'⟩
  | reset =>
    cases he
    exact ⟨_, rfl, s.resetEvent_withCaches c ▸ State.SameButCaches.refl _⟩
  | _ =>
    cases he
    exact ⟨_, rfl, rfl⟩

theorem step_complete (s : State) (k : Master) (rest : List Pending) (h : s.choose = .complete k rest) :
    step s = .next ((s.begin k rest).completeRead k) := by
  simp only [step, h]

theorem step_idle (s : State) (h : s.choose = .idle) : step s = .next s.quiet := by
  simp only [step, h]

/-- Every step answers a next state (60_exceptions R340). -/
theorem step_next (s : State) : ∃ t, step s = .next t := by
  cases hc : s.choose with
  | run k p rest => rw [step_run s k p rest hc]; exact exec_next _ _
  | complete k rest => exact ⟨_, step_complete s k rest hc⟩
  | idle => exact ⟨_, step_idle s hc⟩

/-- Settles O55: the choice of the step reads no cache, and the instruction it runs shows none. -/
theorem cachesAreUnobservable : Obligations.CachesAreUnobservable := by
  intro s s' t hs hs' h hstep
  obtain ⟨c, rfl⟩ := State.sameButCaches_iff.1 h
  have hsame : (s.withCaches c).choose = s.choose := rfl
  cases hc : s.choose with
  | run k p rest =>
    rw [step_run s k p rest hc] at hstep
    rw [step_run _ k p rest (hsame.trans hc)]
    exact exec_sameButCaches (s := s.begin k rest) p.instr { hs with } { hs' with } rfl hstep
  | complete k rest =>
    rw [step_complete s k rest hc] at hstep
    cases hstep
    exact ⟨_, step_complete _ k rest (hsame.trans hc), rfl⟩
  | idle =>
    rw [step_idle s hc] at hstep
    cases hstep
    exact ⟨_, step_idle _ (hsame.trans hc), rfl⟩

end Sys2Proof.Machine

/-! Modes, sub-flags and sticky flags (10_state R23 to R25, R46, R47), and the state after reset (R52). -/

namespace Sys2Proof.Machine

/-! ## Sub-flags -/

theorem clamp_bounds {lo hi : Nat} (x : Nat) (h : lo ≤ hi) : lo ≤ clamp x lo hi ∧ clamp x lo hi ≤ hi := by
  unfold clamp
  split_ifs <;> omega

/-- Whatever is written to CTRL, a plane is enabled: the mode field 0 enables the framebuffer, and any other has one of
its two bits set (40_mode_control R144). -/
theorem plane_enabled (v : Word) : fbEnabledOf v = true ∨ tmEnabledOf v = true := by
  cases h0 : v.getLsbD 0 with
  | true => simp [fbEnabledOf, h0]
  | false =>
    cases h1 : v.getLsbD 1 with
    | true => simp [tmEnabledOf, h1]
    | false =>
      have : ctrlMode v = 0 := by
        ext i hi
        obtain rfl | rfl : i = 0 ∨ i = 1 := by omega
        · simpa [ctrlMode] using h0
        · simpa [ctrlMode] using h1
      simp [fbEnabledOf, this]

theorem State.subFlagsGood_of_control {s : State} (v : Word) (hfb : s.fbEnabled = fbEnabledOf v)
    (htm : s.tmEnabled = tmEnabledOf v) (hms : s.msPerFrame = msPerFrameOf v) : s.SubFlagsGood := by
  have hb := clamp_bounds (ctrlMs v).toNat (show 10 ≤ 100 by decide)
  exact ⟨fun _ => by rw [hfb, htm]; exact plane_enabled v, hms ▸ hb.1, hms ▸ hb.2⟩

theorem freeMs_bounds (k : Nat) : 10 ≤ freeMs k ∧ freeMs k ≤ 100 := by
  have := (Config.freeMsPerFrame k).isLt
  unfold freeMs
  omega

theorem resetEvent_subFlagsGood (s : State) : s.resetEvent.SubFlagsGood :=
  ⟨nofun, (freeMs_bounds s.freeCount).1, (freeMs_bounds s.freeCount).2⟩

theorem Effect.subFlagsGood {i : Instr} {s t : State} (he : Effect s i t) (h : s.SubFlagsGood) : t.SubFlagsGood := by
  cases he with
  | switch v _ => exact State.subFlagsGood_of_control v rfl rfl rfl
  | control v => exact State.subFlagsGood_of_control v rfl rfl rfl
  | reset => exact resetEvent_subFlagsGood s
  | sync v => rw [State.rebuild_eq]; exact { h with }
  | _ => exact { h with }

/-- Settles O14: only CTRL and RESET write the sub-flags, and each writes good ones. -/
theorem stepKeepsSubFlagsGood : Obligations.StepKeepsSubFlagsGood :=
  step_keeps (fun _ _ _ h => { h with }) (fun _ _ h => { h with }) (fun _ h => { h with })
    fun _ _ _ _ h he => he.subFlagsGood h

/-! ## The mode over runs -/

/-- Enhanced mode with no RESET to come (70_reset_and_hazards R371). -/
def State.StaysEnhanced (s : State) : Prop := s.mode = .enhanced ∧ Pending.reset ∉ s.pending

theorem step_staysEnhanced {s t : State} (h : s.StaysEnhanced) (hs : step s = .next t) : t.StaysEnhanced := by
  obtain ⟨hm, hp⟩ := h
  rcases step_effect hs with ⟨i, k, rest, -, hsub, hreset, he⟩ | ⟨k, rest, hsub, rfl⟩ | rfl
  · refine ⟨he.mode_enhanced (fun hi => hp (hreset hi)) hm, fun hmem => hp (hsub.subset ?_)⟩
    rwa [he.pending] at hmem
  · exact ⟨hm, fun hmem => hp (hsub.subset hmem)⟩
  · exact ⟨hm, hp⟩

theorem run_succ {M : Host.Core} {s u : M.State} (h : M.step s = .next u) (n : Nat) : M.run (n + 1) s = M.run n u := by
  rw [Host.Core.run, h]

/-- What every step keeps, every run keeps. -/
theorem run_keeps {P : State → Prop} (hstep : ∀ s t, P s → step s = .next t → P t) (n : Nat) :
    ∀ s t, P s → Host.Core.run core n s = .next t → P t := by
  induction n with
  | zero =>
    intro s t h hr
    cases hr
    exact h
  | succ n ih =>
    intro s t h hr
    obtain ⟨u, hu⟩ := step_next s
    exact ih u t (hstep s u h hu) ((run_succ (M := core) hu n).symm.trans hr)

/-- Settles O21, by induction on the length of the run. -/
theorem enhancedModeIsNeverLeft : Obligations.EnhancedModeIsNeverLeft := by
  intro n s t hm hp hr
  exact (run_keeps (fun _ _ => step_staysEnhanced) n s t ⟨hm, hp⟩ hr).1

/-! ## Sticky flags -/

/-- Only C.BEYOND.W and RESET touch `anomaly` (10_state R46). -/
theorem Effect.anomaly {i : Instr} {s t : State} (he : Effect s i t) (hi : i ≠ .reset) :
    t.anomaly = s.anomaly ∨ t.anomaly = true ∧ ∃ off d, i = .cBeyondW off d := by
  cases he with
  | beyond off d => exact .inr ⟨rfl, off, d, rfl⟩
  | reset => exact absurd rfl hi
  | sync v => exact .inl (by simp)
  | _ => exact .inl rfl

theorem classicSyncWrite_of_not_le {v : Word} (h : ¬ Config.enhThreshold ≤ v) :
    Stated.classicSyncWrite (.cCtrlW v) := by
  simpa [Stated.classicSyncWrite, BitVec.le_def] using h

/-- Only C.CTRL.R sets `waiter`, and only a sync write or RESET clears it (10_state R47). -/
theorem Effect.waiter {i : Instr} {s t : State} (he : Effect s i t) (hi : i ≠ .reset) :
    t.waiter = s.waiter ∨ (t.waiter = true ∧ i = .cCtrlR) ∨
      t.waiter = false ∧ (Stated.classicSyncWrite i ∨ Stated.enhancedSyncWrite i) := by
  cases he with
  | hold => exact .inr (.inl ⟨rfl, rfl⟩)
  | classicSync v hv => exact .inr (.inr ⟨rfl, .inl (classicSyncWrite_of_not_le hv)⟩)
  | sync v => exact .inr (.inr ⟨rfl, .inr trivial⟩)
  | reset => exact absurd rfl hi
  | _ => exact .inl rfl

/-- Settles O23: each flag is unchanged but by its own instructions. -/
theorem stickyFlags : Obligations.StickyFlags := by
  intro i s t h hi
  have he := exec_effect h
  refine ⟨fun ha => ?_, fun ha ht => ?_, fun hw ht => ?_, fun hw ht => ?_⟩
  · rcases he.anomaly hi with heq | ⟨heq, -⟩
    · rw [heq, ha]
    · exact heq
  · rcases he.anomaly hi with heq | ⟨-, hb⟩
    · simp_all
    · exact hb
  · rcases he.waiter hi with heq | ⟨heq, -⟩ | ⟨-, hsync⟩
    · simp_all
    · simp_all
    · exact hsync
  · rcases he.waiter hi with heq | ⟨-, hr⟩ | ⟨heq, -⟩
    · simp_all
    · exact hr
    · simp_all

/-! ## The state after reset -/

theorem KeySet.good_nil : KeySet.good [] := ⟨List.Pairwise.nil, nofun⟩

/-- Settles O18: every RAM region and key set is empty, the palette is dirty, the mode is Classic. -/
theorem resetMeetsTheInvariants : Obligations.ResetMeetsTheInvariants :=
  ⟨reset_memoriesGood, State.layersCoherent_of_palDirty rfl, ⟨nofun, by decide, by decide⟩,
    fun _ => ⟨rfl, rfl, rfl, rfl, rfl, rfl, rfl, rfl, rfl, rfl, rfl⟩,
    ⟨KeySet.good_nil, KeySet.good_nil, KeySet.good_nil⟩⟩

/-- The intensity table by the number of the level (41_palette R172). -/
theorem intensity_eq (x : BitVec 2) : intensity x =
    if x.toNat = 0 then 0#8 else if x.toNat = 1 then 63#8 else if x.toNat = 2 then 127#8 else 255#8 := by
  revert x
  decide

/-- Two bits of a colour index below 64, as a digit to base 4. -/
theorem extractLsb'_two_toNat (i k : Nat) (h : i ≤ 63) :
    ((BitVec.ofNat 8 i).extractLsb' k 2).toNat = i / 2 ^ k % 4 := by
  simp only [BitVec.extractLsb'_toNat, BitVec.toNat_ofNat, Nat.shiftRight_eq_div_pow]
  rw [Nat.mod_eq_of_lt (show i < 2 ^ 8 by omega)]

/-- The model's ramp is the one 41_palette R172 lists. -/
theorem defaultColor_eq_rampColor (i : Nat) : defaultColor i = Stated.rampColor i := by
  unfold defaultColor Stated.rampColor
  by_cases h : i ≤ 63
  · simp only [if_pos h, intensity_eq, extractLsb'_two_toNat i _ h]
    simp
  · simp only [if_neg h]
    rfl

/-- Settles O19: the palette is the ramp by `defaultPalette_get`; every other value is read off the definition. -/
theorem resetValues : Obligations.ResetValues := by
  refine ⟨rfl, rfl, rfl, by decide, by decide, rfl, rfl, rfl, rfl, fun e he => ?_,
    fun a => ⟨rfl, rfl, rfl, rfl, rfl, rfl, rfl⟩, rfl, rfl, rfl, rfl, rfl, rfl, rfl, rfl, rfl, rfl⟩
  exact (defaultPalette_get e he).trans (defaultColor_eq_rampColor _)

end Sys2Proof.Machine

/-! The bus port and the RAM behind it (20_memory): the window, the events at the head of the schedule, what is read
back from a store, the reads that change nothing, and when a picture can change. -/

namespace Sys2Proof

/-! ## Stored values read back -/

theorem byteOf_eq_ofNat {n : Nat} (v : BitVec n) (j : Nat) : byteOf v j = BitVec.ofNat 8 (v.toNat / 256 ^ j) := by
  rw [byteOf, BitVec.extractLsb', Nat.shiftRight_eq_div_pow, Nat.pow_mul]

/-- Two neighbouring bytes, the higher one first, are a half (20_memory R62). -/
theorem byteOf_append_byteOf {n : Nat} (v : BitVec n) (j : Nat) :
    byteOf v (j + 1) ++ byteOf v j = BitVec.ofNat 16 (v.toNat / 256 ^ j) := by
  rw [byteOf, byteOf, BitVec.extractLsb'_append_extractLsb'_eq_extractLsb' (by omega), BitVec.extractLsb',
    Nat.shiftRight_eq_div_pow, Nat.pow_mul]

/-- A value is the value of its bytes. -/
theorem WVal.ofBytes_byteOf (d : WVal) : WVal.ofBytes d.width (byteOf d.toWord) = d := by
  refine WVal.ext_bytes _ _ (WVal.ofBytes_width _ _) fun j hj => ?_
  rw [WVal.ofBytes_width] at hj
  exact WVal.byteOf_ofBytes _ _ _ hj

theorem WVal.ofBytes_congr {w : Width} {f g : Nat → Byte} (h : ∀ j, j < w.bytes → f j = g j) :
    WVal.ofBytes w f = WVal.ofBytes w g := by
  cases w with
  | one => simp only [WVal.ofBytes, h 0 (by decide)]
  | two => simp only [WVal.ofBytes, h 0 (by decide), h 1 (by decide)]
  | four => simp only [WVal.ofBytes, h 0 (by decide), h 1 (by decide), h 2 (by decide), h 3 (by decide)]

/-- What a load inside the bytes of a store returns: the stored value's bytes from there on (20_memory R62). -/
theorem Memory.load_store_inside {m : Memory} {d : WVal} {w : Width} {k : Nat} (i : Nat) (hm : m.wf)
    (hk : k + w.bytes ≤ d.width.bytes) :
    (m.store i d).load (i + k) w = WVal.ofBytes w (fun j => byteOf d.toWord (k + j)) := by
  refine WVal.ofBytes_congr fun j hj => ?_
  rw [Nat.add_assoc]
  exact m.read_store i d (k + j) hm (by omega)

theorem Memory.load_store_self {m : Memory} (i : Nat) (d : WVal) (hm : m.wf) : (m.store i d).load i d.width = d := by
  have h := Memory.load_store_inside (d := d) (w := d.width) (k := 0) i hm (by omega)
  simp only [Nat.add_zero, Nat.zero_add] at h
  exact h.trans d.ofBytes_byteOf

theorem Memory.load_byte_store_word {m : Memory} {j : Nat} (i : Nat) (v : Word) (hm : m.wf) (hj : j < 4) :
    (m.store i (.b4 v)).load (i + j) .one = .b1 (BitVec.ofNat 8 (v.toNat / 256 ^ j)) :=
  (Memory.load_store_inside i hm hj).trans (congrArg WVal.b1 (byteOf_eq_ofNat v j))

theorem Memory.load_half_store_word {m : Memory} {k : Nat} (i : Nat) (v : Word) (hm : m.wf) (hk : k + 2 ≤ 4) :
    (m.store i (.b4 v)).load (i + k) .two = .b2 (BitVec.ofNat 16 (v.toNat / 256 ^ k)) :=
  (Memory.load_store_inside i hm hk).trans (congrArg WVal.b2 (byteOf_append_byteOf v k))

/-- Settles O38: a load inside a store returns the stored bytes from there on, and a value is the value of its bytes. -/
theorem storedValuesReadBack : Obligations.StoredValuesReadBack := by
  refine ⟨fun m i d hm => Memory.load_store_self i d hm, fun m i v hm => ⟨fun j hj => ?_, ?_, ?_⟩⟩
  · exact Memory.load_byte_store_word i v hm hj
  · simpa using Memory.load_half_store_word (k := 0) i v hm (by decide)
  · exact Memory.load_half_store_word (k := 2) i v hm (by decide)

/-! ## Zero at a width -/

@[simp] theorem WVal.zero_width (w : Width) : (WVal.zero w).width = w := by cases w <;> rfl

@[simp] theorem WVal.zero_toWord (w : Width) : (WVal.zero w).toWord = 0 := by cases w <;> rfl

end Sys2Proof

namespace Sys2Proof.Machine

/-! ## The window of the bus port -/

theorem windowOffset_base_add (off : Offset) : windowOffset (Config.base + off.toNat) = some off := by
  have hlt := off.isLt
  rw [windowOffset, if_pos (by omega), Nat.add_sub_cancel_left, BitVec.ofNat_toNat, BitVec.setWidth_eq]

theorem windowOffset_outside {addr : Nat} (h : addr < Config.base ∨ Config.base + 0x10000 ≤ addr) :
    windowOffset addr = none :=
  if_neg (by omega)

theorem State.present_of_seen {a : BusAccess} {r : BusReq} (s : State) (k : Master) (h : a.seen = some r) :
    s.present k a = { s with pending := s.pending ++ [.bus k r] } := by
  rw [State.present, h]

theorem State.present_of_unseen {a : BusAccess} (s : State) (k : Master) (h : a.seen = none) : s.present k a = s := by
  rw [State.present, h]

/-- Settles O7: the window test gives each address of the window its offset and every other address none. -/
theorem accessesOutsideTheWindowAreNotSeen : Obligations.AccessesOutsideTheWindowAreNotSeen := by
  refine ⟨fun s k d off => s.present_of_seen k ?_, fun s k w off => s.present_of_seen k ?_, fun s k addr h =>
    ⟨fun d => s.present_of_unseen k ?_, fun w => s.present_of_unseen k ?_⟩⟩
  · rw [BusAccess.seen, windowOffset_base_add, Option.map_some]
  · rw [BusAccess.seen, windowOffset_base_add, Option.map_some]
  · rw [BusAccess.seen, windowOffset_outside h, Option.map_none]
  · rw [BusAccess.seen, windowOffset_outside h, Option.map_none]

/-! ## Events at the head of the schedule -/

/-- A head of the schedule that can run and stands for a packet runs the packet's instruction. -/
theorem step_head {s : State} {e : Pending} {k : Master} {p : Packet} {rest : List Pending}
    (hp : s.pending = e :: rest) (he : s.canRun e = true) (hc : e.choice s.mode rest = .run k p rest) :
    step s = exec p.instr (s.begin k rest) :=
  step_run s k p rest ((choose_append s [] rest e hp nofun he).trans hc)

/-- Settles O9: an event can always run, and it stands for its own packet. -/
theorem stepRunsTheEvents : Obligations.StepRunsTheEvents := fun _ _ =>
  ⟨fun hp => step_head hp rfl rfl, fun hp => step_head hp rfl rfl, fun _ hp => step_head hp rfl rfl⟩

/-! ## Reads -/

/-- Settles O25: each read row only replies, and no other row is a plain read. -/
theorem readsChangeNothing : Obligations.ReadsChangeNothing := by
  intro i s h
  cases i with
  | cKeysR | cBackR | cDeadR | cBeyondR => exact ⟨_, rfl⟩
  | eCtrlR | eOrderR | eSyncR | eFbClearR | ePalResetR | eTmScxR | eTmScyR => exact ⟨_, rfl⟩
  | eKeyHeldR | eKeyPressedR | eKeyReleasedR => exact ⟨_, rfl⟩
  | eMouseXR | eMouseYR | eMouseHeldR | eMousePressedR | eMouseReleasedR => exact ⟨_, rfl⟩
  | ePalR | eFbR | eTmtR | eSptR | eTmgR | eSpgR | eUnusedR | narrowR | misalignedR => exact ⟨_, rfl⟩
  | _ => cases h

/-- The word reads of the write-only registers and of SYNC reply zero (20_memory R72; 40_mode_control R145, R147). -/
theorem exec_writeOnlyRead (s : State) {i : Instr}
    (h : i ∈ [.eCtrlR, .eOrderR, .eSyncR, .eFbClearR, .ePalResetR, .eTmScxR, .eTmScyR]) :
    exec i s = .next (s.replyZero .four) := by
  simp only [List.mem_cons, List.not_mem_nil, or_false] at h
  rcases h with rfl | rfl | rfl | rfl | rfl | rfl | rfl <;> rfl

/-- The reads where nothing answers reply zero at their width (20_memory R65, R73; 30_encoding R126, R128, R130). -/
theorem exec_unansweredRead (s : State) {m : Mode} {off : Offset} {w : Width} {i : Instr}
    (h : i ∈ [.cDeadR off w, .cBeyondR off w, .eUnusedR off w, .narrowR m off w, .misalignedR m off w]) :
    exec i s = .next (s.replyZero w) := by
  simp only [List.mem_cons, List.not_mem_nil, or_false] at h
  rcases h with rfl | rfl | rfl | rfl | rfl <;> rfl

/-- Settles O42: each of these rows replies zero at its width. -/
theorem readsWithoutValueReturnZero : Obligations.ReadsWithoutValueReturnZero :=
  ⟨fun s _ h => exec_writeOnlyRead s h,
    fun s _ _ w _ h => ⟨WVal.zero w, exec_unansweredRead s h, WVal.zero_width w, WVal.zero_toWord w⟩⟩

/-! ## When the pictures change -/

/-- Only SYNC and RESET touch `outImage` (45_compositor R295). -/
theorem Effect.outImage {i : Instr} {s t : State} (he : Effect s i t) (hi : i ≠ .reset)
    (hs : ¬ Stated.enhancedSyncWrite i) : t.outImage = s.outImage := by
  cases he with
  | sync v => exact absurd trivial hs
  | reset => exact absurd rfl hi
  | _ => rfl

/-- Only the Classic sync write and RESET touch `front` (40_mode_control R142). -/
theorem Effect.front {i : Instr} {s t : State} (he : Effect s i t) (hi : i ≠ .reset)
    (hs : ¬ Stated.classicSyncWrite i) : t.front = s.front := by
  cases he with
  | classicSync v hv => exact absurd (classicSyncWrite_of_not_le hv) hs
  | sync v => simp
  | reset => exact absurd rfl hi
  | _ => rfl

/-- Only C.CTRL.W, at or above the threshold, and RESET touch the mode (40_mode_control R141). -/
theorem Effect.mode {i : Instr} {s t : State} (he : Effect s i t) (hi : i ≠ .reset) (hc : ∀ v, i ≠ .cCtrlW v) :
    t.mode = s.mode := by
  cases he with
  | switch v _ => exact absurd rfl (hc v)
  | sync v => simp
  | reset => exact absurd rfl hi
  | _ => rfl

/-- SAMPLE's answer is a function of the mode and the two pictures (45_compositor R301). -/
theorem State.sampleNow_congr {s t : State} (hm : t.mode = s.mode) (hf : t.front = s.front)
    (ho : t.outImage = s.outImage) : t.sampleNow = s.sampleNow := by
  unfold State.sampleNow
  rw [hm, hf, ho]

theorem not_classicSyncWrite {i : Instr} (hc : ∀ v, i ≠ .cCtrlW v) : ¬ Stated.classicSyncWrite i := by
  cases i with
  | cCtrlW v => exact absurd rfl (hc v)
  | _ => exact id

/-- Settles O22: each picture is unchanged but by its own sync write, and SAMPLE's answer follows from both and the
mode. -/
theorem outImageAndFrontChangeOnlyAtTheirSync : Obligations.OutImageAndFrontChangeOnlyAtTheirSync := by
  intro i s t h hi
  have he := exec_effect h
  refine ⟨he.outImage hi, he.front hi, fun hs hc => ?_⟩
  exact State.sampleNow_congr (he.mode hi hc) (he.front hi (not_classicSyncWrite hc)) (he.outImage hi hs)

end Sys2Proof.Machine

/-! Encoding (30_encoding): every well-formed instruction routes back from its own packet, so the two region tables can
be read off the operands each row admits. -/

namespace Sys2Proof

/-! ## Which region an offset lies in -/

/-- The Classic regions do not overlap: the one that covers an offset is the one the decoder finds (30_encoding R103). -/
theorem classicRegion_eq_of_covers {g : ClassicRegion} {off : Offset} (h : g.Covers off.toNat) :
    classicRegion off = g := by
  have hd := Config.deadEnd_lower
  unfold classicRegion
  cases g <;> simp only [ClassicRegion.Covers] at h
  case ctrl => exact if_pos (by omega)
  case keys => rw [if_neg (by omega), if_pos (by omega)]
  case back => rw [if_neg (by omega), if_neg (by omega), if_pos (by omega)]
  case dead => rw [if_neg (by omega), if_neg (by omega), if_neg (by omega), if_pos (by omega)]
  case beyond => rw [if_neg (by omega), if_neg (by omega), if_neg (by omega), if_neg (by omega)]

/-- Below 0x1000 the page is 0 and the offset is the within-page offset (20_memory R69). -/
theorem enhancedRegion_page0 {off : Offset} (h : off.toNat < 0x1000) : enhancedRegion off = page0Region off.toNat := by
  have hpage : off.toNat / 0x1000 = 0 := by omega
  have hwithin : off.toNat % 0x1000 = off.toNat := by omega
  simp only [enhancedRegion, hpage, hwithin]

/-- The four offsets of a global register lie in one region (20_memory R69). -/
theorem enhancedRegion_word {c : Nat} {off : Offset} (hlt : c < 0x60) (hc : c % 4 = 0)
    (h : c ≤ off.toNat ∧ off.toNat ≤ c + 3) : enhancedRegion off = page0Region c := by
  have hdiv : off.toNat / 4 = c / 4 := by omega
  rw [enhancedRegion_page0 (by omega), page0Region, page0Region, if_pos (by omega), if_pos hlt, hdiv]

/-- The unused offsets of page 0 (30_encoding R102). -/
theorem page0Region_unused {n : Nat} (h : (0x0014 ≤ n ∧ n ≤ 0x001F) ∨ (0x0028 ≤ n ∧ n ≤ 0x003F) ∨
    (0x0060 ≤ n ∧ n ≤ 0x0BFF)) : page0Region n = .unused := by
  unfold page0Region
  split_ifs
  · split
    case h_16 => rfl
    all_goals omega
  · rfl
  · omega

/-- The Enhanced regions do not overlap: the one that covers an offset is the one the decoder finds
(30_encoding R102). -/
theorem enhancedRegion_eq_of_covers {g : EnhancedRegion} {off : Offset} (h : g.Covers off.toNat) :
    enhancedRegion off = g := by
  have hlt := off.isLt
  cases g <;> simp only [EnhancedRegion.Covers] at h
  case unused =>
    by_cases hp : off.toNat < 0x1000
    · rw [enhancedRegion_page0 hp]
      exact page0Region_unused (by omega)
    · have hpage : off.toNat / 0x1000 = 0xE ∨ off.toNat / 0x1000 = 0xF := by omega
      rcases hpage with hpage | hpage <;> simp only [enhancedRegion, hpage]
  case pal => rw [enhancedRegion_page0 (by omega), page0Region, if_neg (by omega), if_neg (by omega)]
  case fb =>
    have hpage : off.toNat / 0x1000 = 0x1 ∨ off.toNat / 0x1000 = 0x2 ∨ off.toNat / 0x1000 = 0x3 ∨
      off.toNat / 0x1000 = 0x4 := by omega
    rcases hpage with hpage | hpage | hpage | hpage <;> simp only [enhancedRegion, hpage]
  case tmTable =>
    have hpage : off.toNat / 0x1000 = 0x5 := by omega
    simp only [enhancedRegion, hpage]
    exact if_pos (by omega)
  case sprTable =>
    have hpage : off.toNat / 0x1000 = 0x5 := by omega
    simp only [enhancedRegion, hpage]
    exact if_neg (by omega)
  case tmGfx =>
    have hpage : off.toNat / 0x1000 = 0x6 ∨ off.toNat / 0x1000 = 0x7 ∨ off.toNat / 0x1000 = 0x8 ∨
      off.toNat / 0x1000 = 0x9 := by omega
    rcases hpage with hpage | hpage | hpage | hpage <;> simp only [enhancedRegion, hpage]
  case sprGfx =>
    have hpage : off.toNat / 0x1000 = 0xA ∨ off.toNat / 0x1000 = 0xB ∨ off.toNat / 0x1000 = 0xC ∨
      off.toNat / 0x1000 = 0xD := by omega
    rcases hpage with hpage | hpage | hpage | hpage <;> simp only [enhancedRegion, hpage]
  all_goals exact (enhancedRegion_word (by decide) (by decide) h).trans rfl

/-! ## What the row's admission of its operands says -/

theorem inRange_iff {lo hi : Nat} {off : Offset} {w : Width} :
    inRange lo hi off w = true ↔ (lo ≤ off.toNat ∧ off.toNat ≤ hi) ∧ aligned off w = true := by
  simp [inRange, and_assoc]

theorem inDeadZone_iff {off : Offset} {w : Width} :
    inDeadZone off w = true ↔ ClassicRegion.dead.Covers off.toNat ∧ aligned off w = true := by
  simp [inDeadZone, ClassicRegion.Covers, and_assoc]

theorem beyondDeadZone_iff {off : Offset} {w : Width} :
    beyondDeadZone off w = true ↔ ClassicRegion.beyond.Covers off.toNat ∧ aligned off w = true := by
  simp [beyondDeadZone, ClassicRegion.Covers]

theorem inUnused_iff {off : Offset} : inUnused off = true ↔ EnhancedRegion.unused.Covers off.toNat := by
  simp [inUnused, EnhancedRegion.Covers, or_assoc]

theorem narrowAt_iff {m : Mode} {off : Offset} {w : Width} :
    narrowAt m off w = true ↔ inWordOnly m off = true ∧ w ≠ .four ∧ aligned off w = true := by
  simp [narrowAt]

/-! ## Routing an aligned transaction (30_encoding R101) -/

theorem route_classic_write {off : Offset} {d : WVal} (ha : aligned off d.width = true) :
    route .classic (.write off d) = routeClassicWrite off d := if_pos ha

theorem route_classic_read {off : Offset} {w : Width} (ha : aligned off w = true) :
    route .classic (.read off w) = routeClassicRead off w := if_pos ha

theorem route_enhanced_write {off : Offset} {d : WVal} (ha : aligned off d.width = true) :
    route .enhanced (.write off d) = routeEnhancedWrite off d := if_pos ha

theorem route_enhanced_read {off : Offset} {w : Width} (ha : aligned off w = true) :
    route .enhanced (.read off w) = routeEnhancedRead off w := if_pos ha

/-- The row of a word write at a known offset of the Classic map. -/
theorem route_classic_word {c : Offset} {v : Word} {i : Instr} (hc : aligned c .four = true)
    (hi : routeClassicWrite c (.b4 v) = i) : route .classic (.write c (.b4 v)) = i :=
  (route_classic_write hc).trans hi

/-- The row of a word write at a known offset of the Enhanced map. -/
theorem route_enhanced_word {c : Offset} {v : Word} {i : Instr} (hc : aligned c .four = true)
    (hi : routeEnhancedWrite c (.b4 v) = i) : route .enhanced (.write c (.b4 v)) = i :=
  (route_enhanced_write hc).trans hi

/-! ## Narrow accesses (30_encoding R101 (4), R127, R128) -/

theorem wordOnlyWrite_narrow {m : Mode} {off : Offset} {d : WVal} {target : Word → Instr} (hd : d.width ≠ .four) :
    wordOnlyWrite m off d target = .narrowW m off d := by
  cases d with
  | b4 v => exact absurd rfl hd
  | _ => rfl

theorem wordOnlyRead_narrow {m : Mode} {off : Offset} {w : Width} {target : Instr} (hw : w ≠ .four) :
    wordOnlyRead m off w target = .narrowR m off w := by
  cases w with
  | four => exact absurd rfl hw
  | _ => rfl

/-- The regions of the word-only offsets of the Classic map (20_memory R67). -/
theorem classicRegion_of_inWordOnly {off : Offset} (h : inWordOnly .classic off = true) :
    classicRegion off ∈ [.ctrl, .keys] := by
  simp only [inWordOnly, decide_eq_true_eq] at h
  by_cases h4 : off.toNat < 4
  · simp [classicRegion_eq_of_covers (g := .ctrl) (off := off) ⟨by omega, by omega⟩]
  · simp [classicRegion_eq_of_covers (g := .keys) (off := off) ⟨by omega, by omega⟩]

/-- The word-only offsets of the Enhanced map lie in none of the regions that take every width (20_memory R66). -/
theorem enhancedRegion_of_inWordOnly {off : Offset} (h : inWordOnly .enhanced off = true) :
    enhancedRegion off ∉ [.unused, .pal, .fb, .tmTable, .sprTable, .tmGfx, .sprGfx] := by
  have hc := enhancedRegion_covers off
  simp only [inWordOnly, Bool.or_eq_true, Bool.and_eq_true, decide_eq_true_eq] at h
  intro hmem
  simp only [List.mem_cons, List.not_mem_nil, or_false] at hmem
  rcases hmem with hg | hg | hg | hg | hg | hg | hg <;> simp only [hg, EnhancedRegion.Covers] at hc <;> omega

theorem route_narrow_write {m : Mode} {off : Offset} {d : WVal} (h : narrowAt m off d.width = true) :
    route m (.write off d) = .narrowW m off d := by
  obtain ⟨hw, hd, ha⟩ := narrowAt_iff.1 h
  cases m with
  | classic =>
    have hg := classicRegion_of_inWordOnly hw
    rw [route_classic_write ha, routeClassicWrite]
    cases hr : classicRegion off <;> rw [hr] at hg
    case back | dead | beyond => exact absurd hg (by decide)
    all_goals exact wordOnlyWrite_narrow hd
  | enhanced =>
    have hg := enhancedRegion_of_inWordOnly hw
    rw [route_enhanced_write ha, routeEnhancedWrite]
    cases hr : enhancedRegion off <;> rw [hr] at hg
    case unused | pal | fb | tmTable | sprTable | tmGfx | sprGfx => exact absurd (by decide) hg
    all_goals exact wordOnlyWrite_narrow hd

theorem route_narrow_read {m : Mode} {off : Offset} {w : Width} (h : narrowAt m off w = true) :
    route m (.read off w) = .narrowR m off w := by
  obtain ⟨hw, hd, ha⟩ := narrowAt_iff.1 h
  cases m with
  | classic =>
    have hg := classicRegion_of_inWordOnly hw
    rw [route_classic_read ha, routeClassicRead]
    cases hr : classicRegion off <;> rw [hr] at hg
    case back | dead | beyond => exact absurd hg (by decide)
    all_goals exact wordOnlyRead_narrow hd
  | enhanced =>
    have hg := enhancedRegion_of_inWordOnly hw
    rw [route_enhanced_read ha, routeEnhancedRead]
    cases hr : enhancedRegion off <;> rw [hr] at hg
    case unused | pal | fb | tmTable | sprTable | tmGfx | sprGfx => exact absurd (by decide) hg
    all_goals exact wordOnlyRead_narrow hd

/-! ## Every well-formed instruction is what its own packet stands for -/

theorem packet_instr_of_wf {i : Instr} (h : i.wf = true) : i.packet.instr = i := by
  cases i with
  | cBackW off _ | cBackR off _ =>
    obtain ⟨hc, ha⟩ := inRange_iff.1 h
    have hg := classicRegion_eq_of_covers (g := .back) hc
    simp only [Instr.packet, Packet.instr, route, if_pos ha, routeClassicWrite, routeClassicRead, hg]
  | cDeadW off _ | cDeadR off _ =>
    obtain ⟨hc, ha⟩ := inDeadZone_iff.1 h
    have hg := classicRegion_eq_of_covers (g := .dead) hc
    simp only [Instr.packet, Packet.instr, route, if_pos ha, routeClassicWrite, routeClassicRead, hg]
  | cBeyondW off _ | cBeyondR off _ =>
    obtain ⟨hc, ha⟩ := beyondDeadZone_iff.1 h
    have hg := classicRegion_eq_of_covers (g := .beyond) hc
    simp only [Instr.packet, Packet.instr, route, if_pos ha, routeClassicWrite, routeClassicRead, hg]
  | ePalW off _ | ePalR off _ =>
    obtain ⟨hc, ha⟩ := inRange_iff.1 h
    have hg := enhancedRegion_eq_of_covers (g := .pal) hc
    simp only [Instr.packet, Packet.instr, route, if_pos ha, routeEnhancedWrite, routeEnhancedRead, hg]
  | eFbW off _ | eFbR off _ =>
    obtain ⟨hc, ha⟩ := inRange_iff.1 h
    have hg := enhancedRegion_eq_of_covers (g := .fb) hc
    simp only [Instr.packet, Packet.instr, route, if_pos ha, routeEnhancedWrite, routeEnhancedRead, hg]
  | eTmtW off _ | eTmtR off _ =>
    obtain ⟨hc, ha⟩ := inRange_iff.1 h
    have hg := enhancedRegion_eq_of_covers (g := .tmTable) hc
    simp only [Instr.packet, Packet.instr, route, if_pos ha, routeEnhancedWrite, routeEnhancedRead, hg]
  | eSptW off _ | eSptR off _ =>
    obtain ⟨hc, ha⟩ := inRange_iff.1 h
    have hg := enhancedRegion_eq_of_covers (g := .sprTable) hc
    simp only [Instr.packet, Packet.instr, route, if_pos ha, routeEnhancedWrite, routeEnhancedRead, hg]
  | eTmgW off _ | eTmgR off _ =>
    obtain ⟨hc, ha⟩ := inRange_iff.1 h
    have hg := enhancedRegion_eq_of_covers (g := .tmGfx) hc
    simp only [Instr.packet, Packet.instr, route, if_pos ha, routeEnhancedWrite, routeEnhancedRead, hg]
  | eSpgW off _ | eSpgR off _ =>
    obtain ⟨hc, ha⟩ := inRange_iff.1 h
    have hg := enhancedRegion_eq_of_covers (g := .sprGfx) hc
    simp only [Instr.packet, Packet.instr, route, if_pos ha, routeEnhancedWrite, routeEnhancedRead, hg]
  | eUnusedW off _ | eUnusedR off _ =>
    simp only [Instr.wf, Bool.and_eq_true] at h
    obtain ⟨hu, ha⟩ := h
    have hg := enhancedRegion_eq_of_covers (inUnused_iff.1 hu)
    simp only [Instr.packet, Packet.instr, route, if_pos ha, routeEnhancedWrite, routeEnhancedRead, hg]
  | narrowW m off d => exact route_narrow_write h
  | narrowR m off w => exact route_narrow_read h
  | misalignedW m off d => exact if_neg (by simpa [Instr.wf] using h)
  | misalignedR m off w => exact if_neg (by simpa [Instr.wf] using h)
  | cCtrlW v | cKeysW v =>
    rw [Instr.packet, Packet.instr]
    exact route_classic_word rfl rfl
  | eCtrlW v | eOrderW v | eSyncW v | eFbClearW v | ePalResetW v | eTmScxW v | eTmScyW v | eKeyHeldW v
  | eKeyPressedW v | eKeyReleasedW v | eMouseXW v | eMouseYW v | eMouseHeldW v | eMousePressedW v
  | eMouseReleasedW v =>
    rw [Instr.packet, Packet.instr]
    exact route_enhanced_word rfl rfl
  | _ => rfl

/-- Settles O1: the packet reads back from its bytes, and a well-formed instruction is what its packet stands for. -/
theorem decodeInvertsEncode : Obligations.DecodeInvertsEncode := by
  intro i rest h
  rw [encode, decode_bytes, packet_instr_of_wf h]

/-- A row of the table decodes from its transaction's bytes. -/
theorem decode_of_rowOf {m : Mode} {r : BusReq} {i : Instr} (h : i.RowOf m r) :
    decode (Packet.bus m r).bytes = .ok (i, []) := by
  obtain ⟨hwf, hp⟩ := h
  have hd := decodeInvertsEncode i [] hwf
  rwa [encode, hp, List.append_nil] at hd

/-- Settles O2: the row is the one the transaction routes to; a second row with that encoding decodes from the same
bytes. -/
theorem everyTransactionIsOneRow : Obligations.EveryTransactionIsOneRow := by
  intro m r
  obtain ⟨hwf, hp⟩ := route_rowOf m r
  refine ⟨route m r, Machine.decode_bus m r, hwf, congrArg Packet.bytes hp, fun j hj he => ?_⟩
  have hd := decodeInvertsEncode j [] hj
  rw [he, List.append_nil, Machine.decode_bus] at hd
  cases hd
  rfl

theorem not_aligned_of_mod_ne {off : Offset} {w : Width} (h : off.toNat % w.bytes ≠ 0) : (!aligned off w) = true := by
  simpa [aligned] using h

/-- Settles O3: a misaligned transaction is a row of its own, in both modes. -/
theorem misalignmentDecodesFirst : Obligations.MisalignmentDecodesFirst :=
  ⟨fun _ _ _ h => decode_of_rowOf ⟨not_aligned_of_mod_ne h, rfl⟩,
    fun _ _ _ h => decode_of_rowOf ⟨not_aligned_of_mod_ne h, rfl⟩⟩

/-! ## The region tables -/

/-- The four offsets from `lo` are the word-only register whose rows sit at `lo` (30_encoding R101 (4)). -/
theorem wordRegister_of_rowOf {m : Mode} {lo : Nat} {row : Word → Instr} {readRow : Instr}
    (hw : ∀ v, (row v).RowOf m (.write (BitVec.ofNat 16 lo) (.b4 v)))
    (hr : readRow.RowOf m (.read (BitVec.ofNat 16 lo) .four)) (hm : inWordOnly m (BitVec.ofNat 16 lo) = true)
    (hlt : lo < 2 ^ 16) (h4 : lo % 4 = 0) : Stated.WordRegister m lo row readRow := by
  have hn : (BitVec.ofNat 16 lo).toNat = lo := Nat.mod_eq_of_lt hlt
  have hc : (BitVec.ofNat 16 lo).toNat % 4 = 0 := by rw [hn, h4]
  refine ⟨fun off d hlo hhi ha => ?_, fun off w hlo hhi ha => ?_⟩
  · have hd := decode_of_rowOf (wordOnlyWrite_rowOf hw hm hc (by rw [hn]; exact ⟨hlo, hhi⟩) ((aligned_iff _ _).2 ha))
    cases d <;> exact hd
  · have hd := decode_of_rowOf (wordOnlyRead_rowOf hr hm hc (by rw [hn]; exact ⟨hlo, hhi⟩) ((aligned_iff _ _).2 ha))
    cases w <;> exact hd

/-- A range of offsets belongs to a region when the region's rows admit every aligned access there. -/
theorem wideRegion_of_rowOf {m : Mode} {lo hi : Nat} {row : Offset → WVal → Instr} {readRow : Offset → Width → Instr}
    (hw : ∀ off d, inRange lo hi off d.width = true → (row off d).RowOf m (.write off d))
    (hr : ∀ off w, inRange lo hi off w = true → (readRow off w).RowOf m (.read off w)) :
    Stated.WideRegion m lo hi row readRow :=
  ⟨fun off d hlo hhi ha => decode_of_rowOf (hw off d (inRange_of_bounds ⟨hlo, hhi⟩ ((aligned_iff _ _).2 ha))),
    fun off w hlo hhi ha => decode_of_rowOf (hr off w (inRange_of_bounds ⟨hlo, hhi⟩ ((aligned_iff _ _).2 ha)))⟩

/-- Each of the four unused ranges of the Enhanced map (30_encoding R102). -/
theorem unused_wideRegion {lo hi : Nat} (h : ∀ n, lo ≤ n → n ≤ hi → EnhancedRegion.unused.Covers n) :
    Stated.WideRegion .enhanced lo hi .eUnusedW .eUnusedR := by
  have admits {off : Offset} {w : Width} (hr : inRange lo hi off w = true) : (inUnused off && aligned off w) = true := by
    obtain ⟨⟨hlo, hhi⟩, ha⟩ := inRange_iff.1 hr
    rw [inUnused_of_covers (h _ hlo hhi), ha, Bool.and_self]
  exact wideRegion_of_rowOf (fun _ _ hr => ⟨admits hr, rfl⟩) fun _ _ hr => ⟨admits hr, rfl⟩

/-- Settles O4: fifteen word registers, six RAM regions and the four unused ranges, each by the rows that admit its
operands. -/
theorem enhancedMapDecodes : Obligations.EnhancedMapDecodes := by
  refine ⟨?ctrl, ?order, ?sync, ?fbClear, ?palReset, ?tmScx, ?tmScy, ?keyHeld, ?keyPressed, ?keyReleased, ?mouseX,
    ?mouseY, ?mouseHeld, ?mousePressed, ?mouseReleased, ?unused14, ?unused28, ?unused60, ?pal, ?fb, ?tmTable, ?sprTable,
    ?tmGfx, ?sprGfx, ?unusedE000⟩
  case unused14 | unused28 | unused60 | unusedE000 =>
    exact unused_wideRegion fun n hlo hhi => by simp only [EnhancedRegion.Covers]; omega
  case pal | fb | tmTable | sprTable | tmGfx | sprGfx =>
    exact wideRegion_of_rowOf (fun _ _ hr => ⟨hr, rfl⟩) fun _ _ hr => ⟨hr, rfl⟩
  all_goals exact wordRegister_of_rowOf (fun _ => ⟨rfl, rfl⟩) ⟨rfl, rfl⟩ rfl (by decide) rfl

/-- Settles O5: two word registers, the back buffer, and the two ranges that meet at `CLASSIC_DEAD_END`. -/
theorem classicMapDecodes : Obligations.ClassicMapDecodes := by
  have hd := Config.deadEnd_lower
  have dead {off : Offset} {w : Width} (hr : inRange 0x1008 (Config.classicDeadEnd - 1) off w = true) :
      inDeadZone off w = true := by
    obtain ⟨⟨hlo, hhi⟩, ha⟩ := inRange_iff.1 hr
    exact inDeadZone_iff.2 ⟨⟨hlo, by omega⟩, ha⟩
  have beyond {off : Offset} {w : Width} (hr : inRange Config.classicDeadEnd 0xFFFF off w = true) :
      beyondDeadZone off w = true := by
    obtain ⟨⟨hlo, hhi⟩, ha⟩ := inRange_iff.1 hr
    exact beyondDeadZone_iff.2 ⟨hlo, ha⟩
  exact ⟨wordRegister_of_rowOf (fun _ => ⟨rfl, rfl⟩) ⟨rfl, rfl⟩ rfl (by decide) rfl,
    wordRegister_of_rowOf (fun _ => ⟨rfl, rfl⟩) ⟨rfl, rfl⟩ rfl (by decide) rfl,
    wideRegion_of_rowOf (fun _ _ hr => ⟨hr, rfl⟩) fun _ _ hr => ⟨hr, rfl⟩,
    wideRegion_of_rowOf (fun _ _ hr => ⟨dead hr, rfl⟩) fun _ _ hr => ⟨dead hr, rfl⟩,
    wideRegion_of_rowOf (fun _ _ hr => ⟨beyond hr, rfl⟩) fun _ _ hr => ⟨beyond hr, rfl⟩⟩

end Sys2Proof

/-! The table's words, the step that runs a transaction, and the ignored writes. -/

namespace Sys2Proof

/-- A table word whose bytes begin with an instruction's encoding reads as that instruction. -/
theorem decodeTableWord_of_encode {nbits w : Nat} {i : Instr} {rest : List Byte} (hi : i.wf = true)
    (h : tableBytes nbits w = encode i ++ rest) : decodeTableWord nbits w = some i := by
  rw [decodeTableWord, h, decodeInvertsEncode i rest hi]

/-- Settles O6: each word's bytes are the instruction's encoding, with a zero word after a read. -/
theorem decodeKeysOfTheVectors : Obligations.DecodeKeysOfTheVectors :=
  ⟨decodeTableWord_of_encode (rest := wordBytes 0) rfl (by decide),
    decodeTableWord_of_encode (rest := []) rfl (by decide),
    decodeTableWord_of_encode (rest := wordBytes 0) rfl (by decide),
    decodeTableWord_of_encode (rest := []) rfl (by decide),
    decodeTableWord_of_encode (rest := []) rfl (by decide),
    decodeTableWord_of_encode (rest := []) rfl (by decide),
    decodeTableWord_of_encode (rest := []) rfl (by decide)⟩

end Sys2Proof

namespace Sys2Proof.Machine

/-- The head of the schedule is chosen when its master is not held (20_memory R81). -/
theorem choose_head_bus {s : State} {k : Master} {r : BusReq} {rest : List Pending} (hp : s.pending = .bus k r :: rest)
    (hk : k ∉ s.heldMasters) : s.choose = .run k (.bus s.mode r) rest :=
  choose_append s [] rest (.bus k r) hp nofun (by simpa [State.canRun] using hk)

/-- Settles O8: the packet of the head entry is chosen, and it decodes to the row it routes to. -/
theorem stepRunsTheDecodedTransaction : Obligations.StepRunsTheDecodedTransaction := by
  intro s k r rest i tail hp hk hd
  have hi : route s.mode r = i := by
    rw [decode_bus] at hd
    cases hd
    rfl
  rw [step_run s k _ rest (choose_head_bus hp hk), Packet.instr, hi]
  rfl

/-- Settles O40: the arm of each of these rows answers the state it is given. -/
theorem ignoredWritesChangeNothing : Obligations.IgnoredWritesChangeNothing := by
  intro s m off d v
  exact ⟨rfl, rfl, rfl, rfl, rfl, rfl, rfl, rfl, rfl, rfl⟩

/-! ## What one sprite shows (44_sprite R264 to R267) -/

/-- Bit `k` of a byte as a digit of its number. -/
theorem getLsbD_iff_div_mod (f : Byte) (k : Nat) : f.getLsbD k = true ↔ f.toNat / 2 ^ k % 2 = 1 := by
  rw [← BitVec.testBit_toNat, Nat.testBit_eq_decide_div_mod_eq, decide_eq_true_eq]

/-- A byte as a signed number (30_encoding R117). -/
theorem toInt_byte (b : Byte) : b.toInt = if b.toNat < 128 then (b.toNat : Int) else (b.toNat : Int) - 256 := by
  rw [BitVec.toInt_eq_toNat_cond]
  split_ifs <;> omega

/-- The palette row is the high half of the flags (30_encoding R117). -/
theorem highNibble_toNat (f : Byte) : (f.extractLsb' 4 4).toNat = f.toNat / 16 := by
  have hlt := f.isLt
  rw [BitVec.extractLsb'_toNat, Nat.shiftRight_eq_div_pow]
  omega

/-- Inside its square a sprite shows its graphic pixel (44_sprite R264). -/
theorem SpriteEntry.at_of_inside {e : SpriteEntry} {pal : Palette} {gfx : Memory} {x y : Nat}
    (h : 0 ≤ (x : Int) - e.x ∧ (x : Int) - e.x < e.side ∧ 0 ≤ (y : Int) - e.y ∧ (y : Int) - e.y < e.side) :
    e.at pal gfx x y = e.color pal gfx ((x : Int) - e.x).toNat ((y : Int) - e.y).toNat := if_pos h

/-- Outside its square a sprite shows nothing (44_sprite R267). -/
theorem SpriteEntry.at_of_outside {e : SpriteEntry} {pal : Palette} {gfx : Memory} {x y : Nat}
    (h : ¬(0 ≤ (x : Int) - e.x ∧ (x : Int) - e.x < e.side ∧ 0 ≤ (y : Int) - e.y ∧ (y : Int) - e.y < e.side)) :
    e.at pal gfx x y = none := if_neg h

/-- A graphic pixel's colour, its two transparent cases (colour 0 of the graphic, index 0 of the palette) as one
(44_sprite R265, R266; 41_palette R171). -/
theorem SpriteEntry.color_eq {e : SpriteEntry} {pal : Palette} {gfx : Memory} {px py sx sy : Nat} {c index : Byte}
    (hsx : (if e.hFlip then e.side - 1 - px else px) = sx) (hsy : (if e.vFlip then e.side - 1 - py else py) = sy)
    (hc : graphicPixel gfx ((e.tile.toNat + (2 * (sy / 8) + sx / 8)) % 256) (sx % 8) (sy % 8) = c)
    (hi : BitVec.ofNat 8 (c.toNat + 16 * e.paletteRow.toNat) = index) :
    e.color pal gfx px py = if c = 0 ∨ index = 0 then none else some (pal.get index) := by
  simp only [SpriteEntry.color, hsx, hsy, hc, hi, Palette.lookup]
  by_cases h0 : c = 0
  · rw [if_pos h0, if_pos (.inl h0)]
  · simp only [h0, if_false, false_or]

/-- Settles O47: the flags are digits of the flag byte and the coordinates signed bytes; with these the entry's square
and its pixels are the formula's. -/
theorem spritePixelFormula : Obligations.SpritePixelFormula := by
  intro pal table gfx n x y _ _ signed8 t f side dx dy px py sx sy c index
  have bit (k : Nat) : (table.read (4 * n + 3)).getLsbD k = true ↔ f / 2 ^ k % 2 = 1 := getLsbD_iff_div_mod _ k
  have hx : (spriteEntry table n).x = signed8 (table.read (4 * n)) := toInt_byte _
  have hy : (spriteEntry table n).y = signed8 (table.read (4 * n + 1)) := toInt_byte _
  have hside : (spriteEntry table n).side = side := if_congr (bit 3) rfl rfl
  have hrow : (spriteEntry table n).paletteRow.toNat = f / 16 := highNibble_toNat _
  refine ⟨(bit 0).trans (by rw [pow_zero, Nat.div_one]), fun h => ?_, fun h => ?_⟩
  · rw [SpriteEntry.at_of_inside (by rwa [hx, hy, hside]), hx, hy]
    refine SpriteEntry.color_eq (sx := sx) (sy := sy) ?_ ?_ rfl (by rw [hrow])
    · rw [hside]
      exact if_congr (bit 1) rfl rfl
    · rw [hside]
      exact if_congr (bit 2) rfl rfl
  · exact SpriteEntry.at_of_outside (by rwa [hx, hy, hside])

end Sys2Proof.Machine

/-! The Mode Controller (40_mode_control): CTRL and ORDER, the mode state machine, what stays untouched in Classic mode,
and the held Classic sync read. -/

namespace Sys2Proof.Machine

/-! ## Classic mode leaves the Enhanced state untouched -/

theorem resetEvent_enhancedUntouched (s : State) : s.resetEvent.EnhancedUntouched :=
  ⟨rfl, rfl, rfl, rfl, rfl, rfl, rfl, rfl, rfl, rfl, rfl⟩

/-- A transaction that a step runs is a row of the mode the step begins in, not merely some well-formed row
(30_encoding R100, R101). -/
theorem step_effect_in_mode {s t : State} (h : step s = .next t) :
    (∃ i k rest, (∀ m r, i.packet = .bus m r → m = s.mode) ∧ Effect (s.begin k rest) i t) ∨
      (∃ k rest, t = (s.begin k rest).completeRead k) ∨ t = s.quiet := by
  rcases step_cases s t h with ⟨k, r, _, _, -, -, he⟩ | ⟨_, _, -, he⟩ | ⟨_, _, -, he⟩ | ⟨_, _, cs, -, he⟩ |
    ⟨k, rest, -, -, -, rfl⟩ | rfl
  · refine .inl ⟨route s.mode r, k, _, fun m q hq => ?_, exec_effect he⟩
    cases (route_rowOf s.mode r).2.symm.trans hq
    rfl
  · exact .inl ⟨.reset, _, _, nofun, exec_effect he⟩
  · exact .inl ⟨.sample, _, _, nofun, exec_effect he⟩
  · exact .inl ⟨.input cs, _, _, nofun, exec_effect he⟩
  · exact .inr (.inl ⟨k, rest, rfl⟩)
  · exact .inr (.inr rfl)

/-- Whatever writes the Enhanced state, but for RESET, is a row of the Enhanced map, so it cannot run in Classic mode
(40_mode_control R141). -/
theorem Effect.classicPristine {i : Instr} {s t : State} (he : Effect s i t)
    (hi : ∀ m r, i.packet = .bus m r → m = s.mode) (h : s.ClassicPristine) : t.ClassicPristine := by
  intro hm
  cases he with
  | aside | hold | beyond | classicSync | storeBack => exact { h hm with }
  | switch => cases hm
  | reset => exact resetEvent_enhancedUntouched s
  | sync =>
    have hmode : Mode.enhanced = s.mode := hi _ _ rfl
    simp [← hmode] at hm
  | _ =>
    have hmode : Mode.enhanced = s.mode := hi _ _ rfl
    cases hmode.trans hm

/-- Settles O15: a step in Classic mode runs no row of the Enhanced map, and RESET restores the reset values. -/
theorem stepKeepsClassicPristine : Obligations.StepKeepsClassicPristine := by
  intro s t h hs
  rcases step_effect_in_mode hs with ⟨i, k, rest, hi, he⟩ | ⟨k, rest, rfl⟩ | rfl
  · exact he.classicPristine hi fun hm => { h hm with }
  · exact fun hm => { h hm with }
  · exact fun hm => { h hm with }

/-! ## Past the entries that wait -/

section Waiting

variable {s : State} {e : Pending} {k : Master} {before after : List Pending}

/-- The choice past entries that wait is the first entry that does not (40_mode_control R151). -/
theorem choose_past_waiting (hp : s.pending = before ++ e :: after) (hw : ∀ a ∈ before, s.Waits a)
    (he : s.canRun e = true) : s.choose = e.choice s.mode (before ++ after) :=
  choose_append s before after e hp (fun a ha => (waits_iff s a).1 (hw a ha)) he

theorem step_past_waiting {p : Packet} (hp : s.pending = before ++ e :: after) (hw : ∀ a ∈ before, s.Waits a)
    (he : s.canRun e = true) (hc : e.choice s.mode (before ++ after) = .run k p (before ++ after)) :
    step s = exec p.instr (s.begin k (before ++ after)) :=
  step_run s k p _ ((choose_past_waiting hp hw he).trans hc)

theorem step_all_waiting (h : s.waiter = true ∨ s.heldMasters = []) (hw : ∀ a ∈ s.pending, s.Waits a) :
    step s = .next s.quiet :=
  step_idle s (choose_idle s (fun a ha => (waits_iff s a).1 (hw a ha)) h)

/-- An enabled completion entry completes its master's read (40_mode_control R151). -/
theorem step_completion_entry (hp : s.pending = before ++ .complete k :: after) (hw : ∀ a ∈ before, s.Waits a)
    (hk : k ∈ s.heldMasters) (hf : s.waiter = false) :
    step s = .next ((s.begin k (before ++ after)).completeRead k) :=
  step_complete s k _ (choose_past_waiting hp hw (by simp [State.canRun, hk, hf]))

/-- Where every entry waits and `waiter` is false, the oldest held read completes and leaves the later ones held
(log 8). -/
theorem step_oldest_read {others : List Master} (hh : s.heldMasters = k :: others) (hf : s.waiter = false)
    (hw : ∀ a ∈ s.pending, s.Waits a) :
    step s = .next { s with heldMasters := others, busMaster := k, readData := some (.b4 0), sampled := none,
                            frameReady := false } := by
  have hfree : s.heldMasters.erase k = others := by rw [hh, List.erase_cons_head]
  rw [step_complete s k _ (choose_oldest s (fun a ha => (waits_iff s a).1 (hw a ha)) k others hh hf), ← hfree]
  rfl

end Waiting

/-- Settles O10: a waiting entry is never chosen, and the first entry that does not wait is. -/
theorem heldMasterIssuesNothing : Obligations.HeldMasterIssuesNothing := by
  refine ⟨fun s => step_all_waiting, fun s k r before after i tail hp hw hk hd => ?_, fun s before after hw =>
    ⟨fun hp => step_past_waiting hp hw rfl rfl, fun hp => step_past_waiting hp hw rfl rfl,
      fun cs hp => step_past_waiting hp hw rfl rfl⟩⟩
  cases (decode_bus s.mode r).symm.trans hd
  exact step_past_waiting hp hw (by simpa [State.canRun] using hk) rfl

/-! ## The mode state machine -/

/-- Settles O20: C.CTRL.W by the side of the threshold, RESET by its reset state, and nothing else touches the mode. -/
theorem modeStateMachine : Obligations.ModeStateMachine := by
  intro i s t h
  refine ⟨?_, ?_, ?_, fun hc hi => (exec_effect h).mode hi hc⟩
  · rintro v rfl hv
    rw [exec_cCtrlW_sync s (Nat.not_le.2 hv)] at h
    cases h
    exact State.classicSync_mode s v
  · rintro v rfl hv
    rw [exec_cCtrlW_switch s hv] at h
    cases h
    exact State.switchEnhanced_mode s v
  · rintro rfl
    cases h
    rfl

/-! ## The fields of a CTRL and an ORDER value as arithmetic (30_encoding R110, R112) -/

theorem clamp_eq_min_max {lo hi : Nat} (x : Nat) (h : lo ≤ hi) : clamp x lo hi = min hi (max lo x) := by
  unfold clamp
  split_ifs <;> omega

theorem msPerFrameOf_eq (v : Word) : msPerFrameOf v = min 100 (max 10 (v.toNat / 65536 % 256)) := by
  have hms : (ctrlMs v).toNat = v.toNat / 65536 % 256 := by
    rw [ctrlMs, BitVec.extractLsb'_toNat, Nat.shiftRight_eq_div_pow]
  rw [msPerFrameOf, clamp_eq_min_max _ (by decide), hms]

theorem word_getLsbD (v : Word) (k : Nat) : v.getLsbD k = decide (v.toNat / 2 ^ k % 2 = 1) :=
  Nat.testBit_eq_decide_div_mod_eq

theorem orderBit_eq (v : Word) : orderBit v = decide (v.toNat % 2 = 1) := by
  rw [orderBit, word_getLsbD, pow_zero, Nat.div_one]

theorem ctrlMode_eq_zero_iff (v : Word) : ctrlMode v = 0 ↔ v.toNat % 4 = 0 := by
  rw [← BitVec.toNat_inj, ctrlMode, BitVec.extractLsb'_toNat, Nat.shiftRight_zero]
  rfl

/-- Of the four mode fields only 2 disables the framebuffer (40_mode_control R144). -/
theorem fbEnabledOf_iff (v : Word) : fbEnabledOf v = true ↔ v.toNat % 4 ≠ 2 := by
  simp only [fbEnabledOf, Bool.or_eq_true, decide_eq_true_eq, ctrlMode_eq_zero_iff, word_getLsbD]
  omega

/-- The mode fields 2 and 3 enable the tilemap (40_mode_control R144). -/
theorem tmEnabledOf_iff (v : Word) : tmEnabledOf v = true ↔ v.toNat % 4 ≥ 2 := by
  simp only [tmEnabledOf, decide_eq_true_eq, word_getLsbD]
  omega

/-! ## The writes of CTRL and ORDER -/

/-- Settles O27: below the threshold the sync write, at or above it the switch, each with its own frame. -/
theorem classicControlWrite : Obligations.ClassicControlWrite := by
  refine ⟨fun s v hv => ⟨s.classicSync v, exec_cCtrlW_sync s (Nat.not_le.2 hv), rfl, fun h0 => ?_, fun h0 a => ?_⟩,
    fun s v hv => ?_⟩
  · rw [State.classicSync_back, if_pos h0]
  · rw [State.classicSync_back, if_neg h0, Memory.read_nil]
  · rw [exec_cCtrlW_switch s hv, ← msPerFrameOf_eq]
    rfl

/-- Settles O28: the sub-flags, each by the arithmetic of its field. -/
theorem enhancedControlWrite : Obligations.EnhancedControlWrite := fun s v =>
  ⟨s.setSubFlags v, rfl, rfl, fbEnabledOf_iff v, tmEnabledOf_iff v, msPerFrameOf_eq v⟩

/-- Settles O29: the order bit is the value's last binary digit. -/
theorem orderWrite : Obligations.OrderWrite := by
  intro s v
  rw [← orderBit_eq]
  rfl

/-! ## The held Classic sync read -/

/-- Settles O30: the issue holds the master, and a completion, by its entry or for the oldest read, replies and frees it;
RESET clears `waiter` and keeps the held masters and their waiting entries, so the oldest read completes after it. -/
theorem classicSyncReadHoldsAndCompletes : Obligations.ClassicSyncReadHoldsAndCompletes := by
  refine ⟨fun s => rfl, fun s k before after => step_completion_entry, fun s k others => step_oldest_read,
    fun s k others hh hbus => ⟨s.resetEvent, _, rfl, step_oldest_read hh rfl fun e he => .inl ?_, rfl, rfl, rfl⟩⟩
  obtain ⟨j, r, rfl, hj⟩ := hbus e he
  exact ⟨j, r, rfl, hj⟩

end Sys2Proof.Machine

/-! The Palette Store (41_palette): the lanes a transaction covers, the colour it reaches, and PAL_RESET. -/

namespace Sys2Proof.Machine

/-! ## Lanes of a colour (30_encoding R115) -/

theorem laneOf_eq (c : RGB) (k : Nat) :
    laneOf c k = if k = 0 then c.b else if k = 1 then c.g else if k = 2 then c.r else 0 := by
  match k with
  | 0 | 1 | 2 | _ + 3 => rfl

/-- A colour is its three lanes. -/
theorem mk_laneOf (c : RGB) : (⟨laneOf c 2, laneOf c 1, laneOf c 0⟩ : RGB) = c := rfl

/-- An aligned access covers whole lanes of its entry: its first lane is a multiple of its width (20_memory R65). -/
theorem palLane_mod_bytes {off : Offset} {w : Width} (hlo : 0x0C00 ≤ off.toNat) (ha : off.toNat % w.bytes = 0) :
    palLane off % w.bytes = 0 := by
  cases w <;> simp only [palLane, Width.bytes] at * <;> omega

theorem palLane_lt (off : Offset) : palLane off < 4 := Nat.mod_lt _ (by decide)

/-- A word access begins at lane 0. -/
theorem palLane_of_word {off : Offset} (hlo : 0x0C00 ≤ off.toNat) (ha : off.toNat % 4 = 0) : palLane off = 0 :=
  (Nat.mod_mod _ 4).symm.trans (palLane_mod_bytes (w := .four) hlo ha)

/-- What an aligned write leaves in a lane: the covering byte of its value, or the lane as it was (41_palette R174 to
R176). -/
theorem laneOf_withLanes {k lane : Nat} {d : WVal} (c : RGB) (hk : k < 4) (ha : k % d.width.bytes = 0) (hl : lane < 3) :
    laneOf (withLanes c k d) lane =
      if k ≤ lane ∧ lane < k + d.width.bytes then byteOf d.toWord (lane - k) else laneOf c lane := by
  cases d with
  | b1 v =>
    have h0 : byteOf (WVal.b1 v).toWord 0 = v := ((WVal.b1 v).bytes_get 0 Nat.zero_lt_one).symm
    interval_cases k <;> interval_cases lane <;> simp [withLanes, laneOf, WVal.width, Width.bytes, h0]
  | b2 v =>
    have h0 : byteOf (WVal.b2 v).toWord 0 = byteOf v 0 := ((WVal.b2 v).bytes_get 0 Nat.zero_lt_two).symm
    have h1 : byteOf (WVal.b2 v).toWord 1 = byteOf v 1 := ((WVal.b2 v).bytes_get 1 Nat.one_lt_two).symm
    obtain rfl | rfl : k = 0 ∨ k = 2 := by simp only [WVal.width, Width.bytes] at ha; omega
    all_goals interval_cases lane <;> simp [withLanes, laneOf, WVal.width, Width.bytes, h0, h1]
  | b4 v =>
    obtain rfl : k = 0 := by simp only [WVal.width, Width.bytes] at ha; omega
    interval_cases lane <;> rfl

/-- The lanes of a written word are its bytes without the top one (41_palette R176). -/
theorem laneOf_withLanes_word (c : RGB) (v : Word) {j : Nat} (hj : j < 4) :
    laneOf (withLanes c 0 (.b4 v)) j = byteOf (BitVec.ofNat 32 (v.toNat % 2 ^ 24)) j := by
  rw [byteOf_eq_ofNat, BitVec.toNat_ofNat]
  apply BitVec.eq_of_toNat_eq
  interval_cases j
  all_goals
    simp only [withLanes, laneOf, byteOf_eq_ofNat, BitVec.ofNat_eq_ofNat, BitVec.toNat_ofNat]
    omega

/-! ## The colour a transaction reaches (41_palette R170, R173) -/

@[simp] theorem State.palTarget_zero (s : State) : s.palTarget 0 = s.bg := rfl

theorem State.palTarget_of_ne {e : Byte} (s : State) (he : e ≠ 0) : s.palTarget e = s.pal.get e := if_neg he

@[simp] theorem State.putColor_zero (s : State) (c : RGB) : s.putColor 0 c = { s with bg := c } := rfl

theorem State.putColor_of_ne {e : Byte} (s : State) (c : RGB) (he : e ≠ 0) :
    s.putColor e c = { s with pal := s.pal.put e c }.markPal := if_neg he

@[simp] theorem State.palTarget_putColor (s : State) (e : Byte) (c : RGB) : (s.putColor e c).palTarget e = c := by
  by_cases he : e = 0
  · rw [he, State.putColor_zero, State.palTarget_zero]
  · rw [State.palTarget_of_ne _ he, s.putColor_of_ne c he]
    exact Palette.get_put _ e c

/-! ## Writes -/

theorem palIgnored_iff {k : Nat} {d : WVal} : palIgnored k d = true ↔ d.width = .one ∧ k = 3 := by
  simp [palIgnored, and_comm]

theorem State.palWrite_of_ignored {off : Offset} {d : WVal} (s : State) (h : d.width = .one ∧ palLane off = 3) :
    s.palWrite off d = s := if_pos (palIgnored_iff.2 h)

theorem State.palWrite_of_not_ignored {off : Offset} {d : WVal} (s : State)
    (h : ¬(d.width = .one ∧ palLane off = 3)) :
    s.palWrite off d = s.putColor (palEntry off) (withLanes (s.palTarget (palEntry off)) (palLane off) d) :=
  if_neg (palIgnored_iff.not.2 h)

/-- A word write is never ignored and replaces the whole colour (41_palette R176). -/
theorem State.palWrite_word {off : Offset} (s : State) (v : Word) (hk : palLane off = 0) :
    s.palWrite off (.b4 v) = s.putColor (palEntry off) (withLanes (s.palTarget (palEntry off)) 0 (.b4 v)) := by
  have hw : ¬((WVal.b4 v).width = .one ∧ palLane off = 3) := fun ⟨h, _⟩ => Width.noConfusion h
  rw [s.palWrite_of_not_ignored hw, hk]

/-- Settles O31: `laneOf_withLanes` gives the three lanes of the colour written, and `putColor` says where it goes. -/
theorem paletteWriteByLanes : Obligations.PaletteWriteByLanes := by
  intro s off d hlo _ ha e k new recolor
  have recolored (c : RGB) : withLanes c (palLane off) d = recolor c := by
    have lane {l : Nat} (hl : l < 3) := laneOf_withLanes c (palLane_lt off) (palLane_mod_bytes hlo ha) hl
    rw [← mk_laneOf (withLanes c (palLane off) d)]
    exact congr (congrArg₂ RGB.mk (lane (by decide)) (lane (by decide))) (lane (by decide))
  have stored (h : ¬(d.width = .one ∧ k = 3)) : s.palWrite off d = s.putColor e (recolor (s.palTarget e)) :=
    (s.palWrite_of_not_ignored h).trans (congrArg (s.putColor e) (recolored _))
  refine ⟨s.palWrite off d, rfl, s.palWrite_of_ignored, fun h he => ?_, fun h he => ?_⟩
  · rw [stored h, he, State.putColor_zero, State.palTarget_zero]
  · rw [stored h, s.palTarget_of_ne he, s.putColor_of_ne _ he]
    exact ⟨rfl, Palette.get_put _ e _, fun f hf hne => Palette.get_put_ne _ e f _ he hf hne⟩

/-! ## Reads -/

/-- Settles O32: the reply is made of the lanes of the colour the offset reaches. -/
theorem paletteReadByLanes : Obligations.PaletteReadByLanes := by
  intro s off w _ _ _ e k c
  refine ⟨s.palRead off w, rfl, WVal.ofBytes_width w _, fun j hj => ?_⟩
  rw [State.palRead, WVal.byteOf_ofBytes w _ j hj, laneOf_eq]
  rfl

/-- The word read of an entry that holds a written word (41_palette R176, R178). -/
theorem State.palRead_putColor_word {off : Offset} (s : State) (c : RGB) (v : Word) (hk : palLane off = 0) :
    (s.putColor (palEntry off) (withLanes c 0 (.b4 v))).palRead off .four =
      .b4 (BitVec.ofNat 32 (v.toNat % 2 ^ 24)) := by
  rw [State.palRead, State.palTarget_putColor, hk, ← WVal.ofBytes_byteOf (.b4 (BitVec.ofNat 32 (v.toNat % 2 ^ 24)))]
  refine WVal.ofBytes_congr fun j hj => ?_
  rw [Nat.zero_add]
  exact laneOf_withLanes_word c v hj

/-- Settles O34: the word is stored whole at the entry the read reaches, and entry 0 is `bg`. -/
theorem paletteWordReadsBack : Obligations.PaletteWordReadsBack := by
  intro s t off v hlo _ ha h
  have hk : palLane off = 0 := palLane_of_word hlo ha
  obtain rfl : s.palWrite off (.b4 v) = t := Host.Outcome.next.inj h
  rw [s.palWrite_word v hk]
  refine ⟨?_, fun h0 => ?_⟩
  · rw [← s.palRead_putColor_word (s.palTarget (palEntry off)) v hk]
    rfl
  · have he : palEntry off = 0 := by rw [palEntry, h0]; rfl
    rw [he, State.putColor_zero]
    rfl

/-! ## PAL_RESET -/

/-- Settles O33: the palette it restores is the one of reset, whose colours are the ramp. -/
theorem paletteResetRestoresRamp : Obligations.PaletteResetRestoresRamp := fun _ _ =>
  ⟨_, rfl, rfl, fun e he => (defaultPalette_get e he).trans (defaultColor_eq_rampColor _)⟩

end Sys2Proof.Machine

/-! The RAM behind the planes, and the Framebuffer Plane (42_framebuffer): stores, reads, FB_CLEAR, the Classic dead
zone and the framebuffer layer. -/

namespace Sys2Proof

/-- The palette lookup, its transparent index first (41_palette R171). -/
theorem Palette.lookup_eq (pal : Palette) (c : Byte) : pal.lookup c = if c = 0 then none else some (pal.get c) := rfl

end Sys2Proof

namespace Sys2Proof.Machine

/-! ## Stores to a region -/

/-- A row stores to a region as `StoresAt` asks when its arm stores the value there and then puts the new memory in the
state with `put`, which sets the region and changes only what the frame allows (20_memory R62). -/
theorem storesAt_of_exec {instr : Offset → WVal → Instr} {lo hi : Nat} {index : Offset → Nat}
    {ram : State → Memory} {frame : State → State → Prop} (put : State → Memory → State) (hram : ∀ s m, ram (put s m) = m)
    (hframe : ∀ s m, frame s (put s m))
    (hexec : ∀ s off d, exec (instr off d) s = .next (put s ((ram s).store (index off) d))) :
    Stated.StoresAt instr lo hi index ram frame := by
  intro s off d _ _ _ hwf
  refine ⟨_, hexec s off d, hframe s _, fun j hj => ?_, fun a ha => ?_⟩
  · rw [hram]
    exact (ram s).read_store (index off) d j hwf hj
  · rw [hram]
    exact (ram s).read_store_ne (index off) d a ha

/-- Settles O35: the arm of each row stores at the region's index, and all but the back buffer mark their plane. -/
theorem ramStores : Obligations.RamStores :=
  ⟨storesAt_of_exec (fun s m => { s with back := m }) (fun _ _ => rfl) (fun _ _ => rfl) (fun _ _ _ => rfl),
    storesAt_of_exec (fun s m => { s with fb := m }.markFb) (fun _ _ => rfl) (fun _ _ => rfl) (fun _ _ _ => rfl),
    storesAt_of_exec (fun s m => { s with tmTable := m }.markTm) (fun _ _ => rfl) (fun _ _ => rfl) (fun _ _ _ => rfl),
    storesAt_of_exec (fun s m => { s with tmGfx := m }.markTm) (fun _ _ => rfl) (fun _ _ => rfl) (fun _ _ _ => rfl),
    storesAt_of_exec (fun s m => { s with sprGfx := m }.markSpr) (fun _ _ => rfl) (fun _ _ => rfl) (fun _ _ _ => rfl)⟩

/-! ## Reads of a region -/

/-- A row reads a region as `LoadsFrom` asks when its arm replies with a load of it (20_memory R62). -/
theorem loadsFrom_of_exec {instr : Offset → Width → Instr} {lo hi : Nat} {index : Offset → Nat}
    {ram : State → Memory}
    (hexec : ∀ s off w, exec (instr off w) s = .next (s.reply ((ram s).load (index off) w))) :
    Stated.LoadsFrom instr lo hi index ram := fun s off w _ _ _ =>
  ⟨(ram s).load (index off) w, hexec s off w, (ram s).load_width (index off) w, (ram s).byteOf_load (index off) w⟩

/-- Settles O37: the arm of each row replies with a load at the region's index. -/
theorem ramReads : Obligations.RamReads :=
  ⟨loadsFrom_of_exec fun _ _ _ => rfl, loadsFrom_of_exec fun _ _ _ => rfl, loadsFrom_of_exec fun _ _ _ => rfl,
    loadsFrom_of_exec fun _ _ _ => rfl, loadsFrom_of_exec fun _ _ _ => rfl⟩

/-! ## FB_CLEAR and the Classic dead zone -/

/-- Settles O39: the framebuffer it leaves lists no byte, and an unlisted byte reads 0. -/
theorem framebufferClear : Obligations.FramebufferClear := fun s _ =>
  ⟨{ s with fb := [] }.markFb, rfl, rfl, Memory.read_nil⟩

/-- Settles O41: the arm sets `anomaly` alone, whatever the operands. -/
theorem beyondDeadZoneSetsAnomaly : Obligations.BeyondDeadZoneSetsAnomaly := fun _ _ _ => rfl

/-! ## The framebuffer layer (42_framebuffer R212) -/

theorem fbLayerOf_pixel {x y : Nat} (pal : Palette) (fb : Memory) (hx : x < 128) (hy : y < 128) :
    (fbLayerOf pal fb).pixel x y = pal.lookup (fb.read (128 * y + x)) := Layer.build_pixel _ x y hx hy

/-- Settles O49: a built pixel is the lookup of its byte, and the lookup is the case split on index 0. -/
theorem framebufferLayerPixels : Obligations.FramebufferLayerPixels := fun pal fb _ _ hx hy =>
  (fbLayerOf_pixel pal fb hx hy).trans (pal.lookup_eq _)

end Sys2Proof.Machine

/-! The Tilemap Plane (43_tilemap): the scroll registers, the fields of an entry and the two layers. -/

namespace Sys2Proof.Machine

/-! ## The effective scroll (30_encoding R120 (6)) -/

/-- 256 divides 2^32, so the sign of the word drops out of the remainder. -/
theorem effectiveScroll_eq (v : Word) : effectiveScroll v = v.toNat % 256 := by
  rw [effectiveScroll, BitVec.toInt_eq_toNat_cond]
  split_ifs <;> omega

/-! ## The fields of a tilemap entry as digits of its flag byte (30_encoding R116) -/

theorem tileEntry_hFlip_iff (table : Memory) (n : Nat) :
    (tileEntry table n).hFlip = true ↔ (table.read (2 * n + 1)).toNat % 2 = 1 :=
  (getLsbD_iff_div_mod _ 0).trans (by rw [pow_zero, Nat.div_one])

theorem tileEntry_vFlip_iff (table : Memory) (n : Nat) :
    (tileEntry table n).vFlip = true ↔ (table.read (2 * n + 1)).toNat / 2 % 2 = 1 :=
  getLsbD_iff_div_mod _ 1

theorem tileEntry_priority_iff (table : Memory) (n : Nat) :
    (tileEntry table n).priority = true ↔ (table.read (2 * n + 1)).toNat / 4 % 2 = 1 :=
  getLsbD_iff_div_mod _ 2

/-! ## The two layers (43_tilemap R240) -/

/-- The pixel a tile shows, from the entry it samples and its coordinates with the flips applied. -/
theorem tilePixel_eq {table : Memory} {scx scy : Word} {x y n tx ty : Nat} (pal : Palette) (gfx : Memory)
    (hn : tileNumberAt scx scy x y = n)
    (htx : (if (tileEntry table n).hFlip then 7 - (x + effectiveScroll scx) % 8
      else (x + effectiveScroll scx) % 8) = tx)
    (hty : (if (tileEntry table n).vFlip then 7 - (y + effectiveScroll scy) % 8
      else (y + effectiveScroll scy) % 8) = ty) :
    tilePixel pal table gfx scx scy x y = pal.lookup (graphicPixel gfx (table.read (2 * n)).toNat tx ty) := by
  subst hn htx hty
  rfl

theorem tmLoOf_pixel {x y : Nat} (pal : Palette) (table gfx : Memory) (scx scy : Word) (hx : x < 128) (hy : y < 128) :
    (tmLoOf pal table gfx scx scy).pixel x y = if (tileEntry table (tileNumberAt scx scy x y)).priority then none
      else tilePixel pal table gfx scx scy x y := Layer.build_pixel _ x y hx hy

theorem tmHiOf_pixel {x y : Nat} (pal : Palette) (table gfx : Memory) (scx scy : Word) (hx : x < 128) (hy : y < 128) :
    (tmHiOf pal table gfx scx scy).pixel x y = if (tileEntry table (tileNumberAt scx scy x y)).priority then
      tilePixel pal table gfx scx scy x y else none := Layer.build_pixel _ x y hx hy

/-- Settles O44: the flags are digits of the flag byte; the flips give the sampled pixel, the priority its layer. -/
theorem tilemapLayerPixels : Obligations.TilemapLayerPixels := by
  intro pal table gfx scx scy x y hx hy u v n t f tx ty c p
  have hn : tileNumberAt scx scy x y = n := rfl
  have hp : tilePixel pal table gfx scx scy x y = p :=
    (tilePixel_eq pal gfx hn (if_congr (tileEntry_hFlip_iff table n) rfl rfl)
      (if_congr (tileEntry_vFlip_iff table n) rfl rfl)).trans (pal.lookup_eq c)
  rw [tmLoOf_pixel _ _ _ _ _ hx hy, tmHiOf_pixel _ _ _ _ _ hx hy, hn, hp]
  exact ⟨if_congr (tileEntry_priority_iff table n) rfl rfl, if_congr (tileEntry_priority_iff table n) rfl rfl⟩

/-! ## Scrolling -/

/-- The layers sample the table and the bank through the effective scroll alone. -/
theorem tmLayers_congr_effectiveScroll {a b c d : Word} (pal : Palette) (table gfx : Memory)
    (hx : effectiveScroll a = effectiveScroll c) (hy : effectiveScroll b = effectiveScroll d) :
    tmLoOf pal table gfx a b = tmLoOf pal table gfx c d ∧ tmHiOf pal table gfx a b = tmHiOf pal table gfx c d := by
  have hnum (x y : Nat) : tileNumberAt a b x y = tileNumberAt c d x y := by
    rw [tileNumberAt, hx, hy, tileNumberAt]
  have hpix (x y : Nat) : tilePixel pal table gfx a b x y = tilePixel pal table gfx c d x y :=
    tilePixel_eq pal gfx (hnum x y) (by rw [hx]) (by rw [hy])
  simp only [tmLoOf, tmHiOf, hnum, hpix, and_self]

/-- Settles O45: the effective scroll is the low byte of the word, and nothing else of it reaches the layers. -/
theorem scrollWrapsModulo256 : Obligations.ScrollWrapsModulo256 :=
  ⟨fun pal table gfx a b c d hx hy => tmLayers_congr_effectiveScroll pal table gfx
    (by rw [effectiveScroll_eq, effectiveScroll_eq, hx]) (by rw [effectiveScroll_eq, effectiveScroll_eq, hy]),
    effectiveScroll_eq⟩

/-- Settles O43: each arm sets its register and marks the tilemap. -/
theorem scrollWrites : Obligations.ScrollWrites := fun _ _ => ⟨rfl, rfl⟩

end Sys2Proof.Machine

/-! The Sprite Plane (44_sprite): its table, the layer as the first sprite that shows at each pixel, and the painting
loop. -/

namespace Sys2Proof

/-! ## Layers pixel by pixel -/

theorem Layer.ext_pixel {l m : Layer} (h : ∀ x y, x < 128 → y < 128 → l.pixel x y = m.pixel x y) : l = m := by
  ext1 i hi
  have hpix := h (i % 128) (i / 128) (by omega) (by omega)
  rwa [Layer.pixel, Layer.pixel, Nat.div_add_mod, Vector.getElem?_eq_getElem hi, Vector.getElem?_eq_getElem hi] at hpix

/-- Setting one pixel of the screen changes that pixel alone: the row-major positions of two pixels differ. -/
theorem Layer.pixel_setIfInBounds {x y u v : Nat} (l : Layer) (p : Option RGB) (hx : x < 128) (hy : y < 128)
    (hu : u < 128) :
    Layer.pixel (l.setIfInBounds (128 * v + u) p) x y = if u = x ∧ v = y then p else l.pixel x y := by
  have hpos : 128 * v + u = 128 * y + x ↔ u = x ∧ v = y := by omega
  have hbound : 128 * y + x < 16384 := by omega
  rw [Layer.pixel, Vector.getElem?_setIfInBounds]
  by_cases h : u = x ∧ v = y
  · rw [if_pos h, if_pos (hpos.2 h), if_pos (by omega), Option.getD_some]
  · rw [if_neg h, if_neg (mt hpos.1 h), Layer.pixel]

end Sys2Proof

namespace Sys2Proof.Machine

/-! ## The sprite table (44_sprite R260, R261) -/

/-- Settles O36: the arms store and load at the model's index, whose remainder modulo 1024 takes off the half's base. -/
theorem spriteTableStoreAndRead : Obligations.SpriteTableStoreAndRead := by
  refine ⟨storesAt_of_exec (fun s m => { s with sprTable := m }.markSpr) (fun _ _ => rfl) (fun _ _ => rfl)
    (fun _ _ _ => rfl), loadsFrom_of_exec fun _ _ _ => rfl, fun off hlo hhi => ?_, fun off hlo hhi => ?_⟩
  · rw [sprTableIndex, Nat.mod_eq_of_lt (by omega)]
  · rw [sprTableIndex]
    omega

/-! ## The layer: the first sprite that shows (44_sprite R268, R269) -/

/-- What sprite `n` of the table shows at screen pixel (x, y): nothing where it is disabled. -/
def spriteShows (pal : Palette) (table gfx : Memory) (x y n : Nat) : Option RGB :=
  if (spriteEntry table n).enable then (spriteEntry table n).at pal gfx x y else none

theorem spriteShows_of_enabled {table : Memory} {n : Nat} (pal : Palette) (gfx : Memory) (x y : Nat)
    (h : (spriteEntry table n).enable = true) :
    spriteShows pal table gfx x y n = (spriteEntry table n).at pal gfx x y := if_pos h

theorem spriteShows_eq_none_iff (pal : Palette) (table gfx : Memory) (x y n : Nat) :
    spriteShows pal table gfx x y n = none ↔
      ((spriteEntry table n).enable = true → (spriteEntry table n).at pal gfx x y = none) := by
  rw [spriteShows]
  split_ifs with h <;> simp [h]

/-- Putting each sprite over those after it leaves the first one that shows. -/
theorem foldr_or_eq_findSome? {α β : Type} (f : α → Option β) (ks : List α) :
    ks.foldr (fun k below => (f k).or below) none = ks.findSome? f := by
  induction ks with
  | nil => rfl
  | cons k ks ih => cases h : f k <;> simp [h, ih]

theorem spritePixel_enabledSprites (pal : Palette) (table gfx : Memory) (x y : Nat) :
    spritePixel (enabledSprites table) pal gfx x y =
      (List.range' 0 256).findSome? (spriteShows pal table gfx x y) := by
  rw [spritePixel, enabledSprites, List.foldr_filter, List.foldr_map, ← foldr_or_eq_findSome?]
  congr 1
  funext n below
  rw [spriteShows]
  split_ifs <;> rfl

theorem sprLayerOf_pixel {x y : Nat} (pal : Palette) (table gfx : Memory) (hx : x < 128) (hy : y < 128) :
    (sprLayerOf pal table gfx).pixel x y = (List.range' 0 256).findSome? (spriteShows pal table gfx x y) :=
  (Layer.build_pixel _ x y hx hy).trans (spritePixel_enabledSprites pal table gfx x y)

/-- The indices around `n`: those before it, which are the smaller ones, and those after it. -/
theorem range'_split_at {n m : Nat} (h : n < m) :
    List.range' 0 m = List.range' 0 n ++ n :: List.range' (n + 1) (m - n - 1) := by
  rw [← List.range'_succ]
  have happend := List.range'_append_1 (s := 0) (m := n) (n := m - n - 1 + 1)
  rw [Nat.zero_add, show n + (m - n - 1 + 1) = m by omega] at happend
  exact happend.symm

/-- Settles O48: the pixel is the first of the 256 sprites that shows there. -/
theorem lowestOpaqueSpriteShows : Obligations.LowestOpaqueSpriteShows := by
  intro pal table gfx x y hx hy
  rw [sprLayerOf_pixel pal table gfx hx hy]
  refine ⟨fun n c hn hen hat hbefore => ?_, fun hnone => ?_⟩
  · have hshows := (spriteShows_of_enabled pal gfx x y hen).trans hat
    refine List.findSome?_eq_some_iff.2 ⟨_, n, _, range'_split_at hn, hshows, fun k hk =>
      (spriteShows_eq_none_iff ..).2 (hbefore k ?_)⟩
    have := List.mem_range'_1.1 hk
    omega
  · refine List.findSome?_eq_none_iff.2 fun k hk => (spriteShows_eq_none_iff ..).2 (hnone k ?_)
    have := List.mem_range'_1.1 hk
    omega

/-! ## The painting loop (44_sprite R264) -/

theorem blankLayer_pixel (x y : Nat) : Layer.pixel blankLayer x y = none := by
  rw [Layer.pixel, blankLayer, tabulate_get?]
  split_ifs <;> rfl

/-- What the loop paints at screen pixel (x, y) when it draws graphic pixel (px, py) of a sprite. -/
def SpriteEntry.dot (e : SpriteEntry) (pal : Palette) (gfx : Memory) (x y px py : Nat) : Option RGB :=
  if e.x + px = x ∧ e.y + py = y then e.color pal gfx px py else none

theorem SpriteEntry.dot_of_ne {e : SpriteEntry} {x y px py : Nat} (pal : Palette) (gfx : Memory)
    (h : ¬(e.x + px = x ∧ e.y + py = y)) : e.dot pal gfx x y px py = none := if_neg h

theorem SpriteEntry.drawPixel_pixel {x y : Nat} (e : SpriteEntry) (pal : Palette) (gfx : Memory) (l : Layer)
    (px py : Nat) (hx : x < 128) (hy : y < 128) :
    (e.drawPixel pal gfx l px py).pixel x y = (e.dot pal gfx x y px py).or (l.pixel x y) := by
  rw [drawPixel, dot]
  by_cases hscreen : 0 ≤ e.x + px ∧ e.x + px ≤ 127 ∧ 0 ≤ e.y + py ∧ e.y + py ≤ 127
  · rw [if_pos hscreen]
    have hhere : (e.x + px).toNat = x ∧ (e.y + py).toNat = y ↔ e.x + px = x ∧ e.y + py = y := by omega
    cases hc : e.color pal gfx px py with
    | none => simp
    | some c =>
      simp only [Layer.pixel_setIfInBounds l (some c) hx hy (show (e.x + px).toNat < 128 by omega), hhere]
      split_ifs <;> rfl
  · rw [if_neg hscreen, if_neg (by omega), Option.none_or]

/-- A loop over `0..n-1` each of whose rounds puts something over one pixel, and in which only round `a` has something
to put there, puts what round `a` has, if the loop reaches it. -/
theorem foldl_pixel_of_single {x y a : Nat} {paint : Layer → Nat → Layer} {shown : Nat → Option RGB}
    (hround : ∀ l k, (paint l k).pixel x y = (shown k).or (l.pixel x y)) (hsingle : ∀ k, k ≠ a → shown k = none)
    (n : Nat) (l : Layer) :
    ((List.range' 0 n).foldl paint l).pixel x y = (if a < n then shown a else none).or (l.pixel x y) := by
  induction n with
  | zero => simp
  | succ n ih =>
    rw [List.range'_1_concat, List.foldl_append, List.foldl_cons, List.foldl_nil, hround, ih, Nat.zero_add]
    by_cases hn : n = a
    · subst hn
      simp
    · rw [hsingle n hn, Option.none_or]
      have : a < n + 1 ↔ a < n := by omega
      simp only [this]

/-- The square of a sprite in the coordinates of its graphic: one graphic pixel lies at (x, y), if the square reaches
that far. -/
theorem SpriteEntry.at_eq_dot (e : SpriteEntry) (pal : Palette) (gfx : Memory) (x y : Nat) :
    e.at pal gfx x y =
      if ((y : Int) - e.y).toNat < e.side then
        if ((x : Int) - e.x).toNat < e.side then e.dot pal gfx x y ((x : Int) - e.x).toNat ((y : Int) - e.y).toNat
        else none
      else none := by
  by_cases h : 0 ≤ (x : Int) - e.x ∧ (x : Int) - e.x < e.side ∧ 0 ≤ (y : Int) - e.y ∧ (y : Int) - e.y < e.side
  · rw [SpriteEntry.at_of_inside h, if_pos (by omega), if_pos (by omega), dot, if_pos (by omega)]
  · rw [SpriteEntry.at_of_outside h]
    split_ifs with hv hu
    · exact (SpriteEntry.dot_of_ne pal gfx (by omega)).symm
    · rfl
    · rfl

/-- Drawing a sprite puts what it shows over every pixel of the screen. -/
theorem SpriteEntry.draw_pixel {x y : Nat} (e : SpriteEntry) (pal : Palette) (gfx : Memory) (l : Layer)
    (hx : x < 128) (hy : y < 128) : (e.draw pal gfx l).pixel x y = (e.at pal gfx x y).or (l.pixel x y) := by
  have hrow (l : Layer) (py : Nat) :
      Layer.pixel ((List.range' 0 e.side).foldl (fun l px => e.drawPixel pal gfx l px py) l) x y =
        (if ((x : Int) - e.x).toNat < e.side then e.dot pal gfx x y ((x : Int) - e.x).toNat py else none).or
          (l.pixel x y) :=
    foldl_pixel_of_single (shown := fun px => e.dot pal gfx x y px py)
      (fun l px => e.drawPixel_pixel pal gfx l px py hx hy)
      (fun px hpx => SpriteEntry.dot_of_ne pal gfx (by omega)) e.side l
  rw [at_eq_dot]
  refine foldl_pixel_of_single hrow (fun py hpy => ?_) e.side l
  rw [SpriteEntry.dot_of_ne pal gfx (by omega), ite_self]

theorem paintSprites_pixel {x y : Nat} (pal : Palette) (table gfx : Memory) (hx : x < 128) (hy : y < 128) :
    (paintSprites pal table gfx).pixel x y = (List.range' 0 256).findSome? (spriteShows pal table gfx x y) := by
  rw [paintSprites, List.foldl_reverse, ← foldr_or_eq_findSome?, ← blankLayer_pixel x y]
  refine (List.foldr_hom (fun l : Layer => l.pixel x y) fun n l => ?_).symm
  by_cases h : (spriteEntry table n).enable = true
  · simp only [h, if_true, spriteShows_of_enabled, SpriteEntry.draw_pixel _ pal gfx l hx hy]
  · simp [h, spriteShows]

/-- Settles O46: at each pixel both are the first of the 256 sprites that shows there. -/
theorem spriteLayerIsThePaintedLoop : Obligations.SpriteLayerIsThePaintedLoop := fun pal table gfx =>
  Layer.ext_pixel fun _ _ hx hy =>
    (sprLayerOf_pixel pal table gfx hx hy).trans (paintSprites_pixel pal table gfx hx hy).symm

end Sys2Proof.Machine

/-! The Compositor (45_compositor): the dirty flags, the merge, SYNC and SAMPLE. -/

namespace Sys2Proof.Machine

/-! ## The merge (45_compositor R296) -/

theorem State.mergeOf_pixel {x y : Nat} (s : State) (f lo sp hi : Layer) (hx : x < 128) (hy : y < 128) :
    (s.mergeOf f lo sp hi).pixel x y = some (mergePixel s.fbEnabled s.tmEnabled s.fbInFront s.bg (f.pixel x y)
      (lo.pixel x y) (sp.pixel x y) (hi.pixel x y)) := Frame.build_pixel _ x y hx hy

@[simp] theorem overlay_none (p : RGB) : overlay p none = p := rfl

@[simp] theorem overlay_some (p c : RGB) : overlay p (some c) = c := rfl

@[simp] theorem overlayIf_true (p : RGB) (l : Option RGB) : overlayIf true p l = overlay p l := rfl

@[simp] theorem overlayIf_false (p : RGB) (l : Option RGB) : overlayIf false p l = p := rfl

/-- With the tilemap off and no sprite there, the pixel is the framebuffer's over the background, in either order. -/
theorem mergePixel_framebuffer_only (front : Bool) (bg : RGB) (f lo hi : Option RGB) :
    mergePixel true false front bg f lo none hi = overlay bg f := by
  cases front <;> simp [mergePixel]

/-- Settles O50: a merged pixel is `mergePixel` of the four pixels, whose `overlay` is the painting over of one
layer. -/
theorem mergeOrder : Obligations.MergeOrder := by
  intro s f lo sp hi x y hx hy onTop p0 back tiles sprites priority
  have hTop : overlay = onTop := by
    funext p l
    cases l <;> rfl
  rw [s.mergeOf_pixel f lo sp hi hx hy, mergePixel]
  simp only [overlayIf, hTop]
  rfl

/-! ## SYNC (45_compositor R291 to R295) -/

theorem exec_eSyncW (s : State) (v : Word) : exec (.eSyncW v) s = .next s.rebuild.publish.signalFrame := rfl

/-- Settles O51: the rebuilds are one record update, and the merge reads nothing else that they change. -/
theorem syncWrite : Obligations.SyncWrite := by
  intro s v
  refine ⟨_, exec_eSyncW s v, ?_⟩
  rw [State.rebuild_eq]
  exact ⟨rfl, rfl, rfl, rfl, rfl, rfl, rfl, rfl⟩

/-- Settles O52: after the rebuilds of a coherent state the merge is the image. -/
theorem syncPublishesTheImageOfCurrentRam : Obligations.SyncPublishesTheImageOfCurrentRam := fun s v h =>
  ⟨_, exec_eSyncW s v, congrArg some h.merge_rebuild⟩

/-- A second rebuild finds nothing to do: a plane is dirty after the first only where it is disabled. -/
theorem State.rebuild_rebuild (s : State) : s.rebuild.rebuild = s.rebuild := by
  have stays (dirty enabled : Bool) : (enabled && (dirty && !enabled)) = false := by
    cases enabled <;> simp
  rw [State.rebuild_eq s.rebuild, State.rebuild_eq s]
  simp [stays]

/-- Publishing and releasing the held read touch nothing that a rebuild or a merge reads. -/
theorem State.merge_rebuild_publish (s : State) : s.publish.signalFrame.rebuild.merge = s.rebuild.merge := by
  rw [State.rebuild_eq, State.rebuild_eq]
  rfl

/-- Settles O53: the second SYNC rebuilds nothing, so it merges the same layers. -/
theorem syncTwiceSamePicture : Obligations.SyncTwiceSamePicture := by
  intro s t v w h
  cases h
  refine ⟨_, exec_eSyncW _ w, congrArg some ?_⟩
  calc s.rebuild.publish.signalFrame.rebuild.merge
      = s.rebuild.rebuild.merge := s.rebuild.merge_rebuild_publish
    _ = s.rebuild.merge := by rw [s.rebuild_rebuild]

/-- Settles O54: SYNC publishes the image, whose pixel is there the framebuffer's over the background. -/
theorem framebufferOnlyPicture : Obligations.FramebufferOnlyPicture := by
  intro s v x y hs hfb htm hx hy hspr
  obtain ⟨t, ht, himage⟩ := syncPublishesTheImageOfCurrentRam s v hs
  refine ⟨t, s.image, ht, himage, ?_⟩
  rw [State.image, s.mergeOf_pixel _ _ _ _ hx hy, hfb, htm, hspr, mergePixel_framebuffer_only,
    fbLayerOf_pixel _ _ hx hy, Palette.lookup_eq]
  split_ifs <;> rfl

/-! ## SAMPLE (45_compositor R301) -/

theorem exec_sample (s : State) : exec .sample s = .next { s with sampled := some s.sampleNow } := rfl

theorem State.sampleNow_of_classic {s : State} (h : s.mode = .classic) :
    s.sampleNow = .classic (classicImage s.front) := by
  rw [State.sampleNow, h]

theorem State.sampleNow_of_enhanced {s : State} (h : s.mode = .enhanced) : s.sampleNow = .enhanced s.outImage := by
  rw [State.sampleNow, h]

/-- The low four bits of a byte are its remainder modulo 16 (42_framebuffer R206). -/
theorem lowNibble_eq_ofNat (b : Byte) : b.extractLsb' 0 4 = BitVec.ofNat 4 b.toNat := by
  simp [BitVec.toNat_eq]

theorem classicImage_pixel {x y : Nat} (front : Memory) (hx : x < 64) (hy : y < 64) :
    (classicImage front).pixel x y =
      some (Config.classicColors (BitVec.ofNat 4 (front.read (64 * y + x)).toNat)) := by
  rw [classicImage, ClassicImage.build_pixel _ x y hx hy, lowNibble_eq_ofNat]

/-- Settles O56: SAMPLE's answer by the mode, and the Classic image pixel by pixel. -/
theorem sampleReturnsTheImage : Obligations.SampleReturnsTheImage := by
  refine ⟨fun s hm => ⟨classicImage s.front, ?_, fun _ _ hx hy => classicImage_pixel s.front hx hy⟩,
    fun s hm => ?_⟩
  · rw [exec_sample, State.sampleNow_of_classic hm]
  · rw [exec_sample, State.sampleNow_of_enhanced hm]

/-! ## The dirty flags (45_compositor R290) -/

/-- A palette write marks the palette but where it is ignored or stores the background (41_palette R173). -/
theorem State.palWrite_palDirty (s : State) (off : Offset) (d : WVal) :
    (s.palWrite off d).palDirty =
      (s.palDirty || (!(palEntry off == 0) && !(palLane off == 3 && d.width == .one))) := by
  by_cases hi : d.width = .one ∧ palLane off = 3
  · rw [s.palWrite_of_ignored hi]
    simp [hi]
  · rw [s.palWrite_of_not_ignored hi]
    by_cases he : palEntry off = 0
    · rw [he, State.putColor_zero]
      simp
    · rw [s.putColor_of_ne _ he, State.markPal_palDirty]
      have hentry : (palEntry off == 0) = false := beq_eq_false_iff_ne.2 he
      have hlane : (palLane off == 3 && d.width == .one) = false := by simpa [and_comm] using hi
      rw [hentry, hlane]
      simp

/-- Settles O26: the palette write and SYNC by their rules, and the control write by its two branches; every other arm
names the flags it sets. -/
theorem dirtyFlagTable : Obligations.DirtyFlagTable := by
  intro i s t h
  cases i with
  | ePalW off d =>
    obtain rfl : s.palWrite off d = t := Host.Outcome.next.inj h
    exact ⟨s.palWrite_palDirty off d, s.palWrite_fbDirty off d, s.palWrite_tmDirty off d, s.palWrite_sprDirty off d⟩
  | eSyncW v =>
    cases h
    rw [State.rebuild_eq]
    exact ⟨rfl, rfl, rfl, rfl⟩
  | cCtrlW v =>
    cases exec_effect h with
    | aside | switch | classicSync => exact ⟨rfl, rfl, rfl, rfl⟩
  | _ =>
    cases h
    exact ⟨rfl, rfl, rfl, rfl⟩

end Sys2Proof.Machine

/-! The Input Mirror (46_input_mirror): INPUT and the key functions it changes, and what its registers return. -/

namespace Sys2Proof.Machine

/-! ## Only INPUT changes the collaborator's values (46_input_mirror R320, R321) -/

theorem exec_input (s : State) (cs : List InputChange) :
    exec (.input cs) s = .next { s with inputs := s.inputs.changes cs } := rfl

theorem route_ne_input (m : Mode) (r : BusReq) (cs : List InputChange) : route m r ≠ .input cs := by
  intro h
  have hp := (route_rowOf m r).2
  rw [h] at hp
  cases hp

/-- The inputs are values of the collaborator, which no transaction, RESET or SAMPLE touches. -/
theorem exec_inputs {i : Instr} {s t : State} (h : exec i s = .next t) (hi : ∀ cs, i ≠ .input cs) :
    t.inputs = s.inputs := by
  cases i with
  | input cs => exact absurd rfl (hi cs)
  | cCtrlW v =>
    by_cases hv : Config.enhThreshold ≤ v
    · cases (exec_cCtrlW_switch s hv).symm.trans h
      rfl
    · cases (exec_cCtrlW_sync s hv).symm.trans h
      rfl
  | ePalW off d =>
    obtain rfl : s.palWrite off d = t := Host.Outcome.next.inj h
    exact s.palWrite_inputs off d
  | eSyncW v =>
    cases (exec_eSyncW s v).symm.trans h
    exact s.rebuild_inputs
  | _ =>
    cases h
    rfl

/-- A step leaves the inputs alone unless it runs an INPUT of the schedule, whose changes it makes. -/
theorem step_inputs {s t : State} (h : step s = .next t) :
    t.inputs = s.inputs ∨ ∃ cs, Pending.input cs ∈ s.pending ∧ t.inputs = s.inputs.changes cs := by
  rcases step_cases s t h with ⟨k, r, _, _, -, -, he⟩ | ⟨_, _, -, he⟩ | ⟨_, _, -, he⟩ | ⟨_, _, cs, hp, he⟩ |
    ⟨k, rest, -, -, -, rfl⟩ | rfl
  · exact .inl ((exec_inputs he (route_ne_input s.mode r)).trans (s.begin_inputs _ _))
  · exact .inl ((exec_inputs he nofun).trans (s.begin_inputs _ _))
  · exact .inl ((exec_inputs he nofun).trans (s.begin_inputs _ _))
  · cases (exec_input _ cs).symm.trans he
    exact .inr ⟨cs, by simp [hp], rfl⟩
  · exact .inl rfl
  · exact .inl rfl

theorem State.KeySetsGood.of_inputs_eq {s t : State} (hs : s.KeySetsGood) (h : t.inputs = s.inputs) :
    t.KeySetsGood :=
  ⟨h ▸ hs.held, h ▸ hs.pressed, h ▸ hs.released⟩

/-- Settles O16: a step leaves the inputs alone or makes the changes of an INPUT, which keep the one form. -/
theorem stepKeepsKeySetsGood : Obligations.StepKeepsKeySetsGood := by
  intro s t hs h
  rcases step_inputs h with hsame | ⟨cs, -, hchanged⟩
  · exact hs.of_inputs_eq hsame
  · exact (Inputs.changes_good s cs hs).of_inputs_eq hchanged

/-! ## What each change does -/

@[simp] theorem Inputs.changes_nil (v : Inputs) : v.changes [] = v := rfl

@[simp] theorem Inputs.changes_singleton (v : Inputs) (c : InputChange) : v.changes [c] = v.change c := rfl

theorem Inputs.changes_append (v : Inputs) (cs ds : List InputChange) :
    v.changes (cs ++ ds) = (v.changes cs).changes ds := List.foldl_append

/-- A change that puts one identifier in or out of one key function, and nothing else, does what is asked: `put` of a
strictly rising list says which identifiers it holds. -/
theorem keyChangeSets_of_change {table : KeyTable} {get : Inputs → KeySet} {put : Inputs → KeySet → Inputs}
    (hchange : ∀ v id down, v.change (.key table id down) = put v (KeySet.put (get v) id.toNat down)) :
    Stated.KeyChangeSets table get put := by
  intro s id down hgood
  refine ⟨KeySet.put (get s.inputs) id.toNat down, ?_, KeySet.put_good _ _ _ id.isLt hgood, ?_, fun a ha => ?_⟩
  · rw [exec_input, Inputs.changes_singleton, hchange]
  · rw [KeySet.mem_put _ _ _ _ hgood.1, if_pos rfl]
  · rw [KeySet.mem_put _ _ _ _ hgood.1, if_neg ha]

theorem wordChangeSets_of_change {change : Word → InputChange} {put : Inputs → Word → Inputs}
    (hchange : ∀ v w, v.change (change w) = put v w) : Stated.WordChangeSets change put := by
  intro s w
  rw [exec_input, Inputs.changes_singleton, hchange]

theorem exec_input_append {s t : State} {cs : List InputChange} (ds : List InputChange)
    (h : exec (.input cs) s = .next t) : exec (.input (cs ++ ds)) s = exec (.input ds) t := by
  cases (exec_input s cs).symm.trans h
  rw [exec_input, exec_input, Inputs.changes_append]

/-- Settles O59: each change is one update of one field, which for a key function is a `put`. -/
theorem inputEventChangesOnlyInputs : Obligations.InputEventChangesOnlyInputs := by
  refine ⟨fun s cs => ⟨_, exec_input s cs⟩, ?held, ?pressed, ?released, ?mouseX, ?mouseY, ?mouseHeld, ?mousePressed,
    ?mouseReleased, ?classicKeys, ?none, fun _ _ _ ds h => exec_input_append ds h⟩
  case held | pressed | released => exact keyChangeSets_of_change fun _ _ _ => rfl
  case none => exact fun s => by rw [exec_input, Inputs.changes_nil]
  all_goals exact wordChangeSets_of_change fun _ _ => rfl

/-! ## The registers (46_input_mirror R322 to R327) -/

theorem wordOfBool_has (ks : KeySet) (id : Word) :
    wordOfBool (KeySet.has ks id) = if id.toNat ∈ ks then 1 else 0 := by
  simp [wordOfBool, KeySet.has]

/-- Settles O57: each arm names its own latch and its own key function, and the answer is that function's value. -/
theorem keyRegisters : Obligations.KeyRegisters := by
  intro s v
  simp only [← wordOfBool_has]
  exact ⟨rfl, rfl, rfl, rfl, rfl, rfl⟩

/-- Settles O58: each arm replies with its own value of the collaborator. -/
theorem mouseAndClassicKeyReads : Obligations.MouseAndClassicKeyReads := fun _ =>
  ⟨rfl, rfl, rfl, rfl, rfl, rfl⟩

end Sys2Proof.Machine

/-! Safety of the step (60_exceptions): every step answers a next state, and the schedule only shrinks. -/

namespace Sys2Proof.Machine

/-- Settles O11: whatever the schedule chooses answers; a chosen packet decodes, so its instruction runs. -/
theorem everyStepAnswersNext : Obligations.EveryStepAnswersNext := step_next

/-- Settles O17: the step takes at most the chosen entry out of the schedule, and no instruction touches what is left. -/
theorem stepOnlyConsumesTheSchedule : Obligations.StepOnlyConsumesTheSchedule := by
  intro s t h
  rcases step_effect h with ⟨i, k, rest, -, hrest, -, he⟩ | ⟨k, rest, hrest, rfl⟩ | rfl
  · rwa [he.pending, State.begin_pending]
  · rwa [State.completeRead_pending, State.begin_pending]
  · exact s.quiet_pending ▸ .refl _

end Sys2Proof.Machine

/-! RESET and the platform's hazards (70_reset_and_hazards): what the RESET event restores, and the hang of a lone master
whose Classic sync read is held. -/

namespace Sys2Proof.Machine

/-- Settles O60: the reset state with free values drawn for `msPerFrame` and the layers, and the outside's values kept. -/
theorem resetEventValues : Obligations.ResetEventValues := fun s =>
  ⟨s.resetEvent, rfl, rfl, freeMs_bounds s.freeCount⟩

/-! ## The held read of a lone master (70_reset_and_hazards R381) -/

/-- Master `k` is held with `waiter` set, no RESET is to come, and the schedule's transactions are `bus`, all of them
`k`'s. -/
structure State.Hangs (s : State) (k : Master) (bus : List Pending) : Prop where
  waiter : s.waiter = true
  held : k ∈ s.heldMasters
  only : s.OnlyMaster k
  transactions : s.pending.filter Stated.isBus = bus

/-- Taking an entry that is no transaction out of the schedule leaves the hang as it is. -/
theorem State.Hangs.drop_event {s t : State} {k : Master} {bus l1 l2 : List Pending} {e : Pending}
    (h : s.Hangs k bus) (hs : s.pending = l1 ++ e :: l2) (he : Stated.isBus e = false)
    (hw : t.waiter = s.waiter) (hm : t.heldMasters = s.heldMasters) (ht : t.pending = l1 ++ l2) : t.Hangs k bus where
  waiter := hw.trans h.waiter
  held := hm ▸ h.held
  only := fun a ha => h.only a ((sublist_of_split hs).subset (ht ▸ ha))
  transactions := by
    have hbus := h.transactions
    rw [hs, List.filter_append, List.filter_cons_of_neg (by simp [he])] at hbus
    rw [ht, List.filter_append, hbus]

/-- Nothing a step can do ends the hang: the transactions are the held master's and wait, there is no RESET, no read
completes while `waiter` is set, and SAMPLE and INPUT touch neither `waiter` nor the held masters. -/
theorem step_hangs {s t : State} {k : Master} {bus : List Pending} (h : s.Hangs k bus) (hs : step s = .next t) :
    t.Hangs k bus := by
  rcases step_cases s t hs with ⟨m, r, l1, l2, hp, hfree, -⟩ | ⟨l1, l2, hp, -⟩ | ⟨l1, l2, hp, he⟩ |
    ⟨l1, l2, cs, hp, he⟩ | ⟨_, _, -, hw, -, -⟩ | rfl
  · obtain rfl : m = k := (h.only (.bus m r) (by simp [hp])).2 m r rfl
    exact absurd h.held hfree
  · exact absurd rfl (h.only .reset (by simp [hp])).1
  · cases (exec_sample _).symm.trans he
    exact h.drop_event hp rfl rfl rfl rfl
  · cases (exec_input _ cs).symm.trans he
    exact h.drop_event hp rfl rfl rfl rfl
  · exact absurd (hw.symm.trans h.waiter) nofun
  · exact { h with }

/-- A run of any length answers a next state, since every step does (60_exceptions R340). -/
theorem run_next (n : Nat) : ∀ s : State, ∃ t, Host.Core.run core n s = .next t := by
  induction n with
  | zero => exact fun s => ⟨s, rfl⟩
  | succ n ih =>
    intro s
    obtain ⟨u, hu⟩ := step_next s
    obtain ⟨t, ht⟩ := ih u
    exact ⟨t, (run_succ (M := core) hu n).trans ht⟩

/-- Settles O24: every run answers, and every step keeps the hang. -/
theorem loneMasterHangs : Obligations.LoneMasterHangs := by
  intro n s k hw hk honly
  obtain ⟨t, ht⟩ := run_next n s
  have hangs : t.Hangs k (s.pending.filter Stated.isBus) :=
    run_keeps (fun _ _ => step_hangs) n s t ⟨hw, hk, honly, rfl⟩ ht
  exact ⟨t, ht, hangs.waiter, hangs.held, hangs.transactions⟩

end Sys2Proof.Machine
